-- ==== Sys2Proof/Word.lean ====
section
/-! DEFINITION. The two word types of the block (00_scope.md R4: VALUE_BITS = 32; R6: byte sequences). -/

namespace Sys2Proof

/-- One byte as it travels on a port. -/
abbrev Byte := BitVec 8

/-- `Word32` of R21: a register value of the remote device, a mask, an expected value. -/
abbrev Word := BitVec 32

/-- A byte sequence; the byte at offset 0 is the first on the wire (R6). -/
abbrev Bytes := List Byte

/-- A timeout argument. The block passes it on and never interprets it (R17, R149). -/
abbrev Timeout := Nat

/-- `zeros(n)` of R6. -/
abbrev zeros (n : Nat) : Bytes := List.replicate n 0

end Sys2Proof
end

