-- ==== Sys2Proof/Config.lean ====
section
/-! DEFINITION. The implementation parameters of 00_scope.md R4: each row is a field of `Params`, which State holds and no
step writes. A row to which the document gives a value has it as the field's default, and `Params.Documented` says that a
build keeps those values. An OPEN row that is a function is an opaque constant, so nothing can be proved about its
values. -/

namespace Sys2Proof.Config

/-- `CTRL_VALUE(op)`, OPEN (R4, D23; the width is PRESUMED, log 13): an uninterpreted 16-bit value per opcode. -/
opaque ctrlValue : Byte → BitVec 16
/-- `CTRL_INDEX(op)`, OPEN (R4, D23; the width is PRESUMED, log 13): an uninterpreted 16-bit value per opcode. -/
opaque ctrlIndex : Byte → BitVec 16
/-- An `ECHO_OK` predicate other than the two that `EchoRule` names: uninterpreted (R4, D10, log 12). -/
opaque echoOther : Bytes → Bytes → Bool
/-- `FLUSH_RESP_LEN` of the machine at reset: OPEN, uninterpreted (R4, D13, log 8). -/
opaque flushRespLen : Nat
/-- `MAX_IMAGE` of the machine at reset: OPEN, uninterpreted (R4, D27, log 8). -/
opaque maxImage : Nat

end Sys2Proof.Config

namespace Sys2Proof

/-- Which of its two listed values a control opcode parameter takes: the first-named one or the variant (R72, D22). -/
inductive OpVariant where
  | main
  | alt
deriving DecidableEq, Repr

/-- The parameter `ECHO_OK` as data (R105, D10, log 12). -/
inductive EchoRule where
  /-- The default: every echo is accepted. -/
  | always
  /-- The echo must repeat the first bytes of the request (vector B9). -/
  | header
  /-- Any other predicate: the opaque `Config.echoOther`. -/
  | other
deriving DecidableEq, Repr

/-- The parameters of R4, with the document's values as defaults (R4; 93_implementation_defined.md row 15). No command
writes one (R38). The three OPEN rows have no default. -/
structure Params where
  /-- `SEQ_BITS`: the sequence counter wraps at 2^SEQ_BITS (R91). -/
  seqBits : Nat := 8
  /-- `SEQ_INIT`, OPEN (D6). -/
  seqInit : Byte
  /-- `ADDR_BITS`: the width of an address field (R71). -/
  addrBits : Nat := 16
  /-- `ADDR_LIMIT`: an address is valid iff it is below this (R86). -/
  addrLimit : Nat := 0xFFFF
  /-- `VALUE_BITS`: the width of a register value (R68). -/
  valueBits : Nat := 32
  /-- `LEN_BITS`: the width of a length field (R71). -/
  lenBits : Nat := 16
  /-- `STREAM_LEN_MAX`: a stream length is valid iff it is at most this (R87). -/
  streamLenMax : Nat := 0xFFFF
  /-- `ECHO_LEN`: the bytes before a Read value or a StreamRead payload (R68). -/
  echoLen : Nat := 2
  /-- `ACK_LEN`: the bytes that acknowledge a Write or a StreamWrite (R68). -/
  ackLen : Nat := 2
  /-- `OP_WRITE` (R69). -/
  opWrite : Byte := 0x01
  /-- `OP_READ` (R69). -/
  opRead : Byte := 0x02
  /-- `OP_STREAM_WRITE` (R69). -/
  opStreamWrite : Byte := 0x03
  /-- `OP_STREAM_READ` (R69). -/
  opStreamRead : Byte := 0x04
  /-- `OP_FLUSH` (R69). -/
  opFlush : Byte := 0xFF
  /-- `FLUSH_RESP_LEN`, OPEN (D13). -/
  flushRespLen : Nat
  /-- `ECHO_OK`, by default always true (D10). -/
  echoRule : EchoRule := .always
  /-- `POLL_DELAY` in ms. Timing only: no rule depends on it (R4, R149, R171, log 21). -/
  pollDelayMs : Nat := 5
  /-- `ATR_TS` (R109). -/
  atrTs : Byte := 0x3B
  /-- `ATR_MAX`, the capacity of ATR_BUF (R27). -/
  atrMax : Nat := 32
  /-- `PREFIX_LEN`, the zero bytes in front of an image (R122). -/
  prefixLen : Nat := 512
  /-- `MPS`, the maximum packet size of the control channel (R126). -/
  mps : Nat := 64
  /-- `CHUNK`, the bytes of a full chunk (R128). -/
  chunk : Nat := 2048
  /-- `SYNC_N`, the marker in normal bit order (R76). -/
  syncN : Bytes := [0xAA, 0x99, 0x55, 0x66]
  /-- `SYNC_R`, the marker in reversed bit order (R76). -/
  syncR : Bytes := [0x55, 0x99, 0xAA, 0x66]
  /-- `RESET_OP`: 0x31 or 0x60 (D22). -/
  resetOp : OpVariant := .main
  /-- `CHUNK_OP`: 0x32 or 0x34 (D22). -/
  chunkOp : OpVariant := .main
  /-- `STATUS_OP`: 0x30 or 0x33 (D22). -/
  statusOp : OpVariant := .main
  /-- `STATUS_LEN`, at least 1 (D24). -/
  statusLen : Nat := 1
  /-- `MAX_IMAGE`, OPEN (D27). -/
  maxImage : Nat
deriving DecidableEq, Repr

/-- The length of the value in a Read reply: VALUE_BITS / 8 (R68). -/
def Params.valueLen (p : Params) : Nat := p.valueBits / 8

/-- The defaults of R4; SEQ_INIT is the vectors' 0x00 (DESIGN CHOICE, log 9), the other OPEN rows are opaque (log 8). -/
def Params.defaults : Params where
  seqInit := 0x00
  flushRespLen := Config.flushRespLen
  maxImage := Config.maxImage

/-- The build keeps the values the document gives: "that value is this hardware's value" (R4). The rows that are OPEN, or
to which R4 itself allows another value, are free. -/
class Params.Documented (p : Params) : Prop where
  seqBits : p.seqBits = 8
  addrBits : p.addrBits = 16
  addrLimit : p.addrLimit = 0xFFFF
  valueBits : p.valueBits = 32
  lenBits : p.lenBits = 16
  streamLenMax : p.streamLenMax = 0xFFFF
  echoLen : p.echoLen = 2
  ackLen : p.ackLen = 2
  opWrite : p.opWrite = 0x01
  opRead : p.opRead = 0x02
  opStreamWrite : p.opStreamWrite = 0x03
  opStreamRead : p.opStreamRead = 0x04
  opFlush : p.opFlush = 0xFF
  pollDelayMs : p.pollDelayMs = 5
  atrTs : p.atrTs = 0x3B
  atrMax : p.atrMax = 32
  prefixLen : p.prefixLen = 512
  mps : p.mps = 64
  chunk : p.chunk = 2048
  syncN : p.syncN = [0xAA, 0x99, 0x55, 0x66]
  syncR : p.syncR = [0x55, 0x99, 0xAA, 0x66]

end Sys2Proof
end

