-- ==== Sys2Proof/Syntax.lean ====
section
/-! DEFINITION. The instructions: one constructor per row of spec/opcode_table.json (R21, R69, R72, R79). -/

namespace Sys2Proof

/-- One constructor per row of the opcode table. The five frame rows carry the `seq` byte of the instruction word, which
has no effect on what the command does (R152, log 4). Range-checked arguments are natural numbers, so that an
out-of-range one can be written (R21, D5). The timeout of a command stands on the command port (log 5). -/
inductive Instr where
  /-- WRITE: `RB_WRITE(addr, value, t)` (R94), frame WR (R63). -/
  | write (seq : Byte) (addr : Nat) (value : Word)
  /-- READ: `RB_READ(addr, t)` (R93), frame RD (R62). -/
  | read (seq : Byte) (addr : Nat)
  /-- STREAM_WRITE: `RB_WRITE_STREAM(addr, data, t)` (R97), frame SW (R64). -/
  | streamWrite (seq : Byte) (addr : Nat) (data : Bytes)
  /-- STREAM_READ: `RB_READ_STREAM(addr, length, t)` (R96), frame SR (R65). -/
  | streamRead (seq : Byte) (addr : Nat) (length : Nat)
  /-- FLUSH: `RB_FLUSH(t)` (R98), frame FL (R66). -/
  | flush (seq : Byte)
  /-- CTRL_RESET: the reset control command, opcode 0x31 (R72, R127). -/
  | ctrlReset
  /-- CTRL_RESET_ALT: the reset control command, opcode 0x60 (R72, R127). -/
  | ctrlResetAlt
  /-- CTRL_SEND_CHUNK: the send-chunk control command, opcode 0x32 (R72, R129). -/
  | ctrlSendChunk
  /-- CTRL_SEND_CHUNK_ALT: the send-chunk control command, opcode 0x34 (R72, R129). -/
  | ctrlSendChunkAlt
  /-- CTRL_STATUS: the info/state control command, opcode 0x30 (R72, R131). -/
  | ctrlStatus
  /-- CTRL_STATUS_ALT: the info/state control command, opcode 0x33 (R72, R131). -/
  | ctrlStatusAlt
  /-- RB_WRITE_BATCH: `RB_WRITE_BATCH(pairs, t)` (R95). -/
  | rbWriteBatch (pairs : List (Nat × Word))
  /-- RB_RMW: `RB_RMW(addr, mask, value, t)` (R99). -/
  | rbRmw (addr : Nat) (mask value : Word)
  /-- RB_POLL: `RB_POLL(addr, mask, expected, t)` (R100). -/
  | rbPoll (addr : Nat) (mask expected : Word)
  /-- RB_REESTABLISH (R101). -/
  | rbReestablish
  /-- ATR_RECEIVE (R107). -/
  | atrReceive
  /-- BS_PROVISION: `BS_PROVISION(image, t)` (R121). -/
  | bsProvision (image : Bytes)
  /-- BS_REESTABLISH (R134). -/
  | bsReestablish
deriving DecidableEq, Repr

/-- The three kinds of control command the BSU sends (R72). -/
inductive ControlKind where
  | reset
  | sendChunk
  | status
deriving DecidableEq, Repr

/-- An instruction as the spec encodes it: a register-bus request frame (R59), or the opcode byte of a control command,
which is carried as the `op` argument of a port-C request (R72). A host command with no opcode of its own has no code. -/
inductive Code where
  | frame (bytes : Bytes)
  | control (op : Byte)
deriving DecidableEq, Repr

end Sys2Proof
end

