-- ==== Sys2Proof/WellFormed.lean ====
section
/-! DEFINITION. An instruction is well formed when every operand fits the field its encoding gives it (R62 to R66). An
ill-formed one is still a command the host can issue: it has no instruction word, and it raises InvalidParameter
(R86, R87, D5). -/

namespace Sys2Proof

/-- `addr` fits its field, 16 bits wide by default (R71). -/
def addrFits (p : Params) (addr : Nat) : Bool := addr < 2 ^ p.addrBits

/-- `len` fits its field, 16 bits wide by default (R71). -/
def lenFits (p : Params) (n : Nat) : Bool := n < 2 ^ p.lenBits

/-- Every operand fits its field. The rows without an encoding have no field to fit. -/
def Instr.wf (p : Params) : Instr → Bool
  | .write _ addr _ => addrFits p addr
  | .read _ addr => addrFits p addr
  | .streamWrite _ addr data => addrFits p addr && lenFits p data.length
  | .streamRead _ addr length => addrFits p addr && lenFits p length
  | .flush _ => true
  | .ctrlReset => true
  | .ctrlResetAlt => true
  | .ctrlSendChunk => true
  | .ctrlSendChunkAlt => true
  | .ctrlStatus => true
  | .ctrlStatusAlt => true
  | .rbWriteBatch _ => true
  | .rbRmw _ _ _ => true
  | .rbPoll _ _ _ => true
  | .rbReestablish => true
  | .atrReceive => true
  | .bsProvision _ => true
  | .bsReestablish => true

end Sys2Proof
end

