-- ==== Sys2Proof/Decode.lean ====
section
/-! DEFINITION. Byte order, the decoder (total on any bytes, rejecting by name) and the encoder, both written from
30_encoding.md (R59 to R72). -/

namespace Sys2Proof

/-! ### Byte order (R60, R61) -/

/-- `le16(x)`: the low byte first (R60). -/
def le16 (x : Nat) : Bytes := [BitVec.ofNat 8 x, BitVec.ofNat 8 (x / 256)]

/-- `from_le16([lo, hi])` (R60). -/
def fromLe16 (lo hi : Byte) : Nat := lo.toNat + 256 * hi.toNat

/-- `le32(x)`: the low byte first (R61). -/
def le32 (x : Word) : Bytes :=
  [x.extractLsb' 0 8, x.extractLsb' 8 8, x.extractLsb' 16 8, x.extractLsb' 24 8]

/-- `from_le32([b0, b1, b2, b3])` (R61). -/
def fromLe32 (b0 b1 b2 b3 : Byte) : Word :=
  BitVec.ofNat 32 (b0.toNat + 2 ^ 8 * b1.toNat + 2 ^ 16 * b2.toNat + 2 ^ 24 * b3.toNat)

/-! ### Control opcodes (R72) -/

/-- The opcode byte of a control command (R72). -/
def controlByte : ControlKind → OpVariant → Byte
  | .reset, .main => 0x31
  | .reset, .alt => 0x60
  | .sendChunk, .main => 0x32
  | .sendChunk, .alt => 0x34
  | .status, .main => 0x30
  | .status, .alt => 0x33

/-- The instruction of a control opcode's kind and variant. -/
def controlInstr : ControlKind → OpVariant → Instr
  | .reset, .main => .ctrlReset
  | .reset, .alt => .ctrlResetAlt
  | .sendChunk, .main => .ctrlSendChunk
  | .sendChunk, .alt => .ctrlSendChunkAlt
  | .status, .main => .ctrlStatus
  | .status, .alt => .ctrlStatusAlt

/-- What a control opcode byte selects; the other 250 byte values select nothing (R72). -/
def controlOf (op : Byte) : Option (ControlKind × OpVariant) :=
  if op = 0x31 then some (.reset, .main)
  else if op = 0x60 then some (.reset, .alt)
  else if op = 0x32 then some (.sendChunk, .main)
  else if op = 0x34 then some (.sendChunk, .alt)
  else if op = 0x30 then some (.status, .main)
  else if op = 0x33 then some (.status, .alt)
  else none

/-! ### The decoder -/

/-- Why a code spells no instruction. -/
inductive Reject where
  /-- The bytes end before the frame does (R59, R67). -/
  | tooShort
  /-- The byte at offset 1 is none of the five opcodes (R70). -/
  | noSuchOpcode (op : Byte)
  /-- Bytes stand after the frame's last one (R67). -/
  | trailingBytes
  /-- The byte is none of the six control opcodes (R72). -/
  | noSuchControl (op : Byte)
deriving DecidableEq, Repr

/-- The operands of format WR after the opcode byte (R63). -/
def decodeWrite (seq : Byte) : Bytes → Except Reject (Instr × Bytes)
  | a0 :: a1 :: v0 :: v1 :: v2 :: v3 :: rest =>
    .ok (.write seq (fromLe16 a0 a1) (fromLe32 v0 v1 v2 v3), rest)
  | _ => .error .tooShort

/-- The operands of format RD after the opcode byte (R62). -/
def decodeRead (seq : Byte) : Bytes → Except Reject (Instr × Bytes)
  | a0 :: a1 :: rest => .ok (.read seq (fromLe16 a0 a1), rest)
  | _ => .error .tooShort

/-- The operands of format SW after the opcode byte: the length field says how many payload bytes follow (R64, R67). -/
def decodeStreamWrite (seq : Byte) : Bytes → Except Reject (Instr × Bytes)
  | a0 :: a1 :: n0 :: n1 :: rest =>
    if fromLe16 n0 n1 ≤ rest.length then
      .ok (.streamWrite seq (fromLe16 a0 a1) (rest.take (fromLe16 n0 n1)), rest.drop (fromLe16 n0 n1))
    else .error .tooShort
  | _ => .error .tooShort

/-- The operands of format SR after the opcode byte (R65). -/
def decodeStreamRead (seq : Byte) : Bytes → Except Reject (Instr × Bytes)
  | a0 :: a1 :: n0 :: n1 :: rest => .ok (.streamRead seq (fromLe16 a0 a1) (fromLe16 n0 n1), rest)
  | _ => .error .tooShort

/-- Read one frame from the front of a byte sequence: the opcode at offset 1 alone selects the format (R59, R69), and the
251 other values are refused (R70). The frame's bytes are followed by what is left of the sequence. -/
def decodeFrame (p : Params) : Bytes → Except Reject (Instr × Bytes)
  | seq :: op :: rest =>
    if op = p.opWrite then decodeWrite seq rest
    else if op = p.opRead then decodeRead seq rest
    else if op = p.opStreamWrite then decodeStreamWrite seq rest
    else if op = p.opStreamRead then decodeStreamRead seq rest
    else if op = p.opFlush then .ok (.flush seq, rest)
    else .error (.noSuchOpcode op)
  | _ => .error .tooShort

/-- The instruction a code spells. A frame must be used up: it has no byte after its last one (R67, log 25). -/
def decode (p : Params) : Code → Except Reject Instr
  | .frame b =>
    match decodeFrame p b with
    | .ok (i, []) => .ok i
    | .ok (_, _ :: _) => .error .trailingBytes
    | .error e => .error e
  | .control op =>
    match controlOf op with
    | some (k, v) => .ok (controlInstr k v)
    | none => .error (.noSuchControl op)

/-! ### The encoder -/

/-- Format WR (R63). -/
def frameWrite (p : Params) (seq : Byte) (addr : Nat) (value : Word) : Bytes :=
  [seq, p.opWrite] ++ le16 addr ++ le32 value

/-- Format RD (R62). -/
def frameRead (p : Params) (seq : Byte) (addr : Nat) : Bytes := [seq, p.opRead] ++ le16 addr

/-- Format SW (R64). -/
def frameStreamWrite (p : Params) (seq : Byte) (addr : Nat) (data : Bytes) : Bytes :=
  [seq, p.opStreamWrite] ++ le16 addr ++ le16 data.length ++ data

/-- Format SR (R65). -/
def frameStreamRead (p : Params) (seq : Byte) (addr length : Nat) : Bytes :=
  [seq, p.opStreamRead] ++ le16 addr ++ le16 length

/-- Format FL (R66). -/
def frameFlush (p : Params) (seq : Byte) : Bytes := [seq, p.opFlush]

/-- The code of an instruction that has one: a frame or a control opcode byte. The host commands without an opcode have
none (R79). -/
def encode (p : Params) : Instr → Option Code
  | .write seq addr value => some (.frame (frameWrite p seq addr value))
  | .read seq addr => some (.frame (frameRead p seq addr))
  | .streamWrite seq addr data => some (.frame (frameStreamWrite p seq addr data))
  | .streamRead seq addr length => some (.frame (frameStreamRead p seq addr length))
  | .flush seq => some (.frame (frameFlush p seq))
  | .ctrlReset => some (.control (controlByte .reset .main))
  | .ctrlResetAlt => some (.control (controlByte .reset .alt))
  | .ctrlSendChunk => some (.control (controlByte .sendChunk .main))
  | .ctrlSendChunkAlt => some (.control (controlByte .sendChunk .alt))
  | .ctrlStatus => some (.control (controlByte .status .main))
  | .ctrlStatusAlt => some (.control (controlByte .status .alt))
  | .rbWriteBatch _ => none
  | .rbRmw _ _ _ => none
  | .rbPoll _ _ _ => none
  | .rbReestablish => none
  | .atrReceive => none
  | .bsProvision _ => none
  | .bsReestablish => none

/-! ### Request length, and the opcode table's numbering of bits -/

/-- `req_len(frame)`: a request's length from its first bytes (R67). -/
def reqLen (p : Params) : Bytes → Option Nat
  | _ :: op :: rest =>
    if op = p.opRead then some 4
    else if op = p.opWrite then some 8
    else if op = p.opStreamWrite then
      match rest with
      | _ :: _ :: n0 :: n1 :: _ => some (6 + fromLe16 n0 n1)
      | _ => none
    else if op = p.opStreamRead then some 6
    else if op = p.opFlush then some 2
    else none
  | _ => none

/-- The `k` bytes of a number the opcode table writes as one bit string in wire order: byte 0 stands first, in the
number's highest 8 bits (98_reader.md; the table's "encoding_order"; log 6). -/
def tableBytes : Nat → Nat → Bytes
  | 0, _ => []
  | k + 1, w => BitVec.ofNat 8 (w / 2 ^ (8 * k)) :: tableBytes k w

/-- The frame of a table word, with the bytes the table gives no bits to (stream payload) at zero. -/
def tableFrame (p : Params) (nbits w : Nat) : Bytes :=
  let b := tableBytes (nbits / 8) w
  b ++ zeros ((reqLen p (b ++ zeros 6)).getD 0 - b.length)

/-- The code of a table word: rows of one byte are control opcodes, wider rows are frames. -/
def tableCode (p : Params) (nbits w : Nat) : Code :=
  if nbits ≤ 8 then .control (BitVec.ofNat 8 w) else .frame (tableFrame p nbits w)

/-- The instruction the decoder reads from a table word, in a build with the defaults of R4. -/
def decodeTableWord (nbits w : Nat) : Option Instr :=
  match decode Params.defaults (tableCode Params.defaults nbits w) with
  | .ok i => some i
  | .error _ => none

end Sys2Proof
end

