-- ==== Sys2Proof/Machine/State.lean ====
section
/-! DEFINITION. The state of the block as plain data: every register of 10_state.md R23 to R37, the ports' traces and
results (R15, R16), the build-time parameters (R4), and the model's own fields (the environment's answers, the inputs).
Each unit is a record of its own, because no unit shares state with another (R1, R151). -/

namespace Sys2Proof.Machine

/-! ### Errors and results (R15, R137, R138) -/

/-- The four error kinds, and no other (R137). -/
inductive ErrKind where
  | invalidParameter
  | timeout
  | protocolError
  | transferError
deriving DecidableEq, Repr

/-- The subcauses of R138; each belongs to one kind. -/
inductive Subcause where
  | ipAddr | ipLen
  | toSend | toRecv | toCtrl
  | peLen | peEcho | peAtrTs | peAtrMalformed | peAtrRecv | peSync | peChunkLen | peStatusShort | peNotConfigured
  | teSend | teRecv | teCtrl
deriving DecidableEq, Repr

/-- The payload of an `Ok` result (R21). -/
inductive Payload where
  | none
  | word (v : Word)
  | bytes (b : Bytes)
  | bool (b : Bool)
deriving DecidableEq, Repr

/-- What a unit answers a command with, exactly once (R15). The kind of an error follows from its subcause (R138). -/
inductive Result where
  | ok (v : Payload)
  | err (e : Subcause)
deriving DecidableEq, Repr

/-! ### Port outcomes and events (R16 to R19) -/

/-- The outcome of `TSend` (R17). -/
inductive SendOutcome where
  | sent
  | timeout
  | transferError
deriving DecidableEq, Repr

/-- The outcome of `TRecv(n, t)`: `bytes b` with `len(b) = n`, `short b` with `len(b) < n` (R17). -/
inductive RecvOutcome where
  | bytes (b : Bytes)
  | short (b : Bytes)
  | timeout
  | transferError
deriving DecidableEq, Repr

/-- The outcome of `Tick(t)` (R17). -/
inductive TickOutcome where
  | continue
  | expired
deriving DecidableEq, Repr

/-- What the environment answers on port T. -/
inductive TAnswer where
  | send (o : SendOutcome)
  | recv (o : RecvOutcome)
  | tick (o : TickOutcome)
deriving DecidableEq, Repr

/-- An event of port T: a request and its outcome (R16, R17). -/
inductive TEvent where
  | send (req : Bytes) (t : Timeout) (o : SendOutcome)
  | recv (n : Nat) (t : Timeout) (o : RecvOutcome)
  | tick (t : Timeout) (o : TickOutcome)
deriving DecidableEq, Repr

/-- What the environment answers `ARecv(n)` with: `bytes b` with `len(b) = n`, or `fail` (R18). -/
inductive AAnswer where
  | bytes (b : Bytes)
  | fail
deriving DecidableEq, Repr

/-- An event of port A: `ARecv(n)` and its outcome (R18). -/
structure AEvent where
  n : Nat
  o : AAnswer
deriving DecidableEq, Repr

/-- The outcome of `CWrite`: the acknowledged transferred length, or a failure (R19). -/
inductive WriteOutcome where
  | transferred (m : Nat)
  | timeout
  | transferError
deriving DecidableEq, Repr

/-- The outcome of `CRead(.., n, ..)`: `bytes b` with `len(b) <= n`, or a failure (R19). -/
inductive ReadOutcome where
  | bytes (b : Bytes)
  | timeout
  | transferError
deriving DecidableEq, Repr

/-- What the environment answers on port C. -/
inductive CAnswer where
  | write (o : WriteOutcome)
  | read (o : ReadOutcome)
deriving DecidableEq, Repr

/-- An event of port C: a request and its outcome (R16, R19). -/
inductive CEvent where
  | write (op : Byte) (value index : BitVec 16) (data : Bytes) (t : Timeout) (o : WriteOutcome)
  | read (op : Byte) (value index : BitVec 16) (n : Nat) (t : Timeout) (o : ReadOutcome)
deriving DecidableEq, Repr

/-! ### Unit-local memory -/

/-- A unit-local buffer: (offset, byte) cells. Its one canonical form is `Memory.wf`. An unlisted offset holds no value
(R40, log 11). -/
abbrev Memory := List Host.Cell

/-- The canonical form: strictly rising offsets. -/
abbrev Memory.wf (m : Memory) : Prop := List.Pairwise (fun x y => x.1 < y.1) m

/-! ### The Register Bus Unit (R23 to R25) -/

/-- What RBU does with a whole reply: the rest of the command whose transfer is in progress (R93 to R100, log 23). -/
inductive AfterReply where
  /-- RB_READ: decode the value (R93). -/
  | value
  /-- RB_WRITE and RB_WRITE_STREAM: check the ack's length (R94, R97). -/
  | ack
  /-- RB_WRITE_BATCH: the acks are ignored (R95). -/
  | acks
  /-- RB_READ_STREAM: split off the payload (R96). -/
  | payload (length : Nat)
  /-- RB_FLUSH: the reply is ignored (R98). -/
  | ignore
  /-- RB_RMW after its read: write the new value (R99). -/
  | rmw (addr : Nat) (mask value : Word)
  /-- RB_POLL after a read: compare, and poll again if it does not match (R100). -/
  | poll (addr : Nat) (mask expected : Word)
deriving DecidableEq, Repr

/-- One transfer `xfer(req, n, t)` (R92) and what follows it. -/
structure Xfer where
  req : Bytes
  n : Nat
  t : Timeout
  after : AfterReply
deriving DecidableEq, Repr

/-- The request a busy RBU waits on. -/
inductive RbuWait where
  /-- `TSend(x.req, x.t)` is outstanding. -/
  | send (x : Xfer)
  /-- `TRecv(x.n, x.t)` is outstanding. -/
  | recv (x : Xfer)
  /-- `Tick(t)` of an RB_POLL is outstanding. -/
  | tick (addr : Nat) (mask expected : Word) (t : Timeout)
deriving DecidableEq, Repr

/-- `RBU_STATE` (R25). While Busy it holds the operation in progress: the model's own way to keep a command's local
variables (log 23). -/
inductive RbuState where
  | idle
  | busy (w : RbuWait)
deriving DecidableEq, Repr

/-- The Register Bus Unit. -/
structure Rbu where
  /-- `SEQ` (R23). -/
  seq : Byte
  /-- `LINK_OK` (R24). -/
  linkOk : Bool
  /-- `RBU_STATE` (R25). -/
  state : RbuState
  /-- The outcomes the environment has ready on port T, oldest first (log 2). -/
  answers : List TAnswer
  /-- The events of port T, oldest first (R16). -/
  trace : List TEvent
  /-- The results delivered on RBU's command port, oldest first (R15). -/
  results : List Result
deriving DecidableEq, Repr

/-! ### The ATR Parser Unit (R26 to R31) -/

/-- `ATU_STATE` (R26). -/
inductive AtuState where
  | idle
  | expectInitial
  | expectInterfaceChain
  | expectHistorical
  | expectCheckByte
  | done
  | failed (e : Subcause)
deriving DecidableEq, Repr

/-- The ATR Parser Unit. -/
structure Atu where
  /-- `ATU_STATE` (R26). -/
  state : AtuState
  /-- `ATR_BUF` (R27). -/
  buf : Memory
  /-- `ATR_CONSUMED`, 0 to 32 (R28). -/
  consumed : Nat
  /-- `ATR_K` (R29). -/
  k : BitVec 4
  /-- `ATR_TDX` (R30). -/
  tdx : Byte
  /-- `ATR_NEEDS_CHECK` (R31). -/
  needsCheck : Bool
  /-- The outcomes the environment has ready on port A, oldest first (log 2). -/
  answers : List AAnswer
  /-- The events of port A, oldest first (R16). -/
  trace : List AEvent
  /-- The results delivered on ATU's command port, oldest first (R15). -/
  results : List Result
deriving DecidableEq, Repr

/-! ### The Bitstream Sequencer Unit (R32 to R37) -/

/-- `BSU_STATE` (R32). -/
inductive BsuState where
  | idle
  | detect
  | pad
  | resetCmd
  | sendChunk
  | status
  | done
  | failed (e : Subcause)
deriving DecidableEq, Repr

/-- The Bitstream Sequencer Unit. -/
structure Bsu where
  /-- `BSU_STATE` (R32). -/
  state : BsuState
  /-- `BSU_BUF` (R33). -/
  buf : Memory
  /-- `BSU_LEN` (R33). -/
  len : Nat
  /-- `BSU_REVERSED` (R34). -/
  reversed : Bool
  /-- `BSU_PADDED` (R35). -/
  padded : Bool
  /-- `BSU_CHUNK_IDX` (R36). -/
  chunkIdx : Nat
  /-- `CTRL_OK` (R37). -/
  ctrlOk : Bool
  /-- The argument `t` of the BS_PROVISION in progress (R121, log 23). -/
  timeout : Timeout
  /-- The outcomes the environment has ready on port C, oldest first (log 2). -/
  answers : List CAnswer
  /-- The events of port C, oldest first (R16). -/
  trace : List CEvent
  /-- The results delivered on BSU's command port, oldest first (R15). -/
  results : List Result
deriving DecidableEq, Repr

/-! ### Inputs from outside -/

/-- A command on a unit's command port (R15): given by its frame, or by its name and arguments. -/
inductive Command where
  | code (bytes : Bytes)
  | host (i : Instr)
deriving DecidableEq, Repr

/-- One thing that comes from outside (log 16, log 19). -/
inductive Input where
  /-- The host issues a command with timeout `t` (R15, R21). -/
  | command (c : Command) (t : Timeout)
  /-- The BSU takes the control command its state selects (R127, R129, R131). -/
  | control
  /-- An outcome arrives on port T, A or C (R16). -/
  | answerT (o : TAnswer)
  | answerA (o : AAnswer)
  | answerC (o : CAnswer)
  /-- The reset event, perhaps during a command (R155, R159). -/
  | reset
deriving DecidableEq, Repr

/-- The three units with a command port (R15). -/
inductive UnitId where
  | rbu
  | atu
  | bsu
deriving DecidableEq, Repr

/-- Why a command was refused (R145). -/
inductive TurnedAway where
  /-- The unit's sequencing state is not Idle (R22). -/
  | busy (u : UnitId)
  /-- LINK_OK = 0 (R24). -/
  | linkDown
  /-- CTRL_OK = 0 (R37). -/
  | controlDown
deriving DecidableEq, Repr

/-! ### Fault and refusal -/

/-- Why a step stops with a fault. The spec says no rule reaches either one. -/
inductive Fault where
  /-- Raised by a read of a buffer byte that nothing has written (R40; `memRead`). Safe: the model stops. -/
  | unwrittenByte
  /-- Raised by a write beyond a buffer's capacity (R27, R33; `memWrite`). Safe: the model stops. -/
  | outsideBuffer
deriving DecidableEq, Repr

/-- Why a step is refused. -/
inductive Refusal where
  /-- Raised by `exec` for an instruction without a meaning. Safe. No arm uses it. -/
  | notModelled (mnemonic : String)
  /-- Raised by every command when R22, R24 or R37 refuses it. Safe: the spec's own refusal, "a model outcome" (R22). -/
  | turnedAway (w : TurnedAway)
  /-- Raised by `step` on a code that spells no instruction (R70, R80). Safe. -/
  | spellsNoInstruction (why : Reject)
  /-- Raised by `step` when a control command is presented on a command port, which has no such command (R21). Safe. -/
  | notAHostCommand
  /-- Raised by a control command that BSU_STATE or the opcode parameter does not select (R72, R127 to R131). Safe. -/
  | controlNotSelected
deriving DecidableEq, Repr

/-! ### The state -/

/-- The state of the block and of its ports. -/
structure State where
  /-- The build-time parameters; no step writes them (R4, R38). -/
  params : Params
  rbu : Rbu
  atu : Atu
  bsu : Bsu
  /-- The timeout argument on the command port (R21, log 5). -/
  cmdTimeout : Timeout
  /-- What comes from outside, in order (log 16). -/
  inputs : List Input
  /-- The marks of the refused commands, oldest first (R145, log 14). -/
  refused : List TurnedAway
deriving DecidableEq, Repr

/-- A unit state right after reset, for any parameters (R39, R157). ATR_K and ATR_TDX, unspecified in the spec, are 0
(DESIGN CHOICE, log 10); no byte of a buffer is written (R40). -/
def State.resetWith (p : Params) : State where
  params := p
  rbu := { seq := p.seqInit, linkOk := true, state := .idle, answers := [], trace := [], results := [] }
  atu := { state := .idle, buf := [], consumed := 0, k := 0, tdx := 0, needsCheck := false,
           answers := [], trace := [], results := [] }
  bsu := { state := .idle, buf := [], len := 0, reversed := false, padded := false, chunkIdx := 0, ctrlOk := true,
           timeout := 0, answers := [], trace := [], results := [] }
  cmdTimeout := 0
  inputs := []
  refused := []

/-- The block right after reset with the default parameters (R39, R157). -/
def State.reset : State := State.resetWith Params.defaults

end Sys2Proof.Machine
end

