-- ==== Sys2Proof/Machine/Ops.lean ====
section
/-! DEFINITION. The named operations the meanings share: reads and writes of the unit-local buffers, port events,
delivering a result, raising an error (R142: the block's one counterpart of taking an exception; R143: there is no handler
and no return), accepting a command (R22), and the reset of each unit's registers (R157). -/

namespace Sys2Proof.Machine

/-- The three outcomes over this model's reasons. -/
abbrev Res (σ : Type) := Host.Outcome σ Fault Refusal

/-- Go on with `f` after a next state; a fault or refusal stops. -/
def andThen {σ τ : Type} (o : Res σ) (f : σ → Res τ) : Res τ :=
  match o with
  | .next s => f s
  | .fault r => .fault r
  | .refused r => .refused r

/-! ### Unit-local buffers (R7: MemRead, MemWrite) -/

/-- The byte at an offset; an unwritten one holds no value (R40). -/
def Memory.read : Memory → Nat → Option Byte
  | [], _ => none
  | (k, v) :: m, a => if a = k then some v else Memory.read m a

/-- Write one byte, keeping the offsets strictly rising. -/
def Memory.write : Memory → Nat → Byte → Memory
  | [], a, b => [(a, b)]
  | (k, v) :: m, a, b =>
    if a < k then (a, b) :: (k, v) :: m
    else if a = k then (a, b) :: m
    else (k, v) :: Memory.write m a b

/-- `buf[a..a+n)`, where every byte of it was written. -/
def Memory.readN (m : Memory) : Nat → Nat → Option Bytes
  | _, 0 => some []
  | a, n + 1 =>
    match Memory.read m a, Memory.readN m (a + 1) n with
    | some b, some bs => some (b :: bs)
    | _, _ => none

/-- Write the bytes `bs` at offset `a`, the first one lowest. -/
def Memory.writeN : Memory → Nat → Bytes → Memory
  | m, _, [] => m
  | m, a, b :: bs => Memory.writeN (Memory.write m a b) (a + 1) bs

/-- A buffer that holds exactly the bytes `bs`, from offset `a` on. -/
def Memory.ofBytes : Nat → Bytes → Memory
  | _, [] => []
  | a, b :: bs => (a, b) :: Memory.ofBytes (a + 1) bs

/-- `Memory.readN` in one pass over a buffer in its canonical form; equal to it on every buffer (`Memory.scan_eq`). -/
def Memory.scan : Memory → Nat → Nat → Option Bytes
  | _, _, 0 => some []
  | [], _, _ + 1 => none
  | (k, v) :: m, a, n + 1 =>
    if k < a then Memory.scan m a (n + 1)
    else if k = a then (Memory.scan m (a + 1) n).map (v :: ·)
    else Memory.readN ((k, v) :: m) a (n + 1)

/-- `Memory.writeN` in one pass, where it replaces bytes or appends; equal to it on every buffer (`Memory.store_eq`). -/
def Memory.store : Memory → Nat → Bytes → Memory
  | m, _, [] => m
  | [], a, b :: bs => Memory.ofBytes a (b :: bs)
  | (k, v) :: m, a, b :: bs =>
    if k < a then (k, v) :: Memory.store m a (b :: bs)
    else if k = a then (a, b) :: Memory.store m (a + 1) bs
    else Memory.writeN ((k, v) :: m) a (b :: bs)

/-- `MemRead(buf, a, n)` (R7). A byte read before it was written faults (R40). -/
def memRead (m : Memory) (a n : Nat) : Res Bytes :=
  match m.scan a n with
  | some b => .next b
  | none => .fault .unwrittenByte

/-- `MemWrite(buf, a, len(bs), bs)` (R7) into a buffer of `capacity` bytes; beyond it there is no byte to write. -/
def memWrite (capacity : Nat) (m : Memory) (a : Nat) (bs : Bytes) : Res Memory :=
  if a + bs.length ≤ capacity then .next (m.store a bs) else .fault .outsideBuffer

/-! ### RBU -/

/-- Record an event of port T, whose outcome was the next answer (R16). -/
def Rbu.event (e : TEvent) (rest : List TAnswer) (r : Rbu) : Rbu :=
  { r with answers := rest, trace := r.trace ++ [e] }

/-- Deliver the result on the command port; RBU_STATE becomes Idle (R103, R142). -/
def Rbu.deliver (v : Result) (r : Rbu) : Rbu := { r with state := .idle, results := r.results ++ [v] }

/-- `raise E`: the command ends with the error; registers already written keep their values (R7, R142). -/
def Rbu.raise (e : Subcause) (r : Rbu) : Rbu := r.deliver (.err e)

/-- Wait for the outcome of a request; RBU_STATE is Busy (R25). -/
def Rbu.await (w : RbuWait) (r : Rbu) : Rbu := { r with state := .busy w }

/-- SEQ after `n` frames: the counter wraps at 2^SEQ_BITS (R4, R91). -/
def seqAfter (p : Params) (seq : Byte) (n : Nat) : Byte := BitVec.ofNat 8 ((seq.toNat + n) % 2 ^ p.seqBits)

/-- The register side of `alloc_seq()`: SEQ advances once for a frame built (R91). -/
def Rbu.bumpSeq (p : Params) (r : Rbu) : Rbu := { r with seq := seqAfter p r.seq 1 }

/-- RBU's registers at their reset values (R157); an operation in progress is abandoned with no result (R159). The port's
answers and the logs are not registers (log 17). -/
def Rbu.resetRegs (p : Params) (r : Rbu) : Rbu := { r with seq := p.seqInit, linkOk := true, state := .idle }

/-! ### ATU -/

/-- Record an event of port A (R16). -/
def Atu.event (e : AEvent) (rest : List AAnswer) (a : Atu) : Atu :=
  { a with answers := rest, trace := a.trace ++ [e] }

/-- Deliver the result on the command port; ATU_STATE becomes Idle (R116, R117, R142). -/
def Atu.deliver (v : Result) (a : Atu) : Atu := { a with state := .idle, results := a.results ++ [v] }

/-- Rules R116 and R117: in `Done` deliver the bytes consumed, in `Failed` raise the error; ATU_STATE becomes Idle in the
same step (R26). -/
def Atu.complete (a : Atu) : Res Atu :=
  match a.state with
  | .done =>
    andThen (memRead a.buf 0 a.consumed) fun b => .next (a.deliver (.ok (.bytes b)))
  | .failed e => .next (a.deliver (.err e))
  | _ => .next a

/-- ATU_STATE becomes `Failed(e)`, which raises the error (R117). -/
def Atu.fail (e : Subcause) (a : Atu) : Res Atu := Atu.complete { a with state := .failed e }

/-- `append(b)` of 42_atr_parser.md: store the bytes after those consumed. -/
def Atu.append (p : Params) (b : Bytes) (a : Atu) : Res Atu :=
  andThen (memWrite p.atrMax a.buf a.consumed b) fun m =>
    .next { a with buf := m, consumed := a.consumed + b.length }

/-- `room()` of 42_atr_parser.md: the remaining buffer capacity. -/
def Atu.room (p : Params) (a : Atu) : Nat := p.atrMax - a.consumed

/-- ATU's registers at their reset values (R157, R159, log 10, log 17). -/
def Atu.resetRegs (a : Atu) : Atu :=
  { a with state := .idle, buf := [], consumed := 0, k := 0, tdx := 0, needsCheck := false }

/-! ### BSU -/

/-- Record an event of port C (R16). -/
def Bsu.event (e : CEvent) (rest : List CAnswer) (b : Bsu) : Bsu :=
  { b with answers := rest, trace := b.trace ++ [e] }

/-- Deliver the result on the command port; BSU_STATE becomes Idle (R133, R142). -/
def Bsu.deliver (v : Result) (b : Bsu) : Bsu := { b with state := .idle, results := b.results ++ [v] }

/-- Rule R133: in `Done` return Ok, in `Failed` the raised error; BSU_STATE becomes Idle in the same step (R32). -/
def Bsu.complete (b : Bsu) : Bsu :=
  match b.state with
  | .done => b.deliver (.ok .none)
  | .failed e => b.deliver (.err e)
  | _ => b

/-- `raise E`: BSU_STATE becomes Failed (R121), which completes the command (R133). -/
def Bsu.raise (e : Subcause) (b : Bsu) : Bsu := Bsu.complete { b with state := .failed e }

/-- The capacity of BSU_BUF (R33). -/
def bsuCapacity (p : Params) : Nat := p.prefixLen + p.maxImage + 1

/-- BSU's registers at their reset values (R157, R159, log 17). -/
def Bsu.resetRegs (b : Bsu) : Bsu :=
  { b with state := .idle, buf := [], len := 0, reversed := false, padded := false, chunkIdx := 0, ctrlOk := true,
           timeout := 0 }

/-! ### Commands and the whole state -/

/-- Put a unit's outcome back into the state; the other units are untouched (R1). -/
def State.onRbu (s : State) (o : Res Rbu) : Res State := andThen o fun r => .next { s with rbu := r }
/-- See `State.onRbu`. -/
def State.onAtu (s : State) (o : Res Atu) : Res State := andThen o fun a => .next { s with atu := a }
/-- See `State.onRbu`. -/
def State.onBsu (s : State) (o : Res Bsu) : Res State := andThen o fun b => .next { s with bsu := b }

/-- A refused command leaves every register unchanged and delivers no result; the model marks it (R22, R145, log 14). Any
other outcome stands. -/
def markRefused (s : State) (o : Res State) : Res State :=
  match o with
  | .refused (.turnedAway w) => .next { s with refused := s.refused ++ [w] }
  | .refused r => .refused r
  | .fault f => .fault f
  | .next t => .next t

/-- The reset event: every register of every unit takes its reset value, the commands in progress are abandoned (R155 to
R157, R159). -/
def State.resetRegs (s : State) : State :=
  { s with rbu := s.rbu.resetRegs s.params, atu := s.atu.resetRegs, bsu := s.bsu.resetRegs }

/-- The instructions that are commands of a command port (R21): all but the BSU's own control commands. -/
def isHostCommand : Instr → Bool
  | .ctrlReset => false
  | .ctrlResetAlt => false
  | .ctrlSendChunk => false
  | .ctrlSendChunkAlt => false
  | .ctrlStatus => false
  | .ctrlStatusAlt => false
  | .write _ _ _ => true
  | .read _ _ => true
  | .streamWrite _ _ _ => true
  | .streamRead _ _ _ => true
  | .flush _ => true
  | .rbWriteBatch _ => true
  | .rbRmw _ _ _ => true
  | .rbPoll _ _ _ => true
  | .rbReestablish => true
  | .atrReceive => true
  | .bsProvision _ => true
  | .bsReestablish => true

/-- The instruction a command stands for (R15, R21, R70). -/
def Command.instr (p : Params) : Command → Res Instr
  | .code b =>
    match decode p (.frame b) with
    | .ok i => .next i
    | .error e => .refused (.spellsNoInstruction e)
  | .host i => if isHostCommand i then .next i else .refused .notAHostCommand

end Sys2Proof.Machine
end

