-- ==== Sys2Proof/Machine/Operands.lean ====
section
/-! DEFINITION. Argument checks, fields of bytes, which outcomes a request allows, the echo predicate, and the numeric
codes of results. -/

namespace Sys2Proof.Machine

/-- `valid_addr(a)` (R86). -/
def validAddr (p : Params) (a : Nat) : Bool := a < p.addrLimit

/-- `valid_len(n)` (R87). -/
def validLen (p : Params) (n : Nat) : Bool := n ≤ p.streamLenMax

/-! ### Byte fields (R5, R7) -/

/-- `b[3:0]` (R5). -/
def lowNibble (b : Byte) : BitVec 4 := b.extractLsb' 0 4

/-- `b[7:4]` (R5). -/
def highNibble (b : Byte) : BitVec 4 := b.extractLsb' 4 4

/-- `popcount4(x)`: the number of bits set in `x[3:0]` (R7). -/
def popcount4 (x : BitVec 4) : Nat :=
  (x.getLsbD 0).toNat + (x.getLsbD 1).toNat + (x.getLsbD 2).toNat + (x.getLsbD 3).toNat

/-- `bitrev8(x)`: bit i of the result is `x[7-i]` (R7). -/
def bitrev8 (x : Byte) : Byte :=
  BitVec.ofNat 8 ((x.getLsbD 7).toNat + 2 * (x.getLsbD 6).toNat + 4 * (x.getLsbD 5).toNat + 8 * (x.getLsbD 4).toNat +
    16 * (x.getLsbD 3).toNat + 32 * (x.getLsbD 2).toNat + 64 * (x.getLsbD 1).toNat + 128 * (x.getLsbD 0).toNat)

/-! ### The outcomes a request allows (R17 to R19) -/

/-- The outcomes of `TRecv(n, t)`: exactly `n` bytes, or a short reply of fewer, or a failure (R17). -/
def RecvOutcome.allowed (n : Nat) : RecvOutcome → Bool
  | .bytes b => b.length == n
  | .short b => b.length < n
  | .timeout => true
  | .transferError => true

/-- The outcomes of `ARecv(n)`: exactly `n` bytes, or a failure (R18). -/
def AAnswer.allowed (n : Nat) : AAnswer → Bool
  | .bytes b => b.length == n
  | .fail => true

/-- The outcomes of `CRead(.., n, ..)`: up to `n` bytes, or a failure (R19). -/
def ReadOutcome.allowed (n : Nat) : ReadOutcome → Bool
  | .bytes b => b.length ≤ n
  | .timeout => true
  | .transferError => true

/-! ### The echo predicate (R105) -/

/-- `ECHO_OK(req, echo)` (R105, D10). -/
def echoOk (p : Params) (req echo : Bytes) : Bool :=
  match p.echoRule with
  | .always => true
  | .header => echo == req.take p.echoLen
  | .other => Config.echoOther req echo

/-! ### Numeric codes (R138) -/

/-- The kind a subcause belongs to (R138). -/
def Subcause.kind : Subcause → ErrKind
  | .ipAddr | .ipLen => .invalidParameter
  | .toSend | .toRecv | .toCtrl => .timeout
  | .peLen | .peEcho | .peAtrTs | .peAtrMalformed | .peAtrRecv | .peSync | .peChunkLen | .peStatusShort
  | .peNotConfigured => .protocolError
  | .teSend | .teRecv | .teCtrl => .transferError

/-- The code of an error kind (R138). -/
def ErrKind.code : ErrKind → Byte
  | .invalidParameter => 0x1
  | .timeout => 0x2
  | .protocolError => 0x3
  | .transferError => 0x4

/-- The code of a subcause (R138). -/
def Subcause.code : Subcause → Byte
  | .ipAddr => 0x11
  | .ipLen => 0x12
  | .toSend => 0x21
  | .toRecv => 0x22
  | .toCtrl => 0x23
  | .peLen => 0x31
  | .peEcho => 0x32
  | .peAtrTs => 0x33
  | .peAtrMalformed => 0x34
  | .peAtrRecv => 0x35
  | .peSync => 0x36
  | .peChunkLen => 0x37
  | .peStatusShort => 0x38
  | .peNotConfigured => 0x39
  | .teSend => 0x41
  | .teRecv => 0x42
  | .teCtrl => 0x43

/-- The kind code of a result: 0x0 for Ok (R138). -/
def Result.kindCode : Result → Byte
  | .ok _ => 0x0
  | .err e => e.kind.code

/-- The subcause code of a result: 0x00 for Ok (R138). -/
def Result.subCode : Result → Byte
  | .ok _ => 0x00
  | .err e => e.code

end Sys2Proof.Machine
end

