-- ==== Sys2Proof/Machine/Flags.lean ====
section
/-! DEFINITION. The five flags of the block (R38): what sets and clears each, and the conditions that decide them. -/

namespace Sys2Proof.Machine

/-- `timeout_hit()`: a Timeout on port T clears LINK_OK (R102). -/
def Rbu.timeoutHit (r : Rbu) : Rbu := { r with linkOk := false }

/-- RB_REESTABLISH sets LINK_OK (R101). -/
def Rbu.relink (r : Rbu) : Rbu := { r with linkOk := true }

/-- A Timeout on port C clears CTRL_OK (R135). -/
def Bsu.timeoutHit (b : Bsu) : Bsu := { b with ctrlOk := false }

/-- BS_REESTABLISH sets CTRL_OK (R134). -/
def Bsu.relink (b : Bsu) : Bsu := { b with ctrlOk := true }

/-- ATR_TDX and ATR_NEEDS_CHECK after the group `g` (R112): if the previous TDx declared a TD byte, the group's last byte
is the new TDx, and a nonzero protocol number in it sets the flag, which is never cleared here; otherwise TDx becomes the
sentinel 0x00. -/
def Atu.chain (g : Bytes) (a : Atu) : Atu :=
  if a.tdx.getLsbD 7 then
    { a with tdx := g.getLastD 0, needsCheck := a.needsCheck || lowNibble (g.getLastD 0) != 0 }
  else
    { a with tdx := 0x00 }

/-- The bit-order decision (R125): the reversed marker stands at an earlier or equal offset, or alone. -/
def reversedFirst : Option Nat → Option Nat → Bool
  | _, none => false
  | none, some _ => true
  | some n, some r => r ≤ n

/-- The pad condition on the whole length (R126, C2). -/
def needsPad (p : Params) (len : Nat) : Bool := len % p.mps == 0

end Sys2Proof.Machine
end

