-- ==== Sys2Proof/Machine/AtrParser.lean ====
section
/-! DEFINITION. The ATR Parser Unit (42_atr_parser.md): one definition per sequencing state, and ATR_RECEIVE as the loop
over them (R107). Every request is decided from the bytes received so far, then the capacity is checked, then the request
is made, then the content is checked (R118). -/

namespace Sys2Proof.Machine

/-- `ARecv(n)` (R18): on the bytes go on with `k`, on `Fail` the command fails with PE_ATR_RECV (R117). If the next answer
is no outcome of this request the unit waits (log 3). -/
def Atu.receive (n : Nat) (k : Bytes → Atu → Res Atu) (a : Atu) : Res Atu :=
  match a.answers with
  | [] => .next a
  | o :: rest =>
    if o.allowed n then
      match o with
      | .bytes b => k b (a.event { n, o := .bytes b } rest)
      | .fail => (a.event { n, o := .fail } rest).fail .peAtrRecv
    else .next a

/-- `ExpectInitial` (R109): two bytes; the first must be ATR_TS, the second gives ATR_K and ATR_TDX. -/
def Atu.initial (p : Params) (a : Atu) : Res Atu :=
  a.receive 2 fun b a =>
    andThen (a.append p b) fun a =>
      if b.getD 0 0 = p.atrTs then
        .next { a with k := lowNibble (b.getD 1 0), tdx := b.getD 1 0, state := .expectInterfaceChain }
      else a.fail .peAtrTs

/-- The number of bytes of the next interface group (R110). -/
def Atu.groupLen (a : Atu) : Nat := popcount4 (highNibble a.tdx)

/-- `ExpectInterfaceChain` (R110 to R112): no bytes declared ends the chain; too many for the buffer fail; otherwise
receive the group and take the next TDx from it. -/
def Atu.interfaceChain (p : Params) (a : Atu) : Res Atu :=
  if a.groupLen = 0 then .next { a with state := .expectHistorical }
  else if a.room p < a.groupLen then a.fail .peAtrMalformed
  else a.receive a.groupLen fun g a => andThen (a.append p g) fun a => .next (a.chain g)

/-- `ExpectHistorical` (R113, R114): K bytes, stored and not interpreted; no request when K = 0. -/
def Atu.historical (p : Params) (a : Atu) : Res Atu :=
  if a.k = 0 then .next { a with state := .expectCheckByte }
  else if a.room p < a.k.toNat then a.fail .peAtrMalformed
  else a.receive a.k.toNat fun h a => andThen (a.append p h) fun a => .next { a with state := .expectCheckByte }

/-- `ExpectCheckByte` (R115): one byte if ATR_NEEDS_CHECK is set; it is stored, not verified (R120). -/
def Atu.checkByte (p : Params) (a : Atu) : Res Atu :=
  if a.needsCheck then
    if a.room p < 1 then a.fail .peAtrMalformed
    else a.receive 1 fun c a => andThen (a.append p c) fun a => Atu.complete { a with state := .done }
  else Atu.complete { a with state := .done }

/-- One turn of the loop of R107, by ATU_STATE. -/
def Atu.step (p : Params) (a : Atu) : Res Atu :=
  match a.state with
  | .idle => .next a
  | .expectInitial => a.initial p
  | .expectInterfaceChain => a.interfaceChain p
  | .expectHistorical => a.historical p
  | .expectCheckByte => a.checkByte p
  | .done => a.complete
  | .failed _ => a.complete

/-- Up to `fuel` turns of the loop. -/
def Atu.run (p : Params) : Nat → Atu → Res Atu
  | 0, a => .next a
  | fuel + 1, a => andThen (a.step p) (Atu.run p fuel)

/-- Go on as far as the answers reach. A turn takes an answer, or is one of the three that end the chain, skip the
historical bytes and skip the check byte. -/
def Atu.advance (p : Params) (a : Atu) : Res Atu := a.run p (a.answers.length + 3)

/-- Acceptance (R108): ATR_CONSUMED and ATR_NEEDS_CHECK become 0, no port event is made. -/
def Atu.start (a : Atu) : Atu := { a with consumed := 0, needsCheck := false, state := .expectInitial }

/-- An outcome arrives on port A. -/
def Atu.receiveAnswer (p : Params) (o : AAnswer) (a : Atu) : Res Atu := Atu.advance p { a with answers := a.answers ++ [o] }

/-- ATR_RECEIVE: accepted only when Idle (R22, R107, R108). -/
def execAtrReceive (s : State) : Res State :=
  match s.atu.state with
  | .idle => s.onAtu (s.atu.start.advance s.params)
  | _ => .refused (.turnedAway (.busy .atu))

end Sys2Proof.Machine
end

