-- ==== Sys2Proof/Machine/Bitstream.lean ====
section
/-! DEFINITION. The Bitstream Sequencer Unit (43_bitstream.md): load, detect, pad, then the control commands reset,
send-chunk and status, which are instructions of their own; BS_PROVISION runs them in the order of BSU_STATE (R121). -/

namespace Sys2Proof.Machine

/-! ### Control-channel requests (the helpers of 43_bitstream.md) -/

/-- `ctrl_write(op, data, t)`: on the acknowledged length go on with `k`; a Timeout clears CTRL_OK (R135). If the next
answer is no outcome of a CWrite the unit waits (log 3). -/
def Bsu.ctrlWrite (op : Byte) (data : Bytes) (k : Nat → Bsu → Bsu) (b : Bsu) : Bsu :=
  match b.answers with
  | .write o :: rest =>
    let b' := b.event (.write op (Config.ctrlValue op) (Config.ctrlIndex op) data b.timeout o) rest
    match o with
    | .transferred m => k m b'
    | .timeout => b'.timeoutHit.raise .toCtrl
    | .transferError => b'.raise .teCtrl
  | _ => b

/-- `ctrl_read(op, n, t)`: on the reply go on with `k`; a Timeout clears CTRL_OK (R135). -/
def Bsu.ctrlRead (op : Byte) (n : Nat) (k : Bytes → Bsu → Bsu) (b : Bsu) : Bsu :=
  match b.answers with
  | .read o :: rest =>
    if o.allowed n then
      let b' := b.event (.read op (Config.ctrlValue op) (Config.ctrlIndex op) n b.timeout o) rest
      match o with
      | .bytes st => k st b'
      | .timeout => b'.timeoutHit.raise .toCtrl
      | .transferError => b'.raise .teCtrl
    else b
  | _ => b

/-! ### Load, detect, pad -/

/-- Load (R122): an image longer than MAX_IMAGE raises IP_LEN and changes nothing else; otherwise the buffer is the prefix
and a copy of the image (R170). -/
def Bsu.load (p : Params) (image : Bytes) (t : Timeout) (b : Bsu) : Bsu :=
  if p.maxImage < image.length then b.raise .ipLen
  else
    { b with state := .detect
             buf := Memory.ofBytes 0 (zeros p.prefixLen ++ image)
             len := p.prefixLen + image.length
             reversed := false, padded := false, chunkIdx := 0, timeout := t }

/-- `find(buf, L, m)`: the least offset at which the marker stands, counted from `i` (R123). -/
def findMarker (marker : Bytes) : Nat → Bytes → Option Nat
  | _, [] => none
  | i, b :: bs => if marker.isPrefixOf (b :: bs) then some i else findMarker marker (i + 1) bs

/-- Detect (R123 to R125): search both markers in the whole unpadded buffer; none found fails; the reversed one first
reverses the bits of every byte. -/
def Bsu.detect (p : Params) (b : Bsu) : Res Bsu :=
  andThen (memRead b.buf 0 b.len) fun bytes =>
    let pN := findMarker p.syncN 0 bytes
    let pR := findMarker p.syncR 0 bytes
    if pN.isNone && pR.isNone then .next (b.raise .peSync)
    else if reversedFirst pN pR then
      andThen (memWrite (bsuCapacity p) b.buf 0 (bytes.map bitrev8)) fun m =>
        .next { b with buf := m, reversed := true, state := .pad }
    else .next { b with state := .pad }

/-- Pad (R126): one zero byte when the whole length is a multiple of MPS. -/
def Bsu.padStep (p : Params) (b : Bsu) : Res Bsu :=
  if needsPad p b.len then
    andThen (memWrite (bsuCapacity p) b.buf b.len [0x00]) fun m =>
      .next { b with buf := m, len := b.len + 1, padded := true, state := .resetCmd }
  else .next { b with state := .resetCmd }

/-! ### The control commands -/

/-- The reset command (R127): an empty payload; the acknowledged length is not checked (D25). -/
def Bsu.resetCommand (op : Byte) (b : Bsu) : Bsu :=
  b.ctrlWrite op [] fun _ b => { b with state := .sendChunk }

/-- `NCH`, the number of chunks (R128). -/
def chunkCount (p : Params) (len : Nat) : Nat := (len + (p.chunk - 1)) / p.chunk

/-- The length of chunk `j`: CHUNK, or what is left (R128). -/
def chunkLen (p : Params) (len j : Nat) : Nat := min ((j + 1) * p.chunk) len - j * p.chunk

/-- After a chunk: the next one, or the status read when all are sent (R121, R129). -/
def Bsu.nextChunk (p : Params) (b : Bsu) : Bsu :=
  if b.chunkIdx < chunkCount p b.len then b else { b with state := .status }

/-- Send one chunk and check its acknowledged length (R129). With no chunk left it goes on to the status read (R121). -/
def Bsu.sendChunk (p : Params) (op : Byte) (b : Bsu) : Res Bsu :=
  if b.chunkIdx < chunkCount p b.len then
    andThen (memRead b.buf (b.chunkIdx * p.chunk) (chunkLen p b.len b.chunkIdx)) fun c =>
      .next (b.ctrlWrite op c fun m b =>
        if m = c.length then Bsu.nextChunk p { b with chunkIdx := b.chunkIdx + 1 } else b.raise .peChunkLen)
  else .next { b with state := .status }

/-- The status read and its decision (R131, R132): byte 0 nonzero means configured (R73). -/
def Bsu.statusRead (p : Params) (op : Byte) (b : Bsu) : Bsu :=
  b.ctrlRead op p.statusLen fun st b =>
    match st with
    | [] => b.raise .peStatusShort
    | c :: _ => if c = 0x00 then b.raise .peNotConfigured else Bsu.complete { b with state := .done }

/-! ### The sequence -/

/-- One step of the sequence of R121, by BSU_STATE. -/
def Bsu.step (p : Params) (b : Bsu) : Res Bsu :=
  match b.state with
  | .idle => .next b
  | .detect => b.detect p
  | .pad => b.padStep p
  | .resetCmd => .next (b.resetCommand (controlByte .reset p.resetOp))
  | .sendChunk => b.sendChunk p (controlByte .sendChunk p.chunkOp)
  | .status => .next (b.statusRead p (controlByte .status p.statusOp))
  | .done => .next b.complete
  | .failed _ => .next b.complete

/-- Up to `fuel` steps of the sequence. -/
def Bsu.run (p : Params) : Nat → Bsu → Res Bsu
  | 0, b => .next b
  | fuel + 1, b => andThen (b.step p) (Bsu.run p fuel)

/-- Go on as far as the answers reach: a step takes an answer, or is detect, pad or the end of the chunks. -/
def Bsu.advance (p : Params) (b : Bsu) : Res Bsu := b.run p (b.answers.length + 3)

/-- An outcome arrives on port C. -/
def Bsu.receiveAnswer (p : Params) (o : CAnswer) (b : Bsu) : Res Bsu :=
  Bsu.advance p { b with answers := b.answers ++ [o] }

/-- The control command BSU_STATE selects, if any (R121). -/
def Bsu.selected (b : Bsu) : Option ControlKind :=
  match b.state with
  | .resetCmd => some .reset
  | .sendChunk => some .sendChunk
  | .status => some .status
  | .idle => none
  | .detect => none
  | .pad => none
  | .done => none
  | .failed _ => none

/-- The value the parameter of a control command takes (R72, D22). -/
def variantOf (p : Params) : ControlKind → OpVariant
  | .reset => p.resetOp
  | .sendChunk => p.chunkOp
  | .status => p.statusOp

/-- The code of the control command the BSU takes next, if its state selects one. -/
def Bsu.controlCode (p : Params) (b : Bsu) : Option Code :=
  match b.selected with
  | some k => some (.control (controlByte k (variantOf p k)))
  | none => none

/-- One control command, as the instruction the BSU takes when its state selects it and the block is built with that
opcode (R72, D22, log 15). It makes at most one request. -/
def Bsu.control (p : Params) (kind : ControlKind) (v : OpVariant) (b : Bsu) : Res Bsu :=
  if b.selected = some kind ∧ variantOf p kind = v then b.step p else .refused .controlNotSelected

/-! ### The meanings -/

/-- CTRL_RESET, opcode 0x31 (R127). -/
def execCtrlReset (s : State) : Res State := s.onBsu (s.bsu.control s.params .reset .main)
/-- CTRL_RESET_ALT, opcode 0x60 (R127). -/
def execCtrlResetAlt (s : State) : Res State := s.onBsu (s.bsu.control s.params .reset .alt)
/-- CTRL_SEND_CHUNK, opcode 0x32 (R129). -/
def execCtrlSendChunk (s : State) : Res State := s.onBsu (s.bsu.control s.params .sendChunk .main)
/-- CTRL_SEND_CHUNK_ALT, opcode 0x34 (R129). -/
def execCtrlSendChunkAlt (s : State) : Res State := s.onBsu (s.bsu.control s.params .sendChunk .alt)
/-- CTRL_STATUS, opcode 0x30 (R131, R132). -/
def execCtrlStatus (s : State) : Res State := s.onBsu (s.bsu.control s.params .status .main)
/-- CTRL_STATUS_ALT, opcode 0x33 (R131, R132). -/
def execCtrlStatusAlt (s : State) : Res State := s.onBsu (s.bsu.control s.params .status .alt)

/-- BS_PROVISION (R121): refused unless Idle and CTRL_OK = 1 (R22, R37); then load and go on as far as the answers
reach. -/
def execBsProvision (image : Bytes) (s : State) : Res State :=
  match s.bsu.state with
  | .idle =>
    if s.bsu.ctrlOk then s.onBsu ((s.bsu.load s.params image s.cmdTimeout).advance s.params)
    else .refused (.turnedAway .controlDown)
  | _ => .refused (.turnedAway (.busy .bsu))

/-- BS_REESTABLISH: accepted whenever Idle; sets CTRL_OK, makes no event (R134). -/
def execBsReestablish (s : State) : Res State :=
  match s.bsu.state with
  | .idle => .next { s with bsu := s.bsu.relink.deliver (.ok .none) }
  | _ => .refused (.turnedAway (.busy .bsu))

end Sys2Proof.Machine
end

