-- ==== Sys2Proof/Machine/FrameCodec.lean ====
section
/-! DEFINITION. The Frame Codec Unit: pure functions that encode request frames and check replies (40_frame_codec.md).
An error is given by its subcause. No function reads or writes a register. -/

namespace Sys2Proof.Machine

/-- `ENC_READ(seq, addr)` (R81). -/
def encRead (p : Params) (seq : Byte) (addr : Nat) : Except Subcause Bytes :=
  if validAddr p addr then .ok (frameRead p seq addr) else .error .ipAddr

/-- `ENC_WRITE(seq, addr, value)` (R82). -/
def encWrite (p : Params) (seq : Byte) (addr : Nat) (value : Word) : Except Subcause Bytes :=
  if validAddr p addr then .ok (frameWrite p seq addr value) else .error .ipAddr

/-- `ENC_STREAM_WRITE(seq, addr, data)`: the address is checked first (R83). -/
def encStreamWrite (p : Params) (seq : Byte) (addr : Nat) (data : Bytes) : Except Subcause Bytes :=
  if validAddr p addr then
    if validLen p data.length then .ok (frameStreamWrite p seq addr data) else .error .ipLen
  else .error .ipAddr

/-- `ENC_STREAM_READ(seq, addr, length)`: the address is checked first (R84). -/
def encStreamRead (p : Params) (seq : Byte) (addr length : Nat) : Except Subcause Bytes :=
  if validAddr p addr then
    if validLen p length then .ok (frameStreamRead p seq addr length) else .error .ipLen
  else .error .ipAddr

/-- `ENC_FLUSH(seq)` (R85). -/
def encFlush (p : Params) (seq : Byte) : Bytes := frameFlush p seq

/-- `DEC_READ_RESPONSE(b)`: exactly 4 bytes (R88). -/
def decReadResponse : Bytes → Except Subcause Word
  | [b0, b1, b2, b3] => .ok (fromLe32 b0 b1 b2 b3)
  | _ => .error .peLen

/-- `DEC_WRITE_ACK(b)`: exactly 2 bytes, whose content is ignored (R89). -/
def decWriteAck (p : Params) (b : Bytes) : Except Subcause Unit :=
  if b.length = p.ackLen then .ok () else .error .peLen

/-- `DEC_STREAM_READ_REPLY(b, n)`: the 2 echo bytes and the `n` payload bytes (R90). -/
def decStreamReadReply (p : Params) (b : Bytes) (n : Nat) : Except Subcause (Bytes × Bytes) :=
  if b.length = n + p.echoLen then .ok (b.take p.echoLen, b.drop p.echoLen) else .error .peLen

/-- The value in a whole Read reply: split off the echo, check it, decode (the last three lines of `read_body`, R93). -/
def decReadReply (p : Params) (req reply : Bytes) : Except Subcause Word :=
  match decStreamReadReply p reply p.valueLen with
  | .error e => .error e
  | .ok (echo, vb) => if echoOk p req echo then decReadResponse vb else .error .peEcho

/-- The payload in a whole StreamRead reply: split off the echo and check it (the last lines of RB_READ_STREAM, R96). -/
def decPayloadReply (p : Params) (req reply : Bytes) (length : Nat) : Except Subcause Bytes :=
  match decStreamReadReply p reply length with
  | .error e => .error e
  | .ok (echo, data) => if echoOk p req echo then .ok data else .error .peEcho

end Sys2Proof.Machine
end

