-- ==== Sys2Proof/Machine/RegisterBus.lean ====
section
/-! DEFINITION. The Register Bus Unit (41_register_bus.md). A command is accepted (R103), checks its arguments, builds its
frame, and then makes its port events one at a time (R92, R106). It goes on as far as the environment's answers reach; if
they run out it waits, Busy, on the outstanding request (log 1, log 2). -/

namespace Sys2Proof.Machine

/-! ### Building and sending frames -/

/-- `read_body` up to its request: check the address, take a sequence number, build the frame, send (R91, R93). -/
def Rbu.startRead (p : Params) (addr : Nat) (t : Timeout) (after : AfterReply) (r : Rbu) : Rbu :=
  match encRead p r.seq addr with
  | .error e => r.raise e
  | .ok req => (r.bumpSeq p).await (.send { req, n := p.echoLen + p.valueLen, t, after })

/-- `write_body` up to its request (R91, R94). -/
def Rbu.startWrite (p : Params) (addr : Nat) (value : Word) (t : Timeout) (r : Rbu) : Rbu :=
  match encWrite p r.seq addr value with
  | .error e => r.raise e
  | .ok req => (r.bumpSeq p).await (.send { req, n := p.ackLen, t, after := .ack })

/-- The frames of a batch, each with its own sequence number (R91, R95). -/
def batchFrames (p : Params) : Byte → List (Nat × Word) → Bytes
  | _, [] => []
  | seq, (a, v) :: pairs => frameWrite p seq a v ++ batchFrames p (seqAfter p seq 1) pairs

/-- RB_WRITE_BATCH up to its request: every address is checked before any frame is built; an empty batch makes no event
(R95). -/
def Rbu.startBatch (p : Params) (pairs : List (Nat × Word)) (t : Timeout) (r : Rbu) : Rbu :=
  if pairs.all fun q => validAddr p q.1 then
    match pairs with
    | [] => r.deliver (.ok .none)
    | _ :: _ =>
      Rbu.await
        (.send { req := batchFrames p r.seq pairs, n := p.ackLen * pairs.length, t, after := .acks })
        { r with seq := seqAfter p r.seq pairs.length }
  else r.raise .ipAddr

/-- RB_READ_STREAM up to its request (R96). -/
def Rbu.startStreamRead (p : Params) (addr length : Nat) (t : Timeout) (r : Rbu) : Rbu :=
  match encStreamRead p r.seq addr length with
  | .error e => r.raise e
  | .ok req => (r.bumpSeq p).await (.send { req, n := length + p.echoLen, t, after := .payload length })

/-- RB_WRITE_STREAM up to its request (R97). -/
def Rbu.startStreamWrite (p : Params) (addr : Nat) (data : Bytes) (t : Timeout) (r : Rbu) : Rbu :=
  match encStreamWrite p r.seq addr data with
  | .error e => r.raise e
  | .ok req => (r.bumpSeq p).await (.send { req, n := p.ackLen, t, after := .ack })

/-- RB_FLUSH up to its request; the reply has FLUSH_RESP_LEN bytes (R98). -/
def Rbu.startFlush (p : Params) (t : Timeout) (r : Rbu) : Rbu :=
  (r.bumpSeq p).await (.send { req := encFlush p r.seq, n := p.flushRespLen, t, after := .ignore })

/-- RB_POLL up to its first Tick (R100). -/
def Rbu.startPoll (p : Params) (addr : Nat) (mask expected : Word) (t : Timeout) (r : Rbu) : Rbu :=
  if validAddr p addr then r.await (.tick addr mask expected t) else r.raise .ipAddr

/-- The new value of a read-modify-write; `value` is not masked (R99, D15). -/
def rmwValue (old mask value : Word) : Word := (old &&& ~~~mask) ||| value

/-! ### Port outcomes -/

/-- What follows a whole reply (R93 to R100). An error of the read half of RB_RMW or RB_POLL ends the command. -/
def Rbu.onReply (p : Params) (x : Xfer) (reply : Bytes) (r : Rbu) : Rbu :=
  match x.after with
  | .value =>
    match decReadReply p x.req reply with
    | .error e => r.raise e
    | .ok v => r.deliver (.ok (.word v))
  | .ack =>
    match decWriteAck p reply with
    | .error e => r.raise e
    | .ok _ => r.deliver (.ok .none)
  | .acks => r.deliver (.ok .none)
  | .payload length =>
    match decPayloadReply p x.req reply length with
    | .error e => r.raise e
    | .ok b => r.deliver (.ok (.bytes b))
  | .ignore => r.deliver (.ok .none)
  | .rmw addr mask value =>
    match decReadReply p x.req reply with
    | .error e => r.raise e
    | .ok old => r.startWrite p addr (rmwValue old mask value) x.t
  | .poll addr mask expected =>
    match decReadReply p x.req reply with
    | .error e => r.raise e
    | .ok v =>
      if v &&& mask = expected then r.deliver (.ok (.bool true)) else r.await (.tick addr mask expected x.t)

/-- The outcome of `TSend` inside `xfer`; with a reply of no bytes there is no TRecv (R92). -/
def Rbu.onSend (p : Params) (x : Xfer) (o : SendOutcome) (r : Rbu) : Rbu :=
  match o with
  | .sent => if x.n = 0 then r.onReply p x [] else r.await (.recv x)
  | .timeout => r.timeoutHit.raise .toSend
  | .transferError => r.raise .teSend

/-- The outcome of `TRecv` inside `xfer` (R92). -/
def Rbu.onRecv (p : Params) (x : Xfer) (o : RecvOutcome) (r : Rbu) : Rbu :=
  match o with
  | .bytes b => r.onReply p x b
  | .short _ => r.raise .peLen
  | .timeout => r.timeoutHit.raise .toRecv
  | .transferError => r.raise .teRecv

/-- The outcome of `Tick` inside RB_POLL: expired ends it with `false`, which is no error (R100). -/
def Rbu.onTick (p : Params) (addr : Nat) (mask expected : Word) (t : Timeout) (o : TickOutcome) (r : Rbu) : Rbu :=
  match o with
  | .expired => r.deliver (.ok (.bool false))
  | .continue => r.startRead p addr t (.poll addr mask expected)

/-- One port event of a busy RBU, if the next answer is an outcome of the outstanding request; otherwise it waits
(R16, R17, log 3). -/
def Rbu.step (p : Params) (r : Rbu) : Rbu :=
  match r.state, r.answers with
  | .busy (.send x), .send o :: rest => (r.event (.send x.req x.t o) rest).onSend p x o
  | .busy (.recv x), .recv o :: rest =>
    if o.allowed x.n then (r.event (.recv x.n x.t o) rest).onRecv p x o else r
  | .busy (.tick addr mask expected t), .tick o :: rest =>
    (r.event (.tick t o) rest).onTick p addr mask expected t o
  | _, _ => r

/-- Up to `fuel` port events. Each takes an answer, so as many as there are answers suffice. -/
def Rbu.run (p : Params) : Nat → Rbu → Rbu
  | 0, r => r
  | fuel + 1, r => Rbu.run p fuel (r.step p)

/-- Go on as far as the answers reach. -/
def Rbu.advance (p : Params) (r : Rbu) : Rbu := r.run p r.answers.length

/-- Acceptance of a command that needs the link (R22, R24, R103): refused unless Idle and LINK_OK = 1; then it starts and
goes on as far as the answers reach. -/
def Rbu.accept (p : Params) (start : Rbu → Rbu) (r : Rbu) : Res Rbu :=
  match r.state with
  | .busy _ => .refused (.turnedAway (.busy .rbu))
  | .idle => if r.linkOk then .next ((start r).advance p) else .refused (.turnedAway .linkDown)

/-- An outcome arrives on port T. -/
def Rbu.receiveAnswer (p : Params) (o : TAnswer) (r : Rbu) : Rbu :=
  Rbu.advance p { r with answers := r.answers ++ [o] }

/-! ### The meanings -/

/-- READ: `RB_READ(addr, t)` (R93). -/
def execRead (_seq : Byte) (addr : Nat) (s : State) : Res State :=
  s.onRbu (s.rbu.accept s.params (Rbu.startRead s.params addr s.cmdTimeout .value))

/-- WRITE: `RB_WRITE(addr, value, t)` (R94). -/
def execWrite (_seq : Byte) (addr : Nat) (value : Word) (s : State) : Res State :=
  s.onRbu (s.rbu.accept s.params (Rbu.startWrite s.params addr value s.cmdTimeout))

/-- STREAM_READ: `RB_READ_STREAM(addr, length, t)` (R96). -/
def execStreamRead (_seq : Byte) (addr length : Nat) (s : State) : Res State :=
  s.onRbu (s.rbu.accept s.params (Rbu.startStreamRead s.params addr length s.cmdTimeout))

/-- STREAM_WRITE: `RB_WRITE_STREAM(addr, data, t)` (R97). -/
def execStreamWrite (_seq : Byte) (addr : Nat) (data : Bytes) (s : State) : Res State :=
  s.onRbu (s.rbu.accept s.params (Rbu.startStreamWrite s.params addr data s.cmdTimeout))

/-- FLUSH: `RB_FLUSH(t)` (R98). No effect on order or on remote state (R56). -/
def execFlush (_seq : Byte) (s : State) : Res State :=
  s.onRbu (s.rbu.accept s.params (Rbu.startFlush s.params s.cmdTimeout))

/-- RB_WRITE_BATCH (R95). -/
def execRbWriteBatch (pairs : List (Nat × Word)) (s : State) : Res State :=
  s.onRbu (s.rbu.accept s.params (Rbu.startBatch s.params pairs s.cmdTimeout))

/-- RB_RMW: the read half, then the write half (R99). -/
def execRbRmw (addr : Nat) (mask value : Word) (s : State) : Res State :=
  s.onRbu (s.rbu.accept s.params (Rbu.startRead s.params addr s.cmdTimeout (.rmw addr mask value)))

/-- RB_POLL (R100). -/
def execRbPoll (addr : Nat) (mask expected : Word) (s : State) : Res State :=
  s.onRbu (s.rbu.accept s.params (Rbu.startPoll s.params addr mask expected s.cmdTimeout))

/-- RB_REESTABLISH: accepted whenever Idle, whatever LINK_OK holds; no event, SEQ unchanged (R101). -/
def execRbReestablish (s : State) : Res State :=
  match s.rbu.state with
  | .busy _ => .refused (.turnedAway (.busy .rbu))
  | .idle => .next { s with rbu := s.rbu.relink.deliver (.ok .none) }

end Sys2Proof.Machine
end

