-- ==== Sys2Proof/Machine/Dispatch.lean ====
section
/-! DEFINITION. One arm per instruction. -/

namespace Sys2Proof.Machine

/-- The meaning of an instruction: one arm per row of the opcode table. -/
def exec (i : Instr) (s : State) : Host.Outcome State Fault Refusal :=
  match i with
  | .write seq addr value => Sys2Proof.Machine.execWrite seq addr value s
  | .read seq addr => Sys2Proof.Machine.execRead seq addr s
  | .streamWrite seq addr data => Sys2Proof.Machine.execStreamWrite seq addr data s
  | .streamRead seq addr length => Sys2Proof.Machine.execStreamRead seq addr length s
  | .flush seq => Sys2Proof.Machine.execFlush seq s
  | .ctrlReset => Sys2Proof.Machine.execCtrlReset s
  | .ctrlResetAlt => Sys2Proof.Machine.execCtrlResetAlt s
  | .ctrlSendChunk => Sys2Proof.Machine.execCtrlSendChunk s
  | .ctrlSendChunkAlt => Sys2Proof.Machine.execCtrlSendChunkAlt s
  | .ctrlStatus => Sys2Proof.Machine.execCtrlStatus s
  | .ctrlStatusAlt => Sys2Proof.Machine.execCtrlStatusAlt s
  | .rbWriteBatch pairs => Sys2Proof.Machine.execRbWriteBatch pairs s
  | .rbRmw addr mask value => Sys2Proof.Machine.execRbRmw addr mask value s
  | .rbPoll addr mask expected => Sys2Proof.Machine.execRbPoll addr mask expected s
  | .rbReestablish => Sys2Proof.Machine.execRbReestablish s
  | .atrReceive => Sys2Proof.Machine.execAtrReceive s
  | .bsProvision image => Sys2Proof.Machine.execBsProvision image s
  | .bsReestablish => Sys2Proof.Machine.execBsReestablish s

end Sys2Proof.Machine
end

