-- ==== Sys2Proof/Machine/Fetch.lean ====
section
/-! DEFINITION. What one input does: how a command reaches its meaning, how the BSU takes its next control command, how an
arriving outcome is used, and the reset event (R15, R16, R155). Step.lean only calls these. -/

namespace Sys2Proof.Machine

/-- A command on a command port, with its timeout (R15, R21). Its instruction runs; a refused one is marked and leaves the
block unchanged (R22, R145, log 14). -/
def State.issue (c : Command) (t : Timeout) (s : State) : Res State :=
  markRefused s (andThen (c.instr s.params) fun i => exec i { s with cmdTimeout := t })

/-- The BSU takes the control command its state selects (R121, log 15); if it selects none, nothing happens. -/
def State.takeControl (s : State) : Res State :=
  match s.bsu.controlCode s.params with
  | none => .next s
  | some c =>
    match decode s.params c with
    | .ok i => exec i s
    | .error e => .refused (.spellsNoInstruction e)

/-- One input from outside. -/
def State.take (x : Input) (s : State) : Res State :=
  match x with
  | .command c t => s.issue c t
  | .control => s.takeControl
  | .answerT o => .next { s with rbu := s.rbu.receiveAnswer s.params o }
  | .answerA o => s.onAtu (s.atu.receiveAnswer s.params o)
  | .answerC o => s.onBsu (s.bsu.receiveAnswer s.params o)
  | .reset => .next s.resetRegs

/-- `p` with the opcode parameter of a control command at a value (R72). -/
def withVariant (p : Params) : ControlKind → OpVariant → Params
  | .reset, v => { p with resetOp := v }
  | .sendChunk, v => { p with chunkOp := v }
  | .status, v => { p with statusOp := v }

/-- BSU in the middle of an upload, where its next control command is of a kind: the upload of the padded prefix alone, the
shortest buffer that R126 leaves, in one chunk, which is still to be sent or, before the status read, was sent (log 29). -/
def Bsu.placed (p : Params) (kind : ControlKind) (b : Bsu) : Bsu :=
  let b := { b with buf := Memory.ofBytes 0 (zeros (p.prefixLen + 1)), len := p.prefixLen + 1
                    reversed := false, padded := true, ctrlOk := true }
  match kind with
  | .reset => { b with state := .resetCmd, chunkIdx := 0 }
  | .sendChunk => { b with state := .sendChunk, chunkIdx := 0 }
  | .status => { b with state := .status, chunkIdx := 1 }

/-- Put the BSU where its next control command is the one of the opcode byte (log 16, log 29). -/
def State.selectControl (op : Byte) (s : State) : State :=
  match controlOf op with
  | some (k, v) => { s with params := withVariant s.params k v, bsu := s.bsu.placed s.params k }
  | none => s

/-- Make a code the next thing that runs: a frame is the next command, a control opcode the BSU's next control command
(log 16). -/
def State.placeCode (c : Code) (s : State) : State :=
  match c with
  | .frame b => { s with inputs := .command (.code b) s.cmdTimeout :: s.inputs }
  | .control op => { s.selectControl op with inputs := .control :: s.inputs }

end Sys2Proof.Machine
end

