-- ==== Sys2Proof/Machine/Step.lean ====
section
/-! DEFINITION. One step of the block: it takes the next input. With none it waits, unchanged (log 20). -/

namespace Sys2Proof.Machine

/-- One step. -/
def step (s : State) : Host.Outcome State Fault Refusal :=
  match s.inputs with
  | [] => .next s
  | x :: rest => State.take x { s with inputs := rest }

/-- `s` with the instruction of a table word as the very next thing that runs (log 16). -/
def State.withFetchWord (s : State) (nbits w : Nat) : State := s.placeCode (tableCode s.params nbits w)

end Sys2Proof.Machine
end

