-- ==== Sys2Proof/Machine/Environment.lean ====
section
/-! DEFINITION. The environment of the block over time (R16): what arrives from outside at each step, the endless runs it
drives, and the weak fairness that R168 and D14 ask of it, without which an RB_POLL need not end. -/

namespace Sys2Proof.Machine

/-- What arrives from outside, one input at each step, without end (log 31). Nothing limits it but `weaklyFair`. -/
abbrev Environment := Nat → Input

/-- `x` arrives, behind the inputs that already wait. -/
def State.arrive (x : Input) (s : State) : State := { s with inputs := s.inputs ++ [x] }

/-- The transfer belongs to a read of an RB_POLL (R100). -/
def AfterReply.isPoll : AfterReply → Bool
  | .value => false
  | .ack => false
  | .acks => false
  | .payload _ => false
  | .ignore => false
  | .rmw _ _ _ => false
  | .poll _ _ _ => true

/-- RBU is in the middle of an RB_POLL: at its Tick, or at a read that has not matched yet (R100). -/
def RbuState.polling : RbuState → Bool
  | .idle => false
  | .busy (.send x) => x.after.isPoll
  | .busy (.recv x) => x.after.isPoll
  | .busy (.tick _ _ _ _) => true

/-- The event is a Tick with this outcome. -/
def TEvent.ticks (o : TickOutcome) : TEvent → Bool
  | .tick _ o' => o' == o
  | .send _ _ _ => false
  | .recv _ _ _ => false

/-- In the step from moment `n` to the next, a Tick is answered with this outcome. -/
def tickAnswered (o : TickOutcome) (run : Nat → State) (n : Nat) : Prop :=
  ∃ es, (run (n + 1)).rbu.trace = (run n).rbu.trace ++ es ∧ es.any (TEvent.ticks o) = true

/-- Weak fairness (R168, D14): if from some moment on RB_POLL runs forever without a matching read, Tick eventually
answers Expired. -/
def weaklyFair (run : Nat → State) : Prop :=
  ∀ n, (∀ m, n ≤ m → (run m).rbu.state.polling = true) → ∃ m, n ≤ m ∧ tickAnswered .expired run m

/-- `run` is what the block does, moment by moment, while `env` arrives. -/
def Environment.drives (env : Environment) (run : Nat → State) : Prop :=
  ∀ n, step ((run n).arrive (env n)) = .next (run (n + 1))

/-- An execution of the model: a run whose environment is weakly fair, as R168 requires. -/
structure Execution (env : Environment) (run : Nat → State) : Prop where
  drives : env.drives run
  fair : weaklyFair run

end Sys2Proof.Machine
end

