-- ==== Sys2Proof/Safety.lean ====
section
/-! DEFINITION. What the claims are stated in: requests that are whole frames, events within their port's rule, and the
invariant of the block between steps. -/

namespace Sys2Proof.Machine

/-! ### Requests and events -/

/-- The address of a frame, if its format has one, is valid (R71, R86). -/
def frameAddrValid (p : Params) : Instr → Bool
  | .write _ addr _ => validAddr p addr
  | .read _ addr => validAddr p addr
  | .streamWrite _ addr _ => validAddr p addr
  | .streamRead _ addr _ => validAddr p addr
  | _ => true

/-- The byte sequence is `n` whole frames one after another, each with a valid opcode and a valid address (R59, R70,
R71). -/
inductive Frames (p : Params) : Nat → Bytes → Prop where
  | nil : Frames p 0 []
  | cons {n : Nat} {b rest : Bytes} {i : Instr} :
      decodeFrame p b = .ok (i, rest) → frameAddrValid p i = true → Frames p n rest → Frames p (n + 1) b

/-- The number of frames in a byte sequence, reading from the front; `fuel` bounds the recursion. -/
def countFrames (p : Params) : Nat → Bytes → Nat
  | 0, _ => 0
  | fuel + 1, b =>
    match decodeFrame p b with
    | .ok (_, rest) => 1 + countFrames p fuel rest
    | .error _ => 0

/-- The number of frames a request carries. -/
def framesIn (p : Params) (req : Bytes) : Nat := countFrames p req.length req

/-- An event of port T is within R17, and a request sent is a sequence of whole frames. -/
def TEvent.legal (p : Params) : TEvent → Prop
  | .send req _ _ => ∃ n, 1 ≤ n ∧ Frames p n req
  | .recv n _ o => 1 ≤ n ∧ o.allowed n = true
  | .tick _ _ => True

/-- An event of port A is within R18, and asks for no more than the buffer holds (R27). -/
def AEvent.legal (p : Params) (e : AEvent) : Prop := 1 ≤ e.n ∧ e.n ≤ p.atrMax ∧ e.o.allowed e.n = true

/-- An event of port C is within R19 and R72: an opcode of the command's kind, a chunk of at most CHUNK bytes, a reply of
at most the bytes asked for. -/
def CEvent.legal (p : Params) : CEvent → Prop
  | .write op _ _ data _ _ =>
    (∃ v, op = controlByte .reset v ∧ data = []) ∨
    (∃ v, op = controlByte .sendChunk v ∧ 1 ≤ data.length ∧ data.length ≤ p.chunk)
  | .read op _ _ n _ o => (∃ v, op = controlByte .status v) ∧ o.allowed n = true

/-! ### Frames built (R91) -/

/-- The frames of an event of port T. -/
def TEvent.frames (p : Params) : TEvent → Nat
  | .send req _ _ => framesIn p req
  | .recv _ _ _ => 0
  | .tick _ _ => 0

/-- The frames of the request that waits to be sent. -/
def RbuState.frames (p : Params) : RbuState → Nat
  | .busy (.send x) => framesIn p x.req
  | _ => 0

/-- The frames RBU has built: those sent and the one or more whose send has no outcome yet. -/
def Rbu.framesBuilt (p : Params) (r : Rbu) : Nat := (r.trace.map (TEvent.frames p)).sum + r.state.frames p

/-! ### The invariant -/

/-- The parameters are within R4: the document's values, and a STATUS_LEN of at least 1 (D24). -/
def paramsOk (p : Params) : Prop := p.Documented ∧ 1 ≤ p.statusLen

/-- The reply length and the address of a transfer fit what follows it (R68, R92). -/
def Xfer.ok (p : Params) (x : Xfer) : Prop :=
  (∃ n, 1 ≤ n ∧ Frames p n x.req) ∧
  match x.after with
  | .value => x.n = p.echoLen + p.valueLen
  | .ack => x.n = p.ackLen
  | .acks => 1 ≤ x.n
  | .payload length => x.n = length + p.echoLen
  | .ignore => x.n = p.flushRespLen
  | .rmw addr _ _ => x.n = p.echoLen + p.valueLen ∧ validAddr p addr = true
  | .poll addr _ _ => x.n = p.echoLen + p.valueLen ∧ validAddr p addr = true

/-- The operation in progress is one the rules can be in. -/
def RbuState.ok (p : Params) : RbuState → Prop
  | .idle => True
  | .busy (.send x) => x.ok p
  | .busy (.recv x) => x.ok p ∧ 1 ≤ x.n
  | .busy (.tick addr _ _ _) => validAddr p addr = true

/-- RBU between steps: a busy unit has a usable link (R24, R103), and its trace is within R17. -/
structure Rbu.Inv (p : Params) (r : Rbu) : Prop where
  state : r.state.ok p
  link : r.state ≠ .idle → r.linkOk = true
  trace : ∀ e ∈ r.trace, e.legal p

/-- Every byte below `n` was written. -/
def Memory.written (m : Memory) (n : Nat) : Prop := ∀ a, a < n → (Memory.read m a).isSome = true

/-- Every byte listed lies below the capacity. -/
def Memory.within (m : Memory) (capacity : Nat) : Prop := ∀ c ∈ m, c.1 < capacity

/-- ATU_STATE between steps: Idle, or a state whose request is outstanding and fits the buffer (R109 to R115, R118). -/
def Atu.stateOk (p : Params) (a : Atu) : Prop :=
  match a.state with
  | .idle => True
  | .expectInitial => a.consumed = 0
  | .expectInterfaceChain => 2 ≤ a.consumed ∧ 1 ≤ a.groupLen ∧ a.groupLen ≤ a.room p
  | .expectHistorical => 2 ≤ a.consumed ∧ 1 ≤ a.k.toNat ∧ a.k.toNat ≤ a.room p
  | .expectCheckByte => 2 ≤ a.consumed ∧ a.needsCheck = true ∧ 1 ≤ a.room p
  | .done => False
  | .failed _ => False

/-- ATU between steps: the buffer is in its canonical form and within 32 bytes, the bytes consumed were written (R27,
R28, R40), and its trace is within R18. -/
structure Atu.Inv (p : Params) (a : Atu) : Prop where
  wf : a.buf.wf
  within : Memory.within a.buf p.atrMax
  bound : a.consumed ≤ p.atrMax
  written : Memory.written a.buf a.consumed
  state : a.stateOk p
  trace : ∀ e ∈ a.trace, e.legal p

/-- The loaded image of an upload in progress: at least the prefix, and never a multiple of MPS long (R122, R126). -/
def Bsu.loaded (p : Params) (b : Bsu) : Prop := p.prefixLen ≤ b.len ∧ b.len % p.mps ≠ 0

/-- BSU_STATE between steps: Idle, or a control command is outstanding (R121, R127 to R131). -/
def Bsu.stateOk (p : Params) (b : Bsu) : Prop :=
  match b.state with
  | .idle => True
  | .detect => False
  | .pad => False
  | .resetCmd => b.loaded p ∧ b.chunkIdx = 0
  | .sendChunk => b.loaded p ∧ b.chunkIdx < chunkCount p b.len
  | .status => b.loaded p ∧ b.chunkIdx = chunkCount p b.len
  | .done => False
  | .failed _ => False

/-- BSU between steps: the buffer is in its canonical form and within its capacity, the bytes in use were written (R33,
R40), an upload in progress has a usable channel (R37), and the trace is within R19. -/
structure Bsu.Inv (p : Params) (b : Bsu) : Prop where
  wf : b.buf.wf
  within : Memory.within b.buf (bsuCapacity p)
  bound : b.len ≤ bsuCapacity p
  written : Memory.written b.buf b.len
  state : b.stateOk p
  channel : b.state ≠ .idle → b.ctrlOk = true
  trace : ∀ e ∈ b.trace, e.legal p

/-- The block between steps. -/
structure State.Inv (s : State) : Prop where
  params : paramsOk s.params
  rbu : s.rbu.Inv s.params
  atu : s.atu.Inv s.params
  bsu : s.bsu.Inv s.params

end Sys2Proof.Machine

/-! ### The pseudocode of the commands, from acceptance to result

The machine makes port events one at a time and may wait between them. The functions below write each command's
pseudocode as ONE function of the outcomes the environment answers with. They are no part of the machine: the claims say
that the machine agrees with them. `none` means that the answers given do not reach the command's result. -/

namespace Sys2Proof.Machine

/-- RBU accepts a command (R103). -/
def State.rbuReady (s : State) : Prop := s.rbu.state = .idle ∧ s.rbu.linkOk = true

/-- BSU accepts an upload (R22, R37). -/
def State.bsuReady (s : State) : Prop := s.bsu.state = .idle ∧ s.bsu.ctrlOk = true

/-- How a command on port T ends: its events, its result, whether an outcome was a Timeout, SEQ, and the answers left. -/
structure BusEnd where
  events : List TEvent
  result : Result
  late : Bool
  seq : Byte
  rest : List TAnswer
deriving DecidableEq, Repr

/-- The state after a bus command ended so. Everything not named is unchanged. -/
def State.busEnds (s : State) (e : BusEnd) : State :=
  { s with rbu := { s.rbu with seq := e.seq, linkOk := s.rbu.linkOk && !e.late, answers := e.rest
                               trace := s.rbu.trace ++ e.events, results := s.rbu.results ++ [e.result] } }

/-- `xfer(req, n, t)` (R92) and what is made of its reply. -/
def xferSpec (req : Bytes) (n : Nat) (t : Timeout) (seq : Byte) (finish : Bytes → Result) :
    List TAnswer → Option BusEnd
  | .send .timeout :: rest => some ⟨[.send req t .timeout], .err .toSend, true, seq, rest⟩
  | .send .transferError :: rest => some ⟨[.send req t .transferError], .err .teSend, false, seq, rest⟩
  | .send .sent :: rest =>
    if n = 0 then some ⟨[.send req t .sent], finish [], false, seq, rest⟩
    else
      match rest with
      | .recv (.bytes b) :: rest =>
        if b.length = n then some ⟨[.send req t .sent, .recv n t (.bytes b)], finish b, false, seq, rest⟩ else none
      | .recv (.short b) :: rest =>
        if b.length < n then some ⟨[.send req t .sent, .recv n t (.short b)], .err .peLen, false, seq, rest⟩
        else none
      | .recv .timeout :: rest => some ⟨[.send req t .sent, .recv n t .timeout], .err .toRecv, true, seq, rest⟩
      | .recv .transferError :: rest =>
        some ⟨[.send req t .sent, .recv n t .transferError], .err .teRecv, false, seq, rest⟩
      | _ => none
  | _ => none

/-- What RB_READ makes of its 6-byte reply: 2 echo bytes, then the value, low byte first (R68, R93, R105). -/
def readResult (p : Params) (req : Bytes) : Bytes → Result
  | [e0, e1, b0, b1, b2, b3] =>
    if echoOk p req [e0, e1] then .ok (.word (fromLe32 b0 b1 b2 b3)) else .err .peEcho
  | _ => .err .peLen

/-- What RB_READ_STREAM makes of its reply: 2 echo bytes, then the payload (R68, R96, R105). -/
def payloadResult (p : Params) (req : Bytes) : Bytes → Result
  | e0 :: e1 :: payload => if echoOk p req [e0, e1] then .ok (.bytes payload) else .err .peEcho
  | _ => .err .peLen

/-- RB_READ with a valid address (R93). -/
def readSpec (p : Params) (addr : Nat) (t : Timeout) (seq : Byte) : List TAnswer → Option BusEnd :=
  xferSpec (frameRead p seq addr) 6 t (seq + 1) (readResult p (frameRead p seq addr))

/-- RB_RMW with a valid address: the read, and, unless it failed, the write of `(old & ~mask) | value` (R99). -/
def rmwSpec (p : Params) (addr : Nat) (mask value : Word) (t : Timeout) (seq : Byte) (answers : List TAnswer) :
    Option BusEnd :=
  match readSpec p addr t seq answers with
  | none => none
  | some e =>
    match e.result with
    | .ok (.word old) =>
      match xferSpec (frameWrite p e.seq addr ((old &&& ~~~mask) ||| value)) 2 t (e.seq + 1) (fun _ => .ok .none)
          e.rest with
      | none => none
      | some f => some { f with events := e.events ++ f.events }
    | _ => some e

/-- RB_POLL with a valid address, for at most `rounds` turns of its loop (R100). -/
def pollSpec (p : Params) (addr : Nat) (mask expected : Word) (t : Timeout) :
    Nat → Byte → List TAnswer → Option BusEnd
  | 0, _, _ => none
  | _ + 1, seq, .tick .expired :: rest => some ⟨[.tick t .expired], .ok (.bool false), false, seq, rest⟩
  | rounds + 1, seq, .tick .continue :: rest =>
    match readSpec p addr t seq rest with
    | none => none
    | some e =>
      match e.result with
      | .ok (.word v) =>
        if v &&& mask = expected then
          some { e with events := .tick t .continue :: e.events, result := .ok (.bool true) }
        else
          match pollSpec p addr mask expected t rounds e.seq e.rest with
          | none => none
          | some f => some { f with events := .tick t .continue :: e.events ++ f.events }
      | _ => some { e with events := .tick t .continue :: e.events }
  | _, _, _ => none

/-- The frames of a batch with sequence numbers SEQ, SEQ + 1, ... in list order (R91, R95). -/
def batchRequest (p : Params) (seq : Byte) (pairs : List (Nat × Word)) : Bytes :=
  (pairs.mapIdx fun i q => frameWrite p (seq + BitVec.ofNat 8 i) q.1 q.2).flatten

/-! ### ATR layouts (R74, R119) -/

/-- `gs` are the interface groups that the presence bits of `td` and of the TD bytes declare, one after another (R74). -/
def groupsFrom (td : Byte) : List Bytes → Prop
  | [] => popcount4 (highNibble td) = 0
  | g :: gs =>
    1 ≤ popcount4 (highNibble td) ∧ g.length = popcount4 (highNibble td) ∧
      if td.getLsbD 7 then groupsFrom (g.getLastD 0) gs else gs = []

/-- Some TD byte of the chain has a nonzero protocol number: a check byte follows (R74, R112). -/
def checkDeclared (td : Byte) : List Bytes → Bool
  | [] => false
  | g :: gs => td.getLsbD 7 && (lowNibble (g.getLastD 0) != 0 || checkDeclared (g.getLastD 0) gs)

/-- ATR_TDX at the end of the chain: the last TD byte, or the sentinel (R112). -/
def lastTdx (td : Byte) : List Bytes → Byte
  | [] => td
  | g :: gs => if td.getLsbD 7 then lastTdx (g.getLastD 0) gs else 0x00

/-- The receives of an ATR given by its parts; an empty part makes no request (R113, R119). -/
def atrReceives (p : Params) (t0 : Byte) (gs : List Bytes) (hist check : Bytes) : List Bytes :=
  [p.atrTs, t0] :: gs ++ [hist, check].filter fun b => !b.isEmpty

/-! ### Uploads (R121 to R133) -/

/-- The marker stands at offset `i` of the bytes, and at no lower one (R123). -/
def firstAt (marker bytes : Bytes) (i : Nat) : Prop :=
  marker.isPrefixOf (bytes.drop i) = true ∧ ∀ j, j < i → marker.isPrefixOf (bytes.drop j) = false

/-- The image behind its prefix (R122). -/
def framedImage (p : Params) (image : Bytes) : Bytes := zeros p.prefixLen ++ image

/-- The buffer is to be reversed: the reversed marker stands in it, and the normal one stands at no lower offset (R125). -/
def imageReversed (p : Params) (image : Bytes) : Bool :=
  reversedFirst (findMarker p.syncN 0 (framedImage p image)) (findMarker p.syncR 0 (framedImage p image))

/-- Neither marker stands in the buffer (R124). -/
def syncMissing (p : Params) (image : Bytes) : Bool :=
  (findMarker p.syncN 0 (framedImage p image)).isNone && (findMarker p.syncR 0 (framedImage p image)).isNone

/-- The bytes after the bit-order decision (R125). -/
def orientedImage (p : Params) (image : Bytes) : Bytes :=
  if imageReversed p image then (framedImage p image).map bitrev8 else framedImage p image

/-- The bytes that are uploaded: oriented and padded (R126). -/
def uploadBytes (p : Params) (image : Bytes) : Bytes :=
  if (framedImage p image).length % 64 = 0 then orientedImage p image ++ [0x00] else orientedImage p image

/-- The buffer cut into chunks of CHUNK bytes, in order; the last holds the rest (R128). -/
def chunksOf (p : Params) (bytes : Bytes) : List Bytes :=
  (List.range (chunkCount p bytes.length)).map fun j => (bytes.drop (j * p.chunk)).take p.chunk

/-- How the control commands of an upload end: events, chunks that succeeded, result, whether an outcome was a Timeout,
and the answers left. -/
structure UploadEnd where
  events : List CEvent
  sent : Nat
  result : Result
  late : Bool
  rest : List CAnswer
deriving DecidableEq, Repr

/-- A `CWrite` request and its outcome as an event (R19). -/
def cwrite (op : Byte) (data : Bytes) (t : Timeout) (o : WriteOutcome) : CEvent :=
  .write op (Config.ctrlValue op) (Config.ctrlIndex op) data t o

/-- A `CRead` request and its outcome as an event (R19). -/
def cread (op : Byte) (n : Nat) (t : Timeout) (o : ReadOutcome) : CEvent :=
  .read op (Config.ctrlValue op) (Config.ctrlIndex op) n t o

/-- The status read and its decision, after `sent` chunks (R131, R132). -/
def statusSpec (p : Params) (t : Timeout) (sent : Nat) : List CAnswer → Option UploadEnd
  | .read o :: rest =>
    let e := [cread (controlByte .status p.statusOp) p.statusLen t o]
    match o with
    | .timeout => some ⟨e, sent, .err .toCtrl, true, rest⟩
    | .transferError => some ⟨e, sent, .err .teCtrl, false, rest⟩
    | .bytes b =>
      if b.length ≤ p.statusLen then
        match b with
        | [] => some ⟨e, sent, .err .peStatusShort, false, rest⟩
        | c :: _ => some ⟨e, sent, if c = 0x00 then .err .peNotConfigured else .ok .none, false, rest⟩
      else none
  | _ => none

/-- The chunks still to send, after `sent` that succeeded, and then the status read (R129 to R132). -/
def chunksSpec (p : Params) (t : Timeout) (sent : Nat) : List Bytes → List CAnswer → Option UploadEnd
  | [], answers => statusSpec p t sent answers
  | c :: cs, .write o :: rest =>
    let e := cwrite (controlByte .sendChunk p.chunkOp) c t o
    match o with
    | .timeout => some ⟨[e], sent, .err .toCtrl, true, rest⟩
    | .transferError => some ⟨[e], sent, .err .teCtrl, false, rest⟩
    | .transferred m =>
      if m = c.length then
        match chunksSpec p t (sent + 1) cs rest with
        | none => none
        | some f => some { f with events := e :: f.events }
      else some ⟨[e], sent, .err .peChunkLen, false, rest⟩
  | _ :: _, _ => none

/-- The control commands of an upload: reset, the chunks in order, status (R127 to R132). -/
def uploadSpec (p : Params) (t : Timeout) (chunks : List Bytes) : List CAnswer → Option UploadEnd
  | .write o :: rest =>
    let e := cwrite (controlByte .reset p.resetOp) [] t o
    match o with
    | .timeout => some ⟨[e], 0, .err .toCtrl, true, rest⟩
    | .transferError => some ⟨[e], 0, .err .teCtrl, false, rest⟩
    | .transferred _ =>
      match chunksSpec p t 0 chunks rest with
      | none => none
      | some f => some { f with events := e :: f.events }
  | _ => none

/-! ### Classes of instructions and their causes -/

/-- The commands of RBU (R21). -/
def isBusCommand : Instr → Bool
  | .write _ _ _ => true
  | .read _ _ => true
  | .streamWrite _ _ _ => true
  | .streamRead _ _ _ => true
  | .flush _ => true
  | .rbWriteBatch _ => true
  | .rbRmw _ _ _ => true
  | .rbPoll _ _ _ => true
  | .rbReestablish => true
  | _ => false

/-- The BSU's own control commands (R72). -/
def isControl : Instr → Bool
  | .ctrlReset => true
  | .ctrlResetAlt => true
  | .ctrlSendChunk => true
  | .ctrlSendChunkAlt => true
  | .ctrlStatus => true
  | .ctrlStatusAlt => true
  | _ => false

/-- The commands of BSU: BS_PROVISION and BS_REESTABLISH, and the control commands of an upload (R21, R72). -/
def isUploadCommand (i : Instr) : Bool :=
  isControl i || match i with
    | .bsProvision _ => true
    | .bsReestablish => true
    | _ => false

/-- The table of causes per command (R140). -/
def causes : Instr → List Subcause
  | .read _ _ => [.ipAddr, .toSend, .toRecv, .peLen, .peEcho, .teSend, .teRecv]
  | .write _ _ _ => [.ipAddr, .toSend, .toRecv, .peLen, .teSend, .teRecv]
  | .rbWriteBatch _ => [.ipAddr, .toSend, .toRecv, .peLen, .teSend, .teRecv]
  | .streamRead _ _ _ => [.ipAddr, .ipLen, .toSend, .toRecv, .peLen, .peEcho, .teSend, .teRecv]
  | .streamWrite _ _ _ => [.ipAddr, .ipLen, .toSend, .toRecv, .peLen, .teSend, .teRecv]
  | .flush _ => [.toSend, .toRecv, .peLen, .teSend, .teRecv]
  | .rbRmw _ _ _ => [.ipAddr, .toSend, .toRecv, .peLen, .peEcho, .teSend, .teRecv]
  | .rbPoll _ _ _ => [.ipAddr, .toSend, .toRecv, .peLen, .peEcho, .teSend, .teRecv]
  | .rbReestablish => []
  | .bsReestablish => []
  | .atrReceive => [.peAtrTs, .peAtrMalformed, .peAtrRecv]
  | .bsProvision _ => [.ipLen, .toCtrl, .peSync, .peChunkLen, .peStatusShort, .peNotConfigured, .teCtrl]
  | .ctrlReset => [.toCtrl, .teCtrl]
  | .ctrlResetAlt => [.toCtrl, .teCtrl]
  | .ctrlSendChunk => [.toCtrl, .peChunkLen, .teCtrl]
  | .ctrlSendChunkAlt => [.toCtrl, .peChunkLen, .teCtrl]
  | .ctrlStatus => [.toCtrl, .peStatusShort, .peNotConfigured, .teCtrl]
  | .ctrlStatusAlt => [.toCtrl, .peStatusShort, .peNotConfigured, .teCtrl]

/-- The results an RB_POLL can end with: `false` if its Tick answered Expired, otherwise `true`, or an error it may raise
(R100, R140, R168). -/
def pollEnding (expired : Bool) (v : Result) : Prop :=
  if expired then v = .ok (.bool false) else v = .ok (.bool true) ∨ ∃ c ∈ causes (.rbPoll 0 0 0), v = .err c

/-- The event's outcome is a Timeout (R102). -/
def TEvent.isTimeout : TEvent → Bool
  | .send _ _ .timeout => true
  | .recv _ _ .timeout => true
  | _ => false

/-- The event's outcome is a Timeout (R135). -/
def CEvent.isTimeout : CEvent → Bool
  | .write _ _ _ _ _ .timeout => true
  | .read _ _ _ _ _ .timeout => true
  | _ => false

/-- The results a step delivers on the command port of the instruction's unit. -/
def resultsOf (i : Instr) (s : State) : List Result :=
  if isBusCommand i then s.rbu.results else if i = .atrReceive then s.atu.results else s.bsu.results

end Sys2Proof.Machine
end

