-- ==== Sys2Proof/Certificates/Slice0/Obligations.lean ====
section
/-! DEFINITION. The statements for the provers, from the numbered rules of spec/. A docstring cites the rule.
`Documented` says that the build keeps the document's values of R4; a statement without it holds of every build. -/

open Sys2Proof Sys2Proof.Machine

/-! ### Encodings -/

/-- X10 and the opcode table: written-out words decode to the instructions they stand for. -/
def Obligations.WrittenOutWordsDecode : Prop :=
  ∀ p : Params, p.Documented →
    decode p (.frame [0x00, 0x02, 0x34, 0x12]) = .ok (.read 0x00 0x1234) ∧
    decode p (.frame [0x01, 0x01, 0x34, 0x12, 0xEF, 0xBE, 0xAD, 0xDE]) = .ok (.write 0x01 0x1234 0xDEADBEEF) ∧
    decode p (.frame [0x02, 0x03, 0x10, 0x00, 0x03, 0x00, 0xAA, 0xBB, 0xCC]) =
      .ok (.streamWrite 0x02 0x0010 [0xAA, 0xBB, 0xCC]) ∧
    decode p (.frame [0x03, 0x04, 0x20, 0x00, 0x00, 0x01]) = .ok (.streamRead 0x03 0x0020 0x0100) ∧
    decode p (.frame [0x04, 0xFF]) = .ok (.flush 0x04) ∧
    decode p (.control 0x31) = .ok .ctrlReset ∧ decode p (.control 0x60) = .ok .ctrlResetAlt ∧
    decode p (.control 0x32) = .ok .ctrlSendChunk ∧ decode p (.control 0x34) = .ok .ctrlSendChunkAlt ∧
    decode p (.control 0x30) = .ok .ctrlStatus ∧ decode p (.control 0x33) = .ok .ctrlStatusAlt

/-- R59 to R66, R71, R72: decoding the code of a well-formed instruction gives it back, for every operand value. -/
def Obligations.DecodeOfEncodeIsTheInstruction : Prop :=
  ∀ (p : Params) (i : Instr) (c : Code), p.Documented → i.wf p = true → encode p i = some c → decode p c = .ok i

/-- R59, R67, R71, R72: what the decoder reads is well formed, and its code is the one read: each code has one
meaning. -/
def Obligations.EncodeOfDecodeIsTheCode : Prop :=
  ∀ (p : Params) (c : Code) (i : Instr), p.Documented → decode p c = .ok i → i.wf p = true ∧ encode p i = some c

/-- R70: an opcode byte other than the five is refused, whatever stands around it; every frame the block's encoders
lay out has one of the five at offset 1, and the seq byte of any frame may take any value. -/
def Obligations.ReservedOpcodesSpellNoInstruction : Prop :=
  ∀ p : Params, p.Documented →
  (∀ (seq op : Byte) (rest : Bytes), op ≠ 0x01 → op ≠ 0x02 → op ≠ 0x03 → op ≠ 0x04 → op ≠ 0xFF →
    decodeFrame p (seq :: op :: rest) = .error (.noSuchOpcode op) ∧
    (Command.code (seq :: op :: rest)).instr p = .refused (.spellsNoInstruction (.noSuchOpcode op))) ∧
  (∀ (i : Instr) (b : Bytes), encode p i = some (.frame b) →
    b[1]? = some 0x01 ∨ b[1]? = some 0x02 ∨ b[1]? = some 0x03 ∨ b[1]? = some 0x04 ∨ b[1]? = some 0xFF) ∧
  (∀ (seq seq' op : Byte) (rest tail : Bytes) (i : Instr), decodeFrame p (seq :: op :: rest) = .ok (i, tail) →
    ∃ j, decodeFrame p (seq' :: op :: rest) = .ok (j, tail))

/-- R67 (the spec's own derivation from R62 to R66): a request's length follows from its first bytes, whatever comes
after the frame; without one of the five opcodes there is none. -/
def Obligations.RequestLengthFollowsTheOpcode : Prop :=
  ∀ p : Params, p.Documented →
  (∀ (i : Instr) (b tail : Bytes), i.wf p = true → encode p i = some (.frame b) →
    reqLen p (b ++ tail) = some b.length) ∧
  (∀ (seq op : Byte) (rest : Bytes), op ≠ 0x01 → op ≠ 0x02 → op ≠ 0x03 → op ≠ 0x04 → op ≠ 0xFF →
    reqLen p (seq :: op :: rest) = none)

/-- R60, R61: the little-endian packing of 16 and of 32 bits, and its inverse. -/
def Obligations.PackingRoundTrips : Prop :=
  (∀ x : Nat, x ≤ 0xFFFF → ∃ lo hi : Byte,
    le16 x = [lo, hi] ∧ lo.toNat = x % 2 ^ 8 ∧ hi.toNat = x / 2 ^ 8 ∧ fromLe16 lo hi = x) ∧
  (∀ b0 b1 : Byte, fromLe16 b0 b1 = b0.toNat + 256 * b1.toNat) ∧
  (∀ x : Word, ∃ b0 b1 b2 b3 : Byte, le32 x = [b0, b1, b2, b3] ∧ b0 = x.extractLsb' 0 8 ∧ b1 = x.extractLsb' 8 8 ∧
    b2 = x.extractLsb' 16 8 ∧ b3 = x.extractLsb' 24 8 ∧ fromLe32 b0 b1 b2 b3 = x) ∧
  (∀ b0 b1 b2 b3 : Byte, (fromLe32 b0 b1 b2 b3).toNat =
    b0.toNat + 2 ^ 8 * b1.toNat + 2 ^ 16 * b2.toNat + 2 ^ 24 * b3.toNat)

/-! ### The frame codec -/

/-- R81 to R87: each encoder checks its address, then its length, and lays the frame out byte by byte. That every
address field is checked, and before the length, and that there is a flush encoder, are the spec's decisions D4, D36
and D13. -/
def Obligations.EncodersCheckThenLayOut : Prop :=
  ∀ (p : Params) (seq : Byte) (addr length : Nat) (value : Word) (data : Bytes), p.Documented →
    let lo (x : Nat) : Byte := BitVec.ofNat 8 x
    let hi (x : Nat) : Byte := BitVec.ofNat 8 (x / 256)
    encRead p seq addr = (if addr < 0xFFFF then .ok [seq, 0x02, lo addr, hi addr] else .error .ipAddr) ∧
    encWrite p seq addr value =
      (if addr < 0xFFFF then
        .ok [seq, 0x01, lo addr, hi addr, lo value.toNat, lo (value.toNat / 2 ^ 8), lo (value.toNat / 2 ^ 16),
             lo (value.toNat / 2 ^ 24)]
       else .error .ipAddr) ∧
    encStreamWrite p seq addr data =
      (if addr < 0xFFFF then
        if data.length ≤ 0xFFFF then
          .ok ([seq, 0x03, lo addr, hi addr, lo data.length, hi data.length] ++ data)
        else .error .ipLen
       else .error .ipAddr) ∧
    encStreamRead p seq addr length =
      (if addr < 0xFFFF then
        if length ≤ 0xFFFF then .ok [seq, 0x04, lo addr, hi addr, lo length, hi length] else .error .ipLen
       else .error .ipAddr) ∧
    encFlush p seq = [seq, 0xFF]

/-- R88, R89, and R90, which is the spec's own derivation from R68: each decoder checks the length alone. -/
def Obligations.DecodersCheckTheLength : Prop :=
  ∀ (p : Params) (b : Bytes) (n : Nat), p.Documented →
    (b.length ≠ 4 → decReadResponse b = .error .peLen) ∧
    (∀ b0 b1 b2 b3 : Byte, decReadResponse [b0, b1, b2, b3] =
      .ok (BitVec.ofNat 32 (b0.toNat + 2 ^ 8 * b1.toNat + 2 ^ 16 * b2.toNat + 2 ^ 24 * b3.toNat))) ∧
    (b.length ≠ 2 → decWriteAck p b = .error .peLen) ∧ (b.length = 2 → decWriteAck p b = .ok ()) ∧
    (b.length ≠ n + 2 → decStreamReadReply p b n = .error .peLen) ∧
    (∀ (e0 e1 : Byte) (payload : Bytes), payload.length = n →
      decStreamReadReply p (e0 :: e1 :: payload) n = .ok ([e0, e1], payload))

/-- X1, R61, R82, R88: the value bytes of a write frame, fed to the read decoder, give the value back. -/
def Obligations.WrittenValueReadsBack : Prop :=
  ∀ (p : Params) (seq : Byte) (addr : Nat) (value : Word) (frame : Bytes),
    encWrite p seq addr value = .ok frame → decReadResponse (frame.drop 4) = .ok value

/-- R76 with R7: bit i of `bitrev8(x)` is bit 7 - i of x; the two markers, and that each is the other's reversal. -/
def Obligations.BitReversalSwapsTheMarkers : Prop :=
  (∀ (x : Byte) (i : Nat), i < 8 → (bitrev8 x).getLsbD i = x.getLsbD (7 - i)) ∧
  (∀ p : Params, p.Documented →
    p.syncN = [0xAA, 0x99, 0x55, 0x66] ∧ p.syncR = [0x55, 0x99, 0xAA, 0x66] ∧
    p.syncR.map bitrev8 = p.syncN ∧ p.syncN.map bitrev8 = p.syncR)

/-- R138: the kind and subcause codes. The numbers are the spec's own choice (D28). -/
def Obligations.ErrorCodesAreTheTable : Prop :=
  (∀ v, (Result.ok v).kindCode = 0x0 ∧ (Result.ok v).subCode = 0x00) ∧
  [Subcause.ipAddr, .ipLen].map (fun e => ((Result.err e).kindCode, (Result.err e).subCode)) =
    [(0x1, 0x11), (0x1, 0x12)] ∧
  [Subcause.toSend, .toRecv, .toCtrl].map (fun e => ((Result.err e).kindCode, (Result.err e).subCode)) =
    [(0x2, 0x21), (0x2, 0x22), (0x2, 0x23)] ∧
  [Subcause.peLen, .peEcho, .peAtrTs, .peAtrMalformed, .peAtrRecv, .peSync, .peChunkLen, .peStatusShort,
    .peNotConfigured].map (fun e => ((Result.err e).kindCode, (Result.err e).subCode)) =
    [(0x3, 0x31), (0x3, 0x32), (0x3, 0x33), (0x3, 0x34), (0x3, 0x35), (0x3, 0x36), (0x3, 0x37), (0x3, 0x38),
     (0x3, 0x39)] ∧
  [Subcause.teSend, .teRecv, .teCtrl].map (fun e => ((Result.err e).kindCode, (Result.err e).subCode)) =
    [(0x4, 0x41), (0x4, 0x42), (0x4, 0x43)]

/-! ### Reset -/

/-- R39, R157 (the values are the spec's decisions D6, D12 and D30): what reset leaves, for every choice of the
parameters; no byte of a buffer holds a value (R40). ATR_K and ATR_TDX, to which the spec gives no value, are not
named. -/
def Obligations.ResetLeavesTheSpecValues : Prop :=
  State.reset = State.resetWith Params.defaults ∧
  ∀ p : Params,
    let s := State.resetWith p
    s.rbu.seq = p.seqInit ∧ s.rbu.linkOk = true ∧ s.rbu.state = .idle ∧
    s.atu.state = .idle ∧ s.atu.consumed = 0 ∧ s.atu.needsCheck = false ∧
    s.bsu.state = .idle ∧ s.bsu.len = 0 ∧ s.bsu.reversed = false ∧ s.bsu.padded = false ∧ s.bsu.chunkIdx = 0 ∧
    s.bsu.ctrlOk = true ∧
    (∀ a, Memory.read s.atu.buf a = none ∧ Memory.read s.bsu.buf a = none)

/-- The invariant of the block holds right after reset. -/
def Obligations.ResetMeetsTheInvariant : Prop := State.reset.Inv

/-- R155 to R159 (the spec's decisions D30, D38): the reset event, even during commands, gives every register its
reset value and delivers no result. That it is an input, and what becomes of the model's own fields, is the model's
choice (log 17). -/
def Obligations.ResetEventAbandonsTheCommands : Prop :=
  ∀ (s : State) (rest : List Input), s.inputs = .reset :: rest →
    ∃ t, step s = .next t ∧
      (t.rbu.seq, t.rbu.linkOk, t.rbu.state) = (s.params.seqInit, true, RbuState.idle) ∧
      (t.atu.state, t.atu.consumed, t.atu.needsCheck, t.atu.buf) = (AtuState.idle, 0, false, []) ∧
      (t.bsu.state, t.bsu.len, t.bsu.reversed, t.bsu.padded, t.bsu.chunkIdx, t.bsu.ctrlOk, t.bsu.buf) =
        (BsuState.idle, 0, false, false, 0, true, []) ∧
      t.rbu.results = s.rbu.results ∧ t.atu.results = s.atu.results ∧ t.bsu.results = s.bsu.results ∧
      t.params = s.params ∧ t.inputs = rest

/-! ### The register bus: each command against its rule

`busEnds` is the whole next state, so each statement gives the result, the trace and the frame at once. -/

/-- R93: RB_READ. -/
def Obligations.ReadFollowsItsRule : Prop :=
  ∀ (s : State) (q : Byte) (addr : Nat), s.params.Documented → s.rbuReady →
    (0xFFFF ≤ addr →
      exec (.read q addr) s = .next (s.busEnds ⟨[], .err .ipAddr, false, s.rbu.seq, s.rbu.answers⟩)) ∧
    (addr < 0xFFFF → ∀ e, readSpec s.params addr s.cmdTimeout s.rbu.seq s.rbu.answers = some e →
      exec (.read q addr) s = .next (s.busEnds e))

/-- R94: RB_WRITE; the ack's content is ignored. -/
def Obligations.WriteFollowsItsRule : Prop :=
  ∀ (s : State) (q : Byte) (addr : Nat) (value : Word), s.params.Documented → s.rbuReady →
    (0xFFFF ≤ addr →
      exec (.write q addr value) s = .next (s.busEnds ⟨[], .err .ipAddr, false, s.rbu.seq, s.rbu.answers⟩)) ∧
    (addr < 0xFFFF → ∀ e,
      xferSpec (frameWrite s.params s.rbu.seq addr value) 2 s.cmdTimeout (s.rbu.seq + 1) (fun _ => .ok .none) s.rbu.answers =
        some e →
      exec (.write q addr value) s = .next (s.busEnds e))

/-- R95: RB_WRITE_BATCH: all addresses first, an empty batch makes no event (both the spec's decision D9), one TSend
of all frames and one TRecv of all acks. -/
def Obligations.BatchFollowsItsRule : Prop :=
  ∀ (s : State) (pairs : List (Nat × Word)), s.params.Documented → s.rbuReady →
    ((∃ q ∈ pairs, 0xFFFF ≤ q.1) →
      exec (.rbWriteBatch pairs) s = .next (s.busEnds ⟨[], .err .ipAddr, false, s.rbu.seq, s.rbu.answers⟩)) ∧
    exec (.rbWriteBatch []) s = .next (s.busEnds ⟨[], .ok .none, false, s.rbu.seq, s.rbu.answers⟩) ∧
    ((∀ q ∈ pairs, q.1 < 0xFFFF) → pairs ≠ [] → ∀ e,
      xferSpec (batchRequest s.params s.rbu.seq pairs) (2 * pairs.length) s.cmdTimeout
        (s.rbu.seq + BitVec.ofNat 8 pairs.length) (fun _ => .ok .none) s.rbu.answers = some e →
      exec (.rbWriteBatch pairs) s = .next (s.busEnds e))

/-- R96: RB_READ_STREAM; its length argument is the spec's decision D33. -/
def Obligations.StreamReadFollowsItsRule : Prop :=
  ∀ (s : State) (q : Byte) (addr length : Nat), s.params.Documented → s.rbuReady →
    (0xFFFF ≤ addr →
      exec (.streamRead q addr length) s =
        .next (s.busEnds ⟨[], .err .ipAddr, false, s.rbu.seq, s.rbu.answers⟩)) ∧
    (addr < 0xFFFF → 0xFFFF < length →
      exec (.streamRead q addr length) s =
        .next (s.busEnds ⟨[], .err .ipLen, false, s.rbu.seq, s.rbu.answers⟩)) ∧
    (addr < 0xFFFF → length ≤ 0xFFFF → ∀ e,
      xferSpec (frameStreamRead s.params s.rbu.seq addr length) (length + 2) s.cmdTimeout (s.rbu.seq + 1)
        (payloadResult s.params (frameStreamRead s.params s.rbu.seq addr length)) s.rbu.answers = some e →
      exec (.streamRead q addr length) s = .next (s.busEnds e))

/-- R97: RB_WRITE_STREAM. -/
def Obligations.StreamWriteFollowsItsRule : Prop :=
  ∀ (s : State) (q : Byte) (addr : Nat) (data : Bytes), s.params.Documented → s.rbuReady →
    (0xFFFF ≤ addr →
      exec (.streamWrite q addr data) s =
        .next (s.busEnds ⟨[], .err .ipAddr, false, s.rbu.seq, s.rbu.answers⟩)) ∧
    (addr < 0xFFFF → 0xFFFF < data.length →
      exec (.streamWrite q addr data) s =
        .next (s.busEnds ⟨[], .err .ipLen, false, s.rbu.seq, s.rbu.answers⟩)) ∧
    (addr < 0xFFFF → data.length ≤ 0xFFFF → ∀ e,
      xferSpec (frameStreamWrite s.params s.rbu.seq addr data) 2 s.cmdTimeout (s.rbu.seq + 1) (fun _ => .ok .none)
        s.rbu.answers = some e →
      exec (.streamWrite q addr data) s = .next (s.busEnds e))

/-- R98 (the spec's decision D13): RB_FLUSH, for every FLUSH_RESP_LEN, 0 included. -/
def Obligations.FlushFollowsItsRule : Prop :=
  ∀ (s : State) (q : Byte), s.params.Documented → s.rbuReady → ∀ e,
    xferSpec [s.rbu.seq, 0xFF] s.params.flushRespLen s.cmdTimeout (s.rbu.seq + 1) (fun _ => .ok .none)
      s.rbu.answers = some e →
    exec (.flush q) s = .next (s.busEnds e)

/-- R99: RB_RMW: the read, then the write of `(old & ~mask) | value`, with `value` unmasked (the spec's decision D15);
a failed read ends it with no write. -/
def Obligations.ReadModifyWriteFollowsItsRule : Prop :=
  ∀ (s : State) (addr : Nat) (mask value : Word), s.params.Documented → s.rbuReady →
    (0xFFFF ≤ addr →
      exec (.rbRmw addr mask value) s = .next (s.busEnds ⟨[], .err .ipAddr, false, s.rbu.seq, s.rbu.answers⟩)) ∧
    (addr < 0xFFFF → ∀ e,
      rmwSpec s.params addr mask value s.cmdTimeout s.rbu.seq s.rbu.answers = some e →
      exec (.rbRmw addr mask value) s = .next (s.busEnds e))

/-- R100, R168 (the form of the loop and the fairness are the spec's decisions D14, D39): RB_POLL, for any number of turns
of its loop; in every execution, whose environment is weakly fair, a poll in progress ends: with `true`, with `false` in
the step in which its Tick answers Expired, with an error, or abandoned by a reset event with no result; and an environment
that is not weakly fair admits a poll that never ends, although its Tick is answered again and again. The environment as
one arriving input at each step is the model's choice (log 31). -/
def Obligations.PollFollowsItsRule : Prop :=
  (∀ (s : State) (addr : Nat) (mask expected : Word), s.params.Documented → s.rbuReady →
    (0xFFFF ≤ addr →
      exec (.rbPoll addr mask expected) s =
        .next (s.busEnds ⟨[], .err .ipAddr, false, s.rbu.seq, s.rbu.answers⟩)) ∧
    (addr < 0xFFFF → ∀ (rounds : Nat) (e : BusEnd),
      pollSpec s.params addr mask expected s.cmdTimeout rounds s.rbu.seq s.rbu.answers = some e →
      exec (.rbPoll addr mask expected) s = .next (s.busEnds e))) ∧
  (∀ (env : Environment) (run : Nat → State) (n : Nat), Execution env run → (run n).rbu.state.polling = true →
    ∃ m, n ≤ m ∧ (∀ k, n ≤ k → k ≤ m → (run k).rbu.state.polling = true) ∧ (run (m + 1)).rbu.state = .idle ∧
      (((∃ rest, ((run m).arrive (env m)).inputs = .reset :: rest) ∧
          (run (m + 1)).rbu.results = (run n).rbu.results) ∨
       ∃ v, (run (m + 1)).rbu.results = (run n).rbu.results ++ [v] ∧
        ((v = .ok (.bool false) ∧ tickAnswered .expired run m) ∨ v = .ok (.bool true) ∨
          ∃ c ∈ causes (.rbPoll 0 0 0), v = .err c))) ∧
  (∃ (env : Environment) (run : Nat → State), run 0 = State.reset ∧ env.drives run ∧ ¬ weaklyFair run ∧
    (∀ n, 1 ≤ n → (run n).rbu.state.polling = true) ∧
    (∀ n, ∃ m, n ≤ m ∧ tickAnswered TickOutcome.continue run m))

/-- R101 (the spec's decision D12): RB_REESTABLISH, accepted whenever Idle, whatever LINK_OK holds: LINK_OK becomes 1,
the result is Ok, SEQ and the trace are unchanged. -/
def Obligations.ReestablishSetsLinkOk : Prop :=
  ∀ s : State, s.rbu.state = .idle →
    exec .rbReestablish s =
      .next { s with rbu := { s.rbu with linkOk := true, results := s.rbu.results ++ [.ok .none] } }

/-- R91 (the post-increment order is the spec's decisions D7, D8): SEQ advances mod 256 once for each frame RBU
builds: whatever a step does, unless it is the reset event. -/
def Obligations.SeqCountsTheFramesBuilt : Prop :=
  ∀ s t : State, s.params.Documented → step s = .next t → (∀ rest, s.inputs ≠ .reset :: rest) →
    ∃ n, t.rbu.framesBuilt s.params = s.rbu.framesBuilt s.params + n ∧ t.rbu.seq = s.rbu.seq + BitVec.ofNat 8 n

/-- R102 (the spec's decision D12): a bus command leaves LINK_OK = 0 exactly if one of its outcomes was a Timeout. -/
def Obligations.LinkFallsExactlyOnTimeout : Prop :=
  ∀ (i : Instr) (s t : State), s.params.Documented → isBusCommand i = true → s.rbuReady → exec i s = .next t →
    ∃ es, t.rbu.trace = s.rbu.trace ++ es ∧ (t.rbu.linkOk = false ↔ ∃ e ∈ es, e.isTimeout = true)

/-- R16, and the model's outcomes as data (log 2, log 16): an outcome that arrives is handed to the unit of its port,
and nothing else changes; and when the outcomes arrive makes no difference: one that arrives after the others were used
leads to the state it leads to when it was ready beforehand. ATU and BSU: from every state that meets their invariant,
and from the start of their commands. -/
def Obligations.OutcomesMayArriveLate : Prop :=
  (∀ (s : State) (rest : List Input) (o : TAnswer), s.inputs = .answerT o :: rest →
    step s = .next { s with inputs := rest, rbu := s.rbu.receiveAnswer s.params o }) ∧
  (∀ (s : State) (rest : List Input) (o : AAnswer), s.inputs = .answerA o :: rest → s.params.Documented →
    s.atu.Inv s.params →
    ∃ a, s.atu.receiveAnswer s.params o = .next a ∧ step s = .next { s with inputs := rest, atu := a }) ∧
  (∀ (s : State) (rest : List Input) (o : CAnswer), s.inputs = .answerC o :: rest → s.params.Documented →
    s.bsu.Inv s.params →
    ∃ b, s.bsu.receiveAnswer s.params o = .next b ∧ step s = .next { s with inputs := rest, bsu := b }) ∧
  (∀ (p : Params) (r : Rbu) (o : TAnswer),
    Rbu.advance p { r with answers := r.answers ++ [o] } = (r.advance p).receiveAnswer p o) ∧
  (∀ (p : Params) (a : Atu) (o : AAnswer), p.Documented → (a.Inv p ∨ ∃ a0 : Atu, a = a0.start) →
    Atu.advance p { a with answers := a.answers ++ [o] } = andThen (a.advance p) (Atu.receiveAnswer p o)) ∧
  (∀ (p : Params) (b : Bsu) (o : CAnswer), p.Documented →
    (b.Inv p ∨ ∃ b0 image t, image.length ≤ p.maxImage ∧ b = Bsu.load p image t b0) →
    Bsu.advance p { b with answers := b.answers ++ [o] } = andThen (b.advance p) (Bsu.receiveAnswer p o))

/-! ### Refusal, completion, frames -/

/-- R22, R24, R37, R103, R145 (the spec's decisions D12, D29): which commands are refused; the refused command leaves
the block unchanged, delivers no result, and the host's next command can follow. The mark is the model's (log 14). -/
def Obligations.RefusedCommandsChangeNothing : Prop :=
  ∀ (i : Instr) (s : State),
    (isBusCommand i = true → s.rbu.state ≠ .idle → exec i s = .refused (.turnedAway (.busy .rbu))) ∧
    (isBusCommand i = true → i ≠ .rbReestablish → s.rbu.state = .idle → s.rbu.linkOk = false →
      exec i s = .refused (.turnedAway .linkDown)) ∧
    (s.atu.state ≠ .idle → exec .atrReceive s = .refused (.turnedAway (.busy .atu))) ∧
    (∀ image, s.bsu.state ≠ .idle → exec (.bsProvision image) s = .refused (.turnedAway (.busy .bsu))) ∧
    (∀ image, s.bsu.state = .idle → s.bsu.ctrlOk = false →
      exec (.bsProvision image) s = .refused (.turnedAway .controlDown)) ∧
    (s.bsu.state ≠ .idle → exec .bsReestablish s = .refused (.turnedAway (.busy .bsu))) ∧
    (∀ (c : Command) (t : Timeout) (rest : List Input) (w : TurnedAway), s.inputs = .command c t :: rest →
      c.instr s.params = .next i → exec i { s with inputs := rest, cmdTimeout := t } = .refused (.turnedAway w) →
      step s = .next { s with inputs := rest, refused := s.refused ++ [w] })

/-- R15, R103, R107, R121: every command of a ready unit is accepted, whatever the environment answers and whatever
the other units do; then it has delivered exactly one result and the unit is Idle, or it waits with no result yet (log
1, log 2). -/
def Obligations.ReadyCommandsAreAccepted : Prop :=
  (∀ (i : Instr) (s : State), s.params.Documented → isBusCommand i = true → s.rbuReady →
    ∃ t, exec i s = .next t ∧
      ((t.rbu.state = .idle ∧ ∃ v, t.rbu.results = s.rbu.results ++ [v]) ∨
       (t.rbu.state ≠ .idle ∧ t.rbu.results = s.rbu.results))) ∧
  (∀ s : State, s.params.Documented → s.atu.state = .idle →
    ∃ t, exec .atrReceive s = .next t ∧
      ((t.atu.state = .idle ∧ ∃ v, t.atu.results = s.atu.results ++ [v]) ∨
       (t.atu.state ≠ .idle ∧ t.atu.results = s.atu.results))) ∧
  (∀ (image : Bytes) (s : State), s.params.Documented → s.bsuReady →
    ∃ t, exec (.bsProvision image) s = .next t ∧
      ((t.bsu.state = .idle ∧ ∃ v, t.bsu.results = s.bsu.results ++ [v]) ∨
       (t.bsu.state ≠ .idle ∧ t.bsu.results = s.bsu.results)))

/-- R1, R44, R58: a bus command leaves every register of the other units and every byte of both buffers unchanged; its
answers are taken from the front, its events are appended, at most one result is. -/
def Obligations.BusCommandsLeaveTheRest : Prop :=
  ∀ (i : Instr) (s t : State), s.params.Documented → isBusCommand i = true → exec i s = .next t →
    t = { s with rbu := t.rbu } ∧
    (∀ a, Memory.read t.atu.buf a = Memory.read s.atu.buf a ∧ Memory.read t.bsu.buf a = Memory.read s.bsu.buf a) ∧
    (∃ used, s.rbu.answers = used ++ t.rbu.answers) ∧ (∃ es, t.rbu.trace = s.rbu.trace ++ es) ∧
    (∃ vs, t.rbu.results = s.rbu.results ++ vs ∧ vs.length ≤ 1)

/-- R1, R27: ATR_RECEIVE leaves the other units unchanged, and every byte of ATR_BUF at or above ATR_CONSUMED. -/
def Obligations.AtrReceiveLeavesTheRest : Prop :=
  ∀ s t : State, s.params.Documented → exec .atrReceive s = .next t →
    t = { s with atu := t.atu } ∧
    (∀ a, t.atu.consumed ≤ a → Memory.read t.atu.buf a = Memory.read s.atu.buf a) ∧
    (∀ a, Memory.read t.bsu.buf a = Memory.read s.bsu.buf a) ∧
    (∃ used, s.atu.answers = used ++ t.atu.answers) ∧ (∃ es, t.atu.trace = s.atu.trace ++ es) ∧
    (∃ vs, t.atu.results = s.atu.results ++ vs ∧ vs.length ≤ 1)

/-- R1, R58, R134: the control commands and BS_REESTABLISH store nothing: every byte of both buffers is unchanged, and
so are BSU_LEN, BSU_REVERSED, BSU_PADDED and the other units; BS_PROVISION leaves the other units and ATR_BUF
unchanged. -/
def Obligations.BitstreamCommandsLeaveTheRest : Prop :=
  ∀ (i : Instr) (s t : State), exec i s = .next t →
    ((isControl i = true ∨ i = .bsReestablish) →
      t = { s with bsu := t.bsu } ∧
      (t.bsu.len, t.bsu.reversed, t.bsu.padded) = (s.bsu.len, s.bsu.reversed, s.bsu.padded) ∧
      (i = .bsReestablish → t.bsu.chunkIdx = s.bsu.chunkIdx) ∧
      (∀ a, Memory.read t.bsu.buf a = Memory.read s.bsu.buf a ∧ Memory.read t.atu.buf a = Memory.read s.atu.buf a)) ∧
    (∀ image, i = .bsProvision image →
      t = { s with bsu := t.bsu } ∧ ∀ a, Memory.read t.atu.buf a = Memory.read s.atu.buf a)

/-- R140 (the spec's own derivation): the errors a command can end with when it runs to its result. -/
def Obligations.CausesPerCommand : Prop :=
  ∀ (i : Instr) (s t : State) (e : Subcause), s.params.Documented → exec i s = .next t →
    resultsOf i t = resultsOf i s ++ [.err e] → e ∈ causes i

/-! ### The ATR parser -/

/-- R108: acceptance, before any outcome has arrived: two registers cleared, `ExpectInitial`, no port event. -/
def Obligations.AtrAcceptance : Prop :=
  ∀ s : State, s.atu.state = .idle → s.atu.answers = [] →
    exec .atrReceive s =
      .next { s with atu := { s.atu with consumed := 0, needsCheck := false, state := .expectInitial } }

/-- R109: `ExpectInitial`; the error of a wrong TS is the spec's decision D16. -/
def Obligations.AtrInitialState : Prop :=
  ∀ (p : Params) (a : Atu) (rest : List AAnswer), p.Documented → a.state = .expectInitial → a.consumed = 0 →
    (a.answers = .fail :: rest →
      a.step p = .next { a with state := .idle, answers := rest, trace := a.trace ++ [⟨2, .fail⟩]
                                results := a.results ++ [.err .peAtrRecv] }) ∧
    (∀ ts t0 : Byte, a.answers = .bytes [ts, t0] :: rest →
      let buf := Memory.write (Memory.write a.buf 0 ts) 1 t0
      (ts ≠ 0x3B →
        a.step p = .next { a with state := .idle, answers := rest, trace := a.trace ++ [⟨2, .bytes [ts, t0]⟩]
                                  buf := buf, consumed := 2, results := a.results ++ [.err .peAtrTs] }) ∧
      (ts = 0x3B →
        a.step p = .next { a with state := .expectInterfaceChain, answers := rest
                                  trace := a.trace ++ [⟨2, .bytes [ts, t0]⟩], buf := buf, consumed := 2
                                  k := t0.extractLsb' 0 4, tdx := t0 }))

/-- R110 to R112: `ExpectInterfaceChain`: the group's length, the capacity check before any request (its reading is
the spec's decision D17), the next TDx and the check-byte flag. -/
def Obligations.AtrInterfaceGroups : Prop :=
  ∀ (p : Params) (a : Atu) (rest : List AAnswer) (n : Nat), p.Documented → a.state = .expectInterfaceChain →
    a.consumed ≤ 32 →
    n = popcount4 (a.tdx.extractLsb' 4 4) →
    (n = 0 → a.step p = .next { a with state := .expectHistorical }) ∧
    (32 - a.consumed < n →
      a.step p = .next { a with state := .idle, results := a.results ++ [.err .peAtrMalformed] }) ∧
    (1 ≤ n → n ≤ 32 - a.consumed → a.answers = .fail :: rest →
      a.step p = .next { a with state := .idle, answers := rest, trace := a.trace ++ [⟨n, .fail⟩]
                                results := a.results ++ [.err .peAtrRecv] }) ∧
    (∀ (g : Bytes) (last : Byte), n ≤ 32 - a.consumed → (g ++ [last]).length = n →
      a.answers = .bytes (g ++ [last]) :: rest →
      a.step p = .next { a with
        answers := rest, trace := a.trace ++ [⟨n, .bytes (g ++ [last])⟩]
        buf := a.buf.writeN a.consumed (g ++ [last]), consumed := a.consumed + n
        tdx := if a.tdx.getLsbD 7 = true then last else 0x00
        needsCheck := if a.tdx.getLsbD 7 = true ∧ last.extractLsb' 0 4 ≠ 0 then true else a.needsCheck })

/-- R113, R114: `ExpectHistorical`; its capacity check and its skip are the spec's decisions D17, D18. -/
def Obligations.AtrHistoricalBytes : Prop :=
  ∀ (p : Params) (a : Atu) (rest : List AAnswer), p.Documented → a.state = .expectHistorical → a.consumed ≤ 32 →
    (a.k = 0 → a.step p = .next { a with state := .expectCheckByte }) ∧
    (32 - a.consumed < a.k.toNat →
      a.step p = .next { a with state := .idle, results := a.results ++ [.err .peAtrMalformed] }) ∧
    (a.k ≠ 0 → a.k.toNat ≤ 32 - a.consumed → a.answers = .fail :: rest →
      a.step p = .next { a with state := .idle, answers := rest, trace := a.trace ++ [⟨a.k.toNat, .fail⟩]
                                results := a.results ++ [.err .peAtrRecv] }) ∧
    (∀ h : Bytes, a.k ≠ 0 → a.k.toNat ≤ 32 - a.consumed → h.length = a.k.toNat → a.answers = .bytes h :: rest →
      a.step p = .next { a with
        state := .expectCheckByte, answers := rest, trace := a.trace ++ [⟨a.k.toNat, .bytes h⟩]
        buf := a.buf.writeN a.consumed h, consumed := a.consumed + h.length })

/-- R115 to R117: `ExpectCheckByte`, and the end: all bytes consumed are returned, or the error and no byte (the
capacity test, the error of a failed receive and the step to Idle are the spec's decisions D17, D20, D34). -/
def Obligations.AtrCheckByteAndEnd : Prop :=
  ∀ (p : Params) (a : Atu) (rest : List AAnswer) (got : Bytes), p.Documented → a.state = .expectCheckByte →
    a.consumed ≤ 32 →
    a.buf.readN 0 a.consumed = some got →
    (a.needsCheck = false → a.step p = .next { a with state := .idle, results := a.results ++ [.ok (.bytes got)] }) ∧
    (a.needsCheck = true → a.consumed = 32 →
      a.step p = .next { a with state := .idle, results := a.results ++ [.err .peAtrMalformed] }) ∧
    (a.needsCheck = true → a.consumed < 32 → a.answers = .fail :: rest →
      a.step p = .next { a with state := .idle, answers := rest, trace := a.trace ++ [⟨1, .fail⟩]
                                results := a.results ++ [.err .peAtrRecv] }) ∧
    (∀ c : Byte, a.needsCheck = true → a.consumed < 32 → a.answers = .bytes [c] :: rest →
      a.step p = .next { a with
        state := .idle, answers := rest, trace := a.trace ++ [⟨1, .bytes [c]⟩]
        buf := Memory.write a.buf a.consumed c, consumed := a.consumed + 1
        results := a.results ++ [.ok (.bytes (got ++ [c]))] })

/-- R74, R107, R116, R119, R120 (R119 is the spec's own derivation; that the check byte is not verified and
that the unit is Idle again with its result are the spec's decisions D19 and D34): an ATR of any layout within 32 bytes
is received by exactly the requests its own bytes declare, and returned whole; only TS is compared with a constant. -/
def Obligations.AtrOfAnyLayoutIsReturned : Prop :=
  ∀ (s : State) (t0 : Byte) (gs : List Bytes) (hist check : Bytes) (rest : List AAnswer),
    s.params.Documented → s.atu.state = .idle → groupsFrom t0 gs → hist.length = (t0.extractLsb' 0 4).toNat →
    check.length = (if checkDeclared t0 gs then 1 else 0) →
    let atr := [0x3B, t0] ++ gs.flatten ++ hist ++ check
    atr.length ≤ 32 →
    s.atu.answers = (atrReceives s.params t0 gs hist check).map AAnswer.bytes ++ rest →
    exec .atrReceive s =
      .next { s with atu := { s.atu with
        buf := s.atu.buf.writeN 0 atr, consumed := atr.length, k := t0.extractLsb' 0 4, tdx := lastTdx t0 gs
        needsCheck := checkDeclared t0 gs, answers := rest
        trace := s.atu.trace ++ (atrReceives s.params t0 gs hist check).map fun b => ⟨b.length, .bytes b⟩
        results := s.atu.results ++ [.ok (.bytes atr)] } }

/-- R111, R113, R115, R119: in one ATR_RECEIVE, whatever the port delivers, no request asks for no byte, and all
requests together ask for at most 32. -/
def Obligations.AtrNeverRequestsMoreThanTheBuffer : Prop :=
  ∀ s t : State, s.params.Documented → exec .atrReceive s = .next t →
    ∃ es, t.atu.trace = s.atu.trace ++ es ∧ (∀ e ∈ es, 1 ≤ e.n) ∧ (es.map fun e => e.n).sum ≤ 32

/-! ### The bitstream sequencer -/

/-- R122: the load, and the image that is too long (the limit is the spec's decision D27). -/
def Obligations.LoadCopiesTheImage : Prop :=
  ∀ (p : Params) (image : Bytes) (t : Timeout) (b : Bsu), p.Documented →
    (p.maxImage < image.length → b.load p image t = { b with state := .idle, results := b.results ++ [.err .ipLen] }) ∧
    (image.length ≤ p.maxImage →
      (b.load p image t).buf.readN 0 (512 + image.length) = some (List.replicate 512 0x00 ++ image) ∧
      (b.load p image t).len = 512 + image.length ∧ (b.load p image t).reversed = false ∧
      (b.load p image t).padded = false ∧ (b.load p image t).chunkIdx = 0 ∧ (b.load p image t).state = .detect)

/-- R123 (the first occurrence is the spec's decision D26): the search finds the least offset at which the marker
stands, or none. -/
def Obligations.MarkerSearchFindsTheFirst : Prop :=
  ∀ (marker bytes : Bytes), marker ≠ [] →
    (∀ i, findMarker marker 0 bytes = some i ↔ firstAt marker bytes i) ∧
    (findMarker marker 0 bytes = none ↔ ∀ i, marker.isPrefixOf (bytes.drop i) = false)

/-- R124, R125: no marker fails before any request; the reversed marker first reverses every byte; otherwise the
buffer is unchanged. -/
def Obligations.DetectDecidesTheBitOrder : Prop :=
  ∀ (p : Params) (b : Bsu) (bytes : Bytes), p.Documented → b.buf.readN 0 b.len = some bytes →
    b.len ≤ bsuCapacity p →
    let pN := findMarker [0xAA, 0x99, 0x55, 0x66] 0 bytes
    let pR := findMarker [0x55, 0x99, 0xAA, 0x66] 0 bytes
    (pN = none → pR = none → b.detect p = .next { b with state := .idle, results := b.results ++ [.err .peSync] }) ∧
    (∀ r, pR = some r → (pN = none ∨ ∃ n, pN = some n ∧ r ≤ n) →
      ∃ m, b.detect p = .next { b with buf := m, reversed := true, state := .pad } ∧
        m.readN 0 b.len = some (bytes.map bitrev8)) ∧
    (∀ n, pN = some n → (pR = none ∨ ∃ r, pR = some r ∧ n < r) → b.detect p = .next { b with state := .pad })

/-- R126 (the reading of its length is the spec's decision D21): one zero byte is appended exactly if the whole length
is a multiple of 64. -/
def Obligations.PadAppendsOneZeroByte : Prop :=
  ∀ (p : Params) (b : Bsu), p.Documented → b.len < bsuCapacity p →
    (b.len % 64 = 0 →
      b.padStep p = .next { b with buf := Memory.write b.buf b.len 0x00, len := b.len + 1, padded := true
                                   state := .resetCmd }) ∧
    (b.len % 64 ≠ 0 → b.padStep p = .next { b with state := .resetCmd })

/-- R72, R127: CTRL_RESET and CTRL_RESET_ALT: an empty payload, the acknowledged length unchecked (the spec's decision
D25). With no outcome ready the unit waits (log 2); the row as an instruction of the BSU is log 15. -/
def Obligations.ControlResetFollowsItsRule : Prop :=
  ∀ (v : OpVariant) (s : State) (rest : List CAnswer), s.bsu.state = .resetCmd → s.params.resetOp = v →
    let ev (o : WriteOutcome) := cwrite (if v = .main then 0x31 else 0x60) [] s.bsu.timeout o
    (s.bsu.answers = [] → exec (controlInstr .reset v) s = .next s) ∧
    (∀ m, s.bsu.answers = .write (.transferred m) :: rest →
      exec (controlInstr .reset v) s = .next { s with bsu := { s.bsu with
        state := .sendChunk, answers := rest, trace := s.bsu.trace ++ [ev (.transferred m)] } }) ∧
    (s.bsu.answers = .write .timeout :: rest →
      exec (controlInstr .reset v) s = .next { s with bsu := { s.bsu with
        state := .idle, ctrlOk := false, answers := rest, trace := s.bsu.trace ++ [ev .timeout]
        results := s.bsu.results ++ [.err .toCtrl] } }) ∧
    (s.bsu.answers = .write .transferError :: rest →
      exec (controlInstr .reset v) s = .next { s with bsu := { s.bsu with
        state := .idle, answers := rest, trace := s.bsu.trace ++ [ev .transferError]
        results := s.bsu.results ++ [.err .teCtrl] } })

/-- R72, R129, R130: CTRL_SEND_CHUNK and CTRL_SEND_CHUNK_ALT: the chunk BSU_CHUNK_IDX names is sent once; a wrong
acknowledged length fails the upload; the status read follows the last chunk. With no outcome ready the unit waits
(log 2); the row as an instruction of the BSU is log 15. -/
def Obligations.ControlSendChunkFollowsItsRule : Prop :=
  ∀ (v : OpVariant) (s : State) (rest : List CAnswer) (c : Bytes),
    s.bsu.state = .sendChunk → s.params.chunkOp = v → s.bsu.chunkIdx < chunkCount s.params s.bsu.len →
    s.bsu.buf.readN (s.bsu.chunkIdx * s.params.chunk) (chunkLen s.params s.bsu.len s.bsu.chunkIdx) = some c →
    let ev (o : WriteOutcome) := cwrite (if v = .main then 0x32 else 0x34) c s.bsu.timeout o
    (s.bsu.answers = [] → exec (controlInstr .sendChunk v) s = .next s) ∧
    (s.bsu.answers = .write (.transferred c.length) :: rest →
      exec (controlInstr .sendChunk v) s = .next { s with bsu := { s.bsu with
        state := if s.bsu.chunkIdx + 1 < chunkCount s.params s.bsu.len then .sendChunk else .status
        chunkIdx := s.bsu.chunkIdx + 1, answers := rest
        trace := s.bsu.trace ++ [ev (.transferred c.length)] } }) ∧
    (∀ m, m ≠ c.length → s.bsu.answers = .write (.transferred m) :: rest →
      exec (controlInstr .sendChunk v) s = .next { s with bsu := { s.bsu with
        state := .idle, answers := rest, trace := s.bsu.trace ++ [ev (.transferred m)]
        results := s.bsu.results ++ [.err .peChunkLen] } }) ∧
    (s.bsu.answers = .write .timeout :: rest →
      exec (controlInstr .sendChunk v) s = .next { s with bsu := { s.bsu with
        state := .idle, ctrlOk := false, answers := rest, trace := s.bsu.trace ++ [ev .timeout]
        results := s.bsu.results ++ [.err .toCtrl] } }) ∧
    (s.bsu.answers = .write .transferError :: rest →
      exec (controlInstr .sendChunk v) s = .next { s with bsu := { s.bsu with
        state := .idle, answers := rest, trace := s.bsu.trace ++ [ev .transferError]
        results := s.bsu.results ++ [.err .teCtrl] } })

/-- R72, R73, R131, R132: CTRL_STATUS and CTRL_STATUS_ALT: no byte, a zero byte 0, or a nonzero one, which alone
completes the upload; later bytes are ignored (the empty reply is the spec's decision D24). With no outcome ready the
unit waits (log 2); the row as an instruction of the BSU is log 15. -/
def Obligations.ControlStatusFollowsItsRule : Prop :=
  ∀ (v : OpVariant) (s : State) (rest : List CAnswer), s.bsu.state = .status → s.params.statusOp = v →
    let ev (o : ReadOutcome) := cread (if v = .main then 0x30 else 0x33) s.params.statusLen s.bsu.timeout o
    let ends (o : ReadOutcome) (ok : Bool) (r : Result) : State := { s with bsu := { s.bsu with
      state := .idle, ctrlOk := ok, answers := rest, trace := s.bsu.trace ++ [ev o]
      results := s.bsu.results ++ [r] } }
    (s.bsu.answers = [] → exec (controlInstr .status v) s = .next s) ∧
    (s.bsu.answers = .read (.bytes []) :: rest →
      exec (controlInstr .status v) s = .next (ends (.bytes []) s.bsu.ctrlOk (.err .peStatusShort))) ∧
    (∀ (c : Byte) (more : Bytes), more.length + 1 ≤ s.params.statusLen →
      s.bsu.answers = .read (.bytes (c :: more)) :: rest →
      exec (controlInstr .status v) s =
        .next (ends (.bytes (c :: more)) s.bsu.ctrlOk (if c = 0x00 then .err .peNotConfigured else .ok .none))) ∧
    (s.bsu.answers = .read .timeout :: rest →
      exec (controlInstr .status v) s = .next (ends .timeout false (.err .toCtrl))) ∧
    (s.bsu.answers = .read .transferError :: rest →
      exec (controlInstr .status v) s = .next (ends .transferError s.bsu.ctrlOk (.err .teCtrl)))

/-- The model's choice (log 15), from R72 and R121: a control command that BSU_STATE or its opcode parameter does not
select is refused; the one selected never is. -/
def Obligations.ControlCommandsRunOnlyInTurn : Prop :=
  ∀ (k : ControlKind) (v : OpVariant) (s : State),
    exec (controlInstr k v) s = .refused .controlNotSelected ↔
      ¬ (s.bsu.selected = some k ∧ variantOf s.params k = v)

/-- R128: the chunks are the whole buffer, in order, with no gap and no overlap; every one but the last has 2048
bytes, the last 1 to 2048; and chunk j is the slice that send-chunk reads. -/
def Obligations.ChunksPartitionTheBuffer : Prop :=
  ∀ (p : Params) (bytes : Bytes), p.Documented → bytes ≠ [] →
    (chunksOf p bytes).flatten = bytes ∧
    (∀ c ∈ (chunksOf p bytes).dropLast, c.length = 2048) ∧
    (∀ c ∈ (chunksOf p bytes).getLast?, 1 ≤ c.length ∧ c.length ≤ 2048) ∧
    (∀ j, j < chunkCount p bytes.length →
      (Memory.ofBytes 0 bytes).readN (j * 2048) (chunkLen p bytes.length j) = (chunksOf p bytes)[j]?)

/-- R136 (the spec's own derivation): the last chunk's length is never a multiple of 64. -/
def Obligations.LastChunkIsNoMultipleOfThePacketSize : Prop :=
  ∀ (p : Params) (image : Bytes), p.Documented →
    ∃ c, (chunksOf p (uploadBytes p image)).getLast? = some c ∧ c.length % 64 ≠ 0

/-- R121 to R133: an upload, from the image to its result, whatever the control channel answers: one reset, the chunks
in order, one status read; the first failure ends it. `UploadEnd` and the registers named are all that changes. The
length the pad looks at, the status reply's length, the unchecked length of the reset command, the first marker found and
the step to Idle are the spec's decisions D21, D24, D25, D26 and D34. -/
def Obligations.ProvisionUploadsTheImage : Prop :=
  ∀ (s : State) (image : Bytes) (e : UploadEnd), s.params.Documented → s.bsuReady →
    image.length ≤ s.params.maxImage → syncMissing s.params image = false →
    uploadSpec s.params s.cmdTimeout (chunksOf s.params (uploadBytes s.params image)) s.bsu.answers = some e →
    exec (.bsProvision image) s =
      .next { s with bsu := { s.bsu with
        buf := Memory.ofBytes 0 (uploadBytes s.params image), len := (uploadBytes s.params image).length
        reversed := imageReversed s.params image
        padded := needsPad s.params (framedImage s.params image).length, chunkIdx := e.sent
        ctrlOk := !e.late, timeout := s.cmdTimeout, answers := e.rest
        trace := s.bsu.trace ++ e.events, results := s.bsu.results ++ [e.result] } }

/-- R122, R124 (the limit is the spec's decision D27): an image that is too long, and one without a marker, end the
upload with no control request. -/
def Obligations.ProvisionRejectsTheImage : Prop :=
  ∀ (s : State) (image : Bytes), s.params.Documented → s.bsuReady →
    (s.params.maxImage < image.length →
      exec (.bsProvision image) s =
        .next { s with bsu := { s.bsu with results := s.bsu.results ++ [.err .ipLen] } }) ∧
    (image.length ≤ s.params.maxImage → syncMissing s.params image = true →
      exec (.bsProvision image) s =
        .next { s with bsu := { s.bsu with
          buf := Memory.ofBytes 0 (framedImage s.params image), len := 512 + image.length, reversed := false, padded := false
          chunkIdx := 0, timeout := s.cmdTimeout, results := s.bsu.results ++ [.err .peSync] } })

/-- R134 (the spec's decision D12): BS_REESTABLISH, accepted whenever Idle: CTRL_OK becomes 1, the result is Ok, no
port event. -/
def Obligations.BsReestablishSetsCtrlOk : Prop :=
  ∀ s : State, s.bsu.state = .idle →
    exec .bsReestablish s =
      .next { s with bsu := { s.bsu with ctrlOk := true, results := s.bsu.results ++ [.ok .none] } }

/-- R37, R135 (the spec's decision D12): an upload leaves CTRL_OK = 0 exactly if one of its outcomes was a Timeout. -/
def Obligations.ChannelFallsExactlyOnTimeout : Prop :=
  ∀ (image : Bytes) (s t : State), s.params.Documented → s.bsuReady → exec (.bsProvision image) s = .next t →
    ∃ es, t.bsu.trace = s.bsu.trace ++ es ∧ (t.bsu.ctrlOk = false ↔ ∃ e ∈ es, e.isTimeout = true)

/-! ### The whole block -/

/-- Every step keeps the invariant of the block: buffers canonical, written and within capacity, ATR_CONSUMED at most
32, every resting unit Idle or waiting on a request its rules allow, every event within its port's rule, every frame
sent with a valid opcode and address (R16 to R19, R25 to R28, R32, R33, R70, R71, R118, R136). -/
def Obligations.StepKeepsTheInvariant : Prop :=
  ∀ s t : State, s.Inv → step s = .next t → t.Inv

/-- R40 (the spec's own derivation): no step from a state that meets the invariant reads a buffer byte before it was
written, or writes beyond a buffer: no step faults. -/
def Obligations.NoStepReadsBeforeWriting : Prop :=
  ∀ (s : State) (f : Fault), s.Inv → step s ≠ .fault f

/-- R1, R151: what a command does to its unit depends on nothing of the other units: two states that agree on the
unit, the parameters and the timeout agree on the unit afterwards, and neither moves another unit; or both stop alike.
For the bus commands and RBU, ATR_RECEIVE and ATU, the uploads with their control commands and BSU. -/
def Obligations.UnitsShareNoState : Prop :=
  (∀ (i : Instr) (s s' : State), isBusCommand i = true → s.rbu = s'.rbu → s.params = s'.params →
    s.cmdTimeout = s'.cmdTimeout →
    (∀ t, exec i s = .next t → ∃ t', exec i s' = .next t' ∧ t'.rbu = t.rbu ∧ t'.atu = s'.atu ∧ t'.bsu = s'.bsu) ∧
    (∀ r, exec i s = .refused r → exec i s' = .refused r) ∧ (∀ f, exec i s = .fault f → exec i s' = .fault f)) ∧
  (∀ s s' : State, s.atu = s'.atu → s.params = s'.params →
    (∀ t, exec .atrReceive s = .next t →
      ∃ t', exec .atrReceive s' = .next t' ∧ t'.atu = t.atu ∧ t'.rbu = s'.rbu ∧ t'.bsu = s'.bsu) ∧
    (∀ r, exec .atrReceive s = .refused r → exec .atrReceive s' = .refused r) ∧
    (∀ f, exec .atrReceive s = .fault f → exec .atrReceive s' = .fault f)) ∧
  (∀ (i : Instr) (s s' : State), isUploadCommand i = true → s.bsu = s'.bsu → s.params = s'.params →
    s.cmdTimeout = s'.cmdTimeout →
    (∀ t, exec i s = .next t → ∃ t', exec i s' = .next t' ∧ t'.bsu = t.bsu ∧ t'.rbu = s'.rbu ∧ t'.atu = s'.atu) ∧
    (∀ r, exec i s = .refused r → exec i s' = .refused r) ∧ (∀ f, exec i s = .fault f → exec i s' = .fault f))

/-- R16, R38; that the logs stay is the model's choice (log 8, log 18): no step writes a parameter, and the traces and
results only grow. -/
def Obligations.ParametersAndLogsArePermanent : Prop :=
  ∀ s t : State, step s = .next t →
    t.params = s.params ∧
    s.rbu.trace <+: t.rbu.trace ∧ s.atu.trace <+: t.atu.trace ∧ s.bsu.trace <+: t.bsu.trace ∧
    s.rbu.results <+: t.rbu.results ∧ s.atu.results <+: t.atu.results ∧ s.bsu.results <+: t.bsu.results

/-- The model's own interface (log 14, log 16): a step runs the instruction of the next command: of its frame, if the
bytes decode, or of its name; around it the step takes the input and the timeout, and marks a refusal. -/
def Obligations.StepRunsTheCommand : Prop :=
  ∀ (s : State) (t : Timeout) (rest : List Input) (i : Instr),
    (∀ b, s.inputs = .command (.code b) t :: rest → decode s.params (.frame b) = .ok i →
      step s = markRefused { s with inputs := rest } (exec i { s with inputs := rest, cmdTimeout := t })) ∧
    (s.inputs = .command (.host i) t :: rest → isControl i = false →
      step s = markRefused { s with inputs := rest } (exec i { s with inputs := rest, cmdTimeout := t }))

/-- The model's own interface (log 15, log 16): a control turn runs the control command whose opcode BSU_STATE and the
parameters select (R121; log 15). -/
def Obligations.StepRunsTheControlCommand : Prop :=
  ∀ (s : State) (rest : List Input), s.inputs = .control :: rest →
    (∀ k, s.bsu.selected = some k →
      step s = exec (controlInstr k (variantOf s.params k)) { s with inputs := rest } ∧
      decode s.params (.control (controlByte k (variantOf s.params k))) = .ok (controlInstr k (variantOf s.params k))) ∧
    (s.bsu.selected = none → step s = .next { s with inputs := rest })

/-- R4 and 93_implementation_defined.md row 15: every constant of R4 is a field of the parameters, and the block after
reset has the document's values in them; the fields with a default of the spec's own (D10, D22, D24) have it. The three
OPEN fields are left out: SEQ_INIT is the model's choice (log 9), the other two have no value (log 8). -/
def Obligations.ResetHasTheDocumentedConstants : Prop :=
  let p := State.reset.params
  p.Documented ∧
  (p.seqBits, p.addrBits, p.addrLimit, p.valueBits, p.lenBits, p.streamLenMax) = (8, 16, 0xFFFF, 32, 16, 0xFFFF) ∧
  (p.echoLen, p.ackLen, p.pollDelayMs) = (2, 2, 5) ∧
  [p.opWrite, p.opRead, p.opStreamWrite, p.opStreamRead, p.opFlush] = [0x01, 0x02, 0x03, 0x04, 0xFF] ∧
  (p.atrTs, p.atrMax) = (0x3B, 32) ∧ (p.prefixLen, p.mps, p.chunk) = (512, 64, 2048) ∧
  p.syncN = [0xAA, 0x99, 0x55, 0x66] ∧ p.syncR = [0x55, 0x99, 0xAA, 0x66] ∧
  p.echoRule = .always ∧ (∀ req echo, echoOk p req echo = true) ∧ p.statusLen = 1 ∧
  [ControlKind.reset, .sendChunk, .status].map (fun k => controlByte k (variantOf p k)) = [0x31, 0x32, 0x30]
end

