-- ==== Sys2Proof/Laws/Params.lean ====
section
/-! SUPPORT. The parameters of a build that keeps the document's values (R4): one lemma per field, so that a law says the
value and no proof unfolds the parameters. -/

namespace Sys2Proof

/-- The build the reset state has keeps the document's values (R4). -/
theorem Params.defaults_documented : Params.defaults.Documented := by constructor <;> rfl

variable (p : Params) [d : p.Documented]

@[simp] theorem Params.seqBits_doc : p.seqBits = 8 := d.seqBits
@[simp] theorem Params.addrBits_doc : p.addrBits = 16 := d.addrBits
@[simp] theorem Params.addrLimit_doc : p.addrLimit = 0xFFFF := d.addrLimit
@[simp] theorem Params.valueBits_doc : p.valueBits = 32 := d.valueBits
@[simp] theorem Params.lenBits_doc : p.lenBits = 16 := d.lenBits
@[simp] theorem Params.streamLenMax_doc : p.streamLenMax = 0xFFFF := d.streamLenMax
@[simp] theorem Params.echoLen_doc : p.echoLen = 2 := d.echoLen
@[simp] theorem Params.ackLen_doc : p.ackLen = 2 := d.ackLen
@[simp] theorem Params.opWrite_doc : p.opWrite = 0x01 := d.opWrite
@[simp] theorem Params.opRead_doc : p.opRead = 0x02 := d.opRead
@[simp] theorem Params.opStreamWrite_doc : p.opStreamWrite = 0x03 := d.opStreamWrite
@[simp] theorem Params.opStreamRead_doc : p.opStreamRead = 0x04 := d.opStreamRead
@[simp] theorem Params.opFlush_doc : p.opFlush = 0xFF := d.opFlush
@[simp] theorem Params.pollDelayMs_doc : p.pollDelayMs = 5 := d.pollDelayMs
@[simp] theorem Params.atrTs_doc : p.atrTs = 0x3B := d.atrTs
@[simp] theorem Params.atrMax_doc : p.atrMax = 32 := d.atrMax
@[simp] theorem Params.prefixLen_doc : p.prefixLen = 512 := d.prefixLen
@[simp] theorem Params.mps_doc : p.mps = 64 := d.mps
@[simp] theorem Params.chunk_doc : p.chunk = 2048 := d.chunk
@[simp] theorem Params.syncN_doc : p.syncN = [0xAA, 0x99, 0x55, 0x66] := d.syncN
@[simp] theorem Params.syncR_doc : p.syncR = [0x55, 0x99, 0xAA, 0x66] := d.syncR
@[simp] theorem Params.valueLen_doc : p.valueLen = 4 := by simp [Params.valueLen]

/-- Choosing another opcode variant keeps the document's values (R72). -/
theorem Machine.withVariant_documented (k : ControlKind) (v : OpVariant) : (Machine.withVariant p k v).Documented := by
  cases k <;> exact ⟨d.seqBits, d.addrBits, d.addrLimit, d.valueBits, d.lenBits, d.streamLenMax, d.echoLen, d.ackLen,
    d.opWrite, d.opRead, d.opStreamWrite, d.opStreamRead, d.opFlush, d.pollDelayMs, d.atrTs, d.atrMax, d.prefixLen,
    d.mps, d.chunk, d.syncN, d.syncR⟩

/-- With eight bits, SEQ counts mod 256 (R91). -/
@[simp] theorem Machine.seqAfter_doc (seq : Byte) (n : Nat) :
    Machine.seqAfter p seq n = seq + BitVec.ofNat 8 n := by
  apply BitVec.eq_of_toNat_eq
  simp [Machine.seqAfter, BitVec.toNat_add]

end Sys2Proof
end

