-- ==== Sys2Proof/Laws/Memory.lean ====
section
/-! SUPPORT. The unit-local buffers: the canonical form is kept by every operation; what is read after what was written. -/

namespace Sys2Proof.Machine

/-- Read after write. -/
theorem Memory.read_write (m : Memory) (a : Nat) (b : Byte) (c : Nat) :
    Memory.read (Memory.write m a b) c = if c = a then some b else Memory.read m c := by
  induction m with
  | nil => simp [Memory.write, Memory.read]
  | cons x m ih =>
    obtain ⟨k, v⟩ := x
    simp only [Memory.write]
    split
    · simp [Memory.read]
    · split
      · subst_vars; simp only [Memory.read]; split <;> simp_all
      · simp only [Memory.read, ih]
        by_cases h1 : c = k
        · subst h1; rw [if_pos rfl, if_neg (by omega), if_pos rfl]
        · rw [if_neg h1, if_neg h1]

theorem Memory.mem_write {m : Memory} {a : Nat} {b : Byte} {x : Host.Cell} (h : x ∈ Memory.write m a b) :
    x = (a, b) ∨ x ∈ m := by
  induction m with
  | nil => simpa [Memory.write] using h
  | cons y m ih =>
    obtain ⟨k, v⟩ := y
    simp only [Memory.write] at h
    split at h
    · simpa using h
    · split at h
      · simp only [List.mem_cons] at h ⊢; tauto
      · simp only [List.mem_cons] at h ⊢
        rcases h with h | h
        · tauto
        · have := ih h; tauto

/-- A write keeps the canonical form. -/
theorem Memory.write_wf {m : Memory} (h : m.wf) (a : Nat) (b : Byte) : (Memory.write m a b).wf := by
  induction m with
  | nil => simp [Memory.write, Memory.wf]
  | cons y m ih =>
    obtain ⟨k, v⟩ := y
    simp only [Memory.wf, List.pairwise_cons] at h
    simp only [Memory.write]
    split
    · rename_i hlt
      simp only [Memory.wf, List.pairwise_cons, List.mem_cons]
      refine ⟨?_, h⟩
      rintro x (rfl | hx)
      · exact hlt
      · exact lt_trans hlt (h.1 x hx)
    · split
      · subst_vars; simp only [Memory.wf, List.pairwise_cons]; exact h
      · simp only [Memory.wf, List.pairwise_cons]
        refine ⟨?_, ih h.2⟩
        intro x hx
        rcases Memory.mem_write hx with rfl | hx
        · simp only; omega
        · exact h.1 x hx

/-- A block write keeps the canonical form. -/
theorem Memory.writeN_wf {m : Memory} (h : m.wf) (a : Nat) (bs : Bytes) : (Memory.writeN m a bs).wf := by
  induction bs generalizing m a with
  | nil => exact h
  | cons b bs ih => exact ih (Memory.write_wf h a b) (a + 1)

/-- A write below the capacity keeps the buffer within it. -/
theorem Memory.write_within {m : Memory} {cap : Nat} (h : Memory.within m cap) {a : Nat} (ha : a < cap) (b : Byte) :
    Memory.within (Memory.write m a b) cap := by
  intro x hx
  rcases Memory.mem_write hx with rfl | hx
  · exact ha
  · exact h x hx

theorem Memory.writeN_within {m : Memory} {cap : Nat} (h : Memory.within m cap) {a : Nat} {bs : Bytes}
    (ha : a + bs.length ≤ cap) : Memory.within (Memory.writeN m a bs) cap := by
  induction bs generalizing m a with
  | nil => exact h
  | cons b bs ih =>
    simp only [List.length_cons] at ha
    exact ih (Memory.write_within h (by omega) b) (by omega)

/-- Read after a block write. -/
theorem Memory.read_writeN (m : Memory) (a : Nat) (bs : Bytes) (c : Nat) :
    Memory.read (Memory.writeN m a bs) c = if a ≤ c ∧ c < a + bs.length then bs[c - a]? else Memory.read m c := by
  induction bs generalizing m a with
  | nil => simp only [Memory.writeN, List.length_nil]; rw [if_neg (by omega)]
  | cons b bs ih =>
    simp only [Memory.writeN, ih, Memory.read_write, List.length_cons]
    by_cases h1 : c = a
    · subst h1; simp
    · by_cases h2 : a + 1 ≤ c ∧ c < a + 1 + bs.length
      · rw [if_pos h2, if_pos (by omega)]
        have : c - a = (c - (a + 1)) + 1 := by omega
        rw [this, List.getElem?_cons_succ]
      · rw [if_neg h2, if_neg h1, if_neg (by omega)]

theorem Memory.mem_ofBytes {a : Nat} {bs : Bytes} {x : Host.Cell} (h : x ∈ Memory.ofBytes a bs) :
    a ≤ x.1 ∧ x.1 < a + bs.length := by
  induction bs generalizing a with
  | nil => simp [Memory.ofBytes] at h
  | cons b bs ih =>
    simp only [Memory.ofBytes, List.mem_cons] at h
    rcases h with rfl | h
    · simp
    · have := ih h; simp only [List.length_cons]; omega

/-- A loaded buffer is in the canonical form. -/
theorem Memory.ofBytes_wf (a : Nat) (bs : Bytes) : (Memory.ofBytes a bs).wf := by
  induction bs generalizing a with
  | nil => simp [Memory.ofBytes, Memory.wf]
  | cons b bs ih =>
    simp only [Memory.ofBytes, Memory.wf, List.pairwise_cons]
    refine ⟨fun x hx => ?_, ih (a + 1)⟩
    have := Memory.mem_ofBytes hx; omega

theorem Memory.read_ofBytes (a : Nat) (bs : Bytes) (c : Nat) :
    Memory.read (Memory.ofBytes a bs) c = if a ≤ c then bs[c - a]? else none := by
  induction bs generalizing a with
  | nil => simp [Memory.ofBytes, Memory.read]
  | cons b bs ih =>
    simp only [Memory.ofBytes, Memory.read, ih]
    by_cases h : c = a
    · subst h; simp
    · rw [if_neg h]
      by_cases h2 : a + 1 ≤ c
      · rw [if_pos h2, if_pos (by omega)]
        have : c - a = (c - (a + 1)) + 1 := by omega
        rw [this, List.getElem?_cons_succ]
      · rw [if_neg h2, if_neg (by omega)]

/-- What a block read answers, byte by byte. -/
theorem Memory.readN_eq_some {m : Memory} {a n : Nat} {bs : Bytes} :
    Memory.readN m a n = some bs ↔ bs.length = n ∧ ∀ i, i < n → Memory.read m (a + i) = bs[i]? := by
  induction n generalizing a bs with
  | zero => 
    simp only [Memory.readN, Option.some.injEq]
    constructor
    · rintro rfl; simp
    · rintro ⟨h, _⟩; exact (List.length_eq_zero_iff.mp h).symm
  | succ n ih =>
    simp only [Memory.readN]
    constructor
    · intro h
      split at h <;> simp only [Option.some.injEq, reduceCtorEq] at h
      rename_i b bs' hb hbs
      subst h
      obtain ⟨hl, hr⟩ := ih.mp hbs
      refine ⟨by simp [hl], fun i hi => ?_⟩
      cases i with
      | zero => simpa using hb
      | succ i => have := hr i (by omega); rw [List.getElem?_cons_succ, ← this]; congr 1; omega
    · rintro ⟨hl, hr⟩
      cases bs with
      | nil => simp at hl
      | cons b bs =>
        have h0 := hr 0 (by omega)
        have hs : Memory.readN m (a + 1) n = some bs := ih.mpr ⟨by simpa using hl, fun i hi => by
          have := hr (i + 1) (by omega); rw [List.getElem?_cons_succ] at this; rw [← this]; congr 1; omega⟩
        simp only [Nat.add_zero, List.getElem?_cons_zero] at h0
        rw [h0, hs]

theorem Memory.readN_isSome {m : Memory} {a n : Nat} (h : ∀ i, i < n → (Memory.read m (a + i)).isSome = true) :
    ∃ bs, Memory.readN m a n = some bs := by
  induction n generalizing a with
  | zero => exact ⟨[], rfl⟩
  | succ n ih =>
    obtain ⟨bs, hbs⟩ := ih (a := a + 1) fun i hi => by
      have := h (i + 1) (by omega); rwa [show a + (i + 1) = a + 1 + i by omega] at this
    obtain ⟨b, hb⟩ := Option.isSome_iff_exists.mp (h 0 (by omega))
    simp only [Nat.add_zero] at hb
    exact ⟨b :: bs, by simp only [Memory.readN, hb, hbs]⟩

theorem Memory.readN_ofBytes (a : Nat) (bs : Bytes) : Memory.readN (Memory.ofBytes a bs) a bs.length = some bs := by
  rw [Memory.readN_eq_some]
  refine ⟨rfl, fun i _ => ?_⟩
  rw [Memory.read_ofBytes, if_pos (by omega)]; congr 1; omega

theorem Memory.readN_ofBytes_all (bs : Bytes) (n : Nat) (h : bs.length = n) :
    (Memory.ofBytes 0 bs).readN 0 n = some bs := by
  subst h; exact Memory.readN_ofBytes 0 bs

theorem Memory.readN_writeN_end (m : Memory) (n : Nat) (bs got : Bytes) (h : m.readN 0 n = some got) :
    (m.writeN n bs).readN 0 (n + bs.length) = some (got ++ bs) := by
  rw [Memory.readN_eq_some] at h ⊢
  obtain ⟨hl, hr⟩ := h
  refine ⟨by simp [hl], fun i hi => ?_⟩
  rw [Memory.read_writeN]
  simp only [Nat.zero_add] at hr ⊢
  by_cases h1 : i < n
  · rw [if_neg (by omega), hr i h1, List.getElem?_append_left (by omega)]
  · rw [if_pos (by omega), List.getElem?_append_right (by omega), hl]

theorem Memory.readN_writeN_same (m : Memory) (a : Nat) (bs : Bytes) :
    (m.writeN a bs).readN a bs.length = some bs := by
  rw [Memory.readN_eq_some]; refine ⟨rfl, fun i hi => ?_⟩
  rw [Memory.read_writeN, if_pos (by omega)]; congr 1; omega

theorem Memory.readN_length {m : Memory} {a n : Nat} {bs : Bytes} (h : m.readN a n = some bs) : bs.length = n :=
    (Memory.readN_eq_some.mp h).1

theorem Memory.writeN_append (m : Memory) (a : Nat) (xs ys : Bytes) :
    (m.writeN a xs).writeN (a + xs.length) ys = m.writeN a (xs ++ ys) := by
  induction xs generalizing m a with
  | nil => simp [Memory.writeN]
  | cons x xs ih =>
    simp only [Memory.writeN, List.length_cons, List.cons_append]
    rw [show a + (xs.length + 1) = a + 1 + xs.length by omega, ih]

theorem Memory.writeN_cons_gt (k : Nat) (v : Byte) (m : Memory) (a : Nat) (bs : Bytes) (h : k < a) :
    Memory.writeN ((k, v) :: m) a bs = (k, v) :: Memory.writeN m a bs := by
  induction bs generalizing m a with
  | nil => rfl
  | cons b bs ih =>
    simp only [Memory.writeN]
    rw [show Memory.write ((k, v) :: m) a b = (k, v) :: Memory.write m a b by
      simp only [Memory.write]; rw [if_neg (by omega), if_neg (by omega)]]
    exact ih _ _ (by omega)

theorem Memory.writeN_ofBytes (a : Nat) (bs cs : Bytes) (h : cs.length = bs.length) :
    Memory.writeN (Memory.ofBytes a bs) a cs = Memory.ofBytes a cs := by
  induction bs generalizing a cs with
  | nil => cases cs with
    | nil => rfl
    | cons _ _ => simp at h
  | cons b bs ih =>
    cases cs with
    | nil => simp at h
    | cons c cs =>
      simp only [Memory.writeN, Memory.ofBytes, Memory.write, lt_self_iff_false, if_false, if_true]
      rw [Memory.writeN_cons_gt _ _ _ _ _ (by omega), ih (a + 1) cs (by simpa using h)]

theorem Memory.write_ofBytes_end (a : Nat) (bs : Bytes) (b : Byte) :
    Memory.write (Memory.ofBytes a bs) (a + bs.length) b = Memory.ofBytes a (bs ++ [b]) := by
  induction bs generalizing a with
  | nil => simp [Memory.ofBytes, Memory.write]
  | cons c bs ih =>
    simp only [Memory.ofBytes, Memory.write, List.length_cons, List.cons_append]
    rw [if_neg (by omega), if_neg (by omega), show a + (bs.length + 1) = a + 1 + bs.length by omega, ih]

theorem Memory.written_writeN {m : Memory} {n : Nat} (h : Memory.written m n) (b : Bytes) : Memory.written
    (m.writeN n b) (n + b.length) := by
  intro x hx
  rw [Memory.read_writeN]
  split
  · rename_i h1; rw [List.getElem?_eq_getElem (by omega)]; rfl
  · exact h x (by omega)

theorem Memory.written_readN {m : Memory} {n : Nat} (h : Memory.written m n) : ∃ b, m.readN 0 n = some b :=
  Memory.readN_isSome fun i hi => by rw [Nat.zero_add]; exact h i hi

theorem Memory.written_chunk {p : Params} {m : Memory} {len j : Nat} (h : Memory.written m len) : ∃ c, m.readN (j * p.chunk)
    (chunkLen p len j) = some c ∧ c.length = chunkLen p len j := by
  obtain ⟨c, hc⟩ := Memory.readN_isSome (m := m) (a := j * p.chunk) (n := chunkLen p len j) fun i hi => h _ (by simp only [chunkLen] at hi; omega)
  exact ⟨c, hc, Memory.readN_length hc⟩

theorem Memory.readN_cons_lt {k : Nat} {v : Byte} {m : Memory} {a n : Nat} (h : k < a) :
    Memory.readN ((k, v) :: m) a n = Memory.readN m a n := by
  induction n generalizing a with
  | zero => rfl
  | succ n ih => simp only [Memory.readN, Memory.read]; rw [if_neg (by omega), ih (by omega)]

/-- The one-pass read is the byte-by-byte read. -/
theorem Memory.scan_eq (m : Memory) (a n : Nat) : Memory.scan m a n = Memory.readN m a n := by
  induction m generalizing a n with
  | nil => cases n <;> simp [Memory.scan, Memory.readN, Memory.read]
  | cons x m ih =>
    obtain ⟨k, v⟩ := x
    cases n with
    | zero => rfl
    | succ n =>
      simp only [Memory.scan]
      split
      · rename_i h; rw [ih, Memory.readN_cons_lt h]
      · split
        · subst_vars
          simp only [Memory.readN, Memory.read, if_true, ih, Memory.readN_cons_lt (Nat.lt_succ_self _)]
          cases Memory.readN m (k + 1) n <;> rfl
        · rfl

theorem Memory.writeN_nil (a : Nat) (bs : Bytes) : Memory.writeN [] a bs = Memory.ofBytes a bs := by
  induction bs generalizing a with
  | nil => rfl
  | cons b bs ih => simp only [Memory.writeN, Memory.write, Memory.ofBytes]; rw [Memory.writeN_cons_gt _ _ _ _ _ (by omega), ih]

/-- The one-pass write is the byte-by-byte write. -/
theorem Memory.store_eq (m : Memory) (a : Nat) (bs : Bytes) : Memory.store m a bs = Memory.writeN m a bs := by
  induction m generalizing a bs with
  | nil => cases bs <;> simp [Memory.store, Memory.writeN_nil, Memory.ofBytes]
  | cons x m ih =>
    obtain ⟨k, v⟩ := x
    cases bs with
    | nil => rfl
    | cons b bs =>
      simp only [Memory.store]
      split
      · rename_i h; rw [ih, Memory.writeN_cons_gt _ _ _ _ _ h]
      · split
        · subst_vars
          rw [ih, Memory.writeN, Memory.write, if_neg (by omega), if_pos rfl, Memory.writeN_cons_gt _ _ _ _ _ (by omega)]
        · rfl

/-- A block read, byte by byte. -/
theorem memRead_def (m : Memory) (a n : Nat) :
    memRead m a n = match m.readN a n with
      | some b => .next b
      | none => .fault .unwrittenByte := by
  unfold memRead; cases h : m.readN a n <;> simp [Memory.scan_eq, h]

/-- A block write, byte by byte. -/
theorem memWrite_def (capacity : Nat) (m : Memory) (a : Nat) (bs : Bytes) :
    memWrite capacity m a bs = if a + bs.length ≤ capacity then .next (m.writeN a bs) else .fault .outsideBuffer := by
  rw [memWrite, Memory.store_eq]

theorem memRead_ne_refused (m : Memory) (a n : Nat) (r : Refusal) : memRead m a n ≠ .refused r := by
  unfold memRead; split <;> simp

theorem memWrite_ne_refused (c : Nat) (m : Memory) (a : Nat) (bs : Bytes) (r : Refusal) :
    memWrite c m a bs ≠ .refused r := by
  unfold memWrite; split <;> simp

theorem andThen_ne_refused {σ τ : Type} {o : Res σ} {f : σ → Res τ} {r : Refusal} (h : o ≠ .refused r) (hf : ∀ x,
    f x ≠ .refused r) :
    andThen o f ≠ .refused r := by
  unfold andThen; split
  · exact hf _
  · simp
  · rename_i r'; intro hh; cases hh; exact h rfl

/-- A sequence gives a next state only through one. -/
theorem andThen_eq_next {σ τ : Type} {o : Res σ} {f : σ → Res τ} {t : τ} (h : andThen o f = .next t) :
    ∃ s, o = .next s ∧ f s = .next t := by
  cases o with
  | next s => exact ⟨s, rfl, h⟩
  | fault r => cases h
  | refused r => cases h

/-- When a block read answers (R7, R40). -/
theorem memRead_eq_next {m : Memory} {a n : Nat} {b : Bytes} : memRead m a n = .next b ↔ m.readN a n = some b := by
  rw [memRead_def]; cases m.readN a n <;> simp

/-- When a block write answers, and with what (R7). -/
theorem memWrite_eq_next {capacity : Nat} {m m' : Memory} {a : Nat} {bs : Bytes} :
    memWrite capacity m a bs = .next m' ↔ a + bs.length ≤ capacity ∧ m.writeN a bs = m' := by
  rw [memWrite_def]; split <;> simp [*]

/-- The buffers after reset are in the canonical form. -/
theorem reset_buffers_wf (p : Params) : (State.resetWith p).atu.buf.wf ∧ (State.resetWith p).bsu.buf.wf := by
  simp [State.resetWith, Memory.wf]

theorem Memory.read_none_of_lt {m : Memory} {a : Nat} (h : ∀ c ∈ m, a < c.1) : Memory.read m a = none := by
  induction m with
  | nil => rfl
  | cons x m ih =>
    obtain ⟨k, v⟩ := x
    have := h (k, v) (by simp)
    simp only at this
    rw [Memory.read, if_neg (by omega)]; exact ih fun c hc => h c (by simp [hc])

/-- Equal memories are equal data: the canonical form is one for each content. -/
theorem Memory.ext {m m' : Memory} (h : m.wf) (h' : m'.wf) (hr : ∀ a, Memory.read m a = Memory.read m' a) :
    m = m' := by
  induction m generalizing m' with
  | nil =>
    cases m' with
    | nil => rfl
    | cons y m' => obtain ⟨l, w⟩ := y; have := hr l; simp [Memory.read] at this
  | cons x m ih =>
    obtain ⟨k, v⟩ := x
    cases m' with
    | nil => have := hr k; simp [Memory.read] at this
    | cons y m' =>
      obtain ⟨l, w⟩ := y
      simp only [Memory.wf, List.pairwise_cons] at h h'
      have hm : Memory.read m k = none := Memory.read_none_of_lt h.1
      have hm' : Memory.read m' l = none := Memory.read_none_of_lt h'.1
      have hkl : k = l := by
        by_contra hne
        rcases Nat.lt_or_gt_of_ne hne with hlt | hlt
        · have := hr k
          rw [Memory.read, if_pos rfl, Memory.read, if_neg hne, Memory.read_none_of_lt] at this
          · cases this
          · intro c hc; have := h'.1 c hc; omega
        · have := hr l
          rw [Memory.read, if_neg (fun e => hne e.symm), Memory.read, if_pos rfl, Memory.read_none_of_lt] at this
          · cases this
          · intro c hc; have := h.1 c hc; omega
      subst hkl
      have hv := hr k
      simp only [Memory.read, if_true, Option.some.injEq] at hv
      subst hv
      rw [ih h.2 h'.2 fun a => ?_]
      have ha := hr a
      simp only [Memory.read] at ha
      split at ha
      · rename_i hak; subst hak; rw [hm, hm']
      · exact ha

end Sys2Proof.Machine
end

