-- ==== Sys2Proof/Laws/State.lean ====
section
/-! SUPPORT. Each shared update of a unit, field by field: true by unfolding, so that no later proof unfolds a record
update. -/

namespace Sys2Proof.Machine

/-! ### RBU -/

@[simp] theorem Rbu.event_seq (e : TEvent) (rest : List TAnswer) (r : Rbu) : (r.event e rest).seq = r.seq := rfl
@[simp] theorem Rbu.event_linkOk (e : TEvent) (rest : List TAnswer) (r : Rbu) :
    (r.event e rest).linkOk = r.linkOk := rfl
@[simp] theorem Rbu.event_state (e : TEvent) (rest : List TAnswer) (r : Rbu) : (r.event e rest).state = r.state := rfl
@[simp] theorem Rbu.event_answers (e : TEvent) (rest : List TAnswer) (r : Rbu) : (r.event e rest).answers = rest := rfl
@[simp] theorem Rbu.event_trace (e : TEvent) (rest : List TAnswer) (r : Rbu) :
    (r.event e rest).trace = r.trace ++ [e] := rfl
@[simp] theorem Rbu.event_results (e : TEvent) (rest : List TAnswer) (r : Rbu) :
    (r.event e rest).results = r.results := rfl
@[simp] theorem Rbu.deliver_seq (v : Result) (r : Rbu) : (r.deliver v).seq = r.seq := rfl
@[simp] theorem Rbu.deliver_linkOk (v : Result) (r : Rbu) : (r.deliver v).linkOk = r.linkOk := rfl
@[simp] theorem Rbu.deliver_state (v : Result) (r : Rbu) : (r.deliver v).state = .idle := rfl
@[simp] theorem Rbu.deliver_answers (v : Result) (r : Rbu) : (r.deliver v).answers = r.answers := rfl
@[simp] theorem Rbu.deliver_trace (v : Result) (r : Rbu) : (r.deliver v).trace = r.trace := rfl
@[simp] theorem Rbu.deliver_results (v : Result) (r : Rbu) : (r.deliver v).results = r.results ++ [v] := rfl
@[simp] theorem Rbu.raise_seq (e : Subcause) (r : Rbu) : (r.raise e).seq = r.seq := rfl
@[simp] theorem Rbu.raise_linkOk (e : Subcause) (r : Rbu) : (r.raise e).linkOk = r.linkOk := rfl
@[simp] theorem Rbu.raise_state (e : Subcause) (r : Rbu) : (r.raise e).state = .idle := rfl
@[simp] theorem Rbu.raise_answers (e : Subcause) (r : Rbu) : (r.raise e).answers = r.answers := rfl
@[simp] theorem Rbu.raise_trace (e : Subcause) (r : Rbu) : (r.raise e).trace = r.trace := rfl
@[simp] theorem Rbu.raise_results (e : Subcause) (r : Rbu) : (r.raise e).results = r.results ++ [.err e] := rfl
@[simp] theorem Rbu.await_seq (w : RbuWait) (r : Rbu) : (r.await w).seq = r.seq := rfl
@[simp] theorem Rbu.await_linkOk (w : RbuWait) (r : Rbu) : (r.await w).linkOk = r.linkOk := rfl
@[simp] theorem Rbu.await_state (w : RbuWait) (r : Rbu) : (r.await w).state = .busy w := rfl
@[simp] theorem Rbu.await_answers (w : RbuWait) (r : Rbu) : (r.await w).answers = r.answers := rfl
@[simp] theorem Rbu.await_trace (w : RbuWait) (r : Rbu) : (r.await w).trace = r.trace := rfl
@[simp] theorem Rbu.await_results (w : RbuWait) (r : Rbu) : (r.await w).results = r.results := rfl
@[simp] theorem Rbu.bumpSeq_seq (p : Params) (r : Rbu) : (r.bumpSeq p).seq = seqAfter p r.seq 1 := rfl
@[simp] theorem Rbu.bumpSeq_linkOk (p : Params) (r : Rbu) : (r.bumpSeq p).linkOk = r.linkOk := rfl
@[simp] theorem Rbu.bumpSeq_state (p : Params) (r : Rbu) : (r.bumpSeq p).state = r.state := rfl
@[simp] theorem Rbu.bumpSeq_answers (p : Params) (r : Rbu) : (r.bumpSeq p).answers = r.answers := rfl
@[simp] theorem Rbu.bumpSeq_trace (p : Params) (r : Rbu) : (r.bumpSeq p).trace = r.trace := rfl
@[simp] theorem Rbu.bumpSeq_results (p : Params) (r : Rbu) : (r.bumpSeq p).results = r.results := rfl
@[simp] theorem Rbu.timeoutHit_seq (r : Rbu) : (r.timeoutHit).seq = r.seq := rfl
@[simp] theorem Rbu.timeoutHit_linkOk (r : Rbu) : (r.timeoutHit).linkOk = false := rfl
@[simp] theorem Rbu.timeoutHit_state (r : Rbu) : (r.timeoutHit).state = r.state := rfl
@[simp] theorem Rbu.timeoutHit_answers (r : Rbu) : (r.timeoutHit).answers = r.answers := rfl
@[simp] theorem Rbu.timeoutHit_trace (r : Rbu) : (r.timeoutHit).trace = r.trace := rfl
@[simp] theorem Rbu.timeoutHit_results (r : Rbu) : (r.timeoutHit).results = r.results := rfl
@[simp] theorem Rbu.relink_seq (r : Rbu) : (r.relink).seq = r.seq := rfl
@[simp] theorem Rbu.relink_linkOk (r : Rbu) : (r.relink).linkOk = true := rfl
@[simp] theorem Rbu.relink_state (r : Rbu) : (r.relink).state = r.state := rfl
@[simp] theorem Rbu.relink_answers (r : Rbu) : (r.relink).answers = r.answers := rfl
@[simp] theorem Rbu.relink_trace (r : Rbu) : (r.relink).trace = r.trace := rfl
@[simp] theorem Rbu.relink_results (r : Rbu) : (r.relink).results = r.results := rfl
@[simp] theorem Rbu.resetRegs_seq (p : Params) (r : Rbu) : (r.resetRegs p).seq = p.seqInit := rfl
@[simp] theorem Rbu.resetRegs_linkOk (p : Params) (r : Rbu) : (r.resetRegs p).linkOk = true := rfl
@[simp] theorem Rbu.resetRegs_state (p : Params) (r : Rbu) : (r.resetRegs p).state = .idle := rfl
@[simp] theorem Rbu.resetRegs_answers (p : Params) (r : Rbu) : (r.resetRegs p).answers = r.answers := rfl
@[simp] theorem Rbu.resetRegs_trace (p : Params) (r : Rbu) : (r.resetRegs p).trace = r.trace := rfl
@[simp] theorem Rbu.resetRegs_results (p : Params) (r : Rbu) : (r.resetRegs p).results = r.results := rfl

/-! ### ATU -/

@[simp] theorem Atu.event_state (e : AEvent) (rest : List AAnswer) (a : Atu) : (a.event e rest).state = a.state := rfl
@[simp] theorem Atu.event_buf (e : AEvent) (rest : List AAnswer) (a : Atu) : (a.event e rest).buf = a.buf := rfl
@[simp] theorem Atu.event_consumed (e : AEvent) (rest : List AAnswer) (a : Atu) :
    (a.event e rest).consumed = a.consumed := rfl
@[simp] theorem Atu.event_k (e : AEvent) (rest : List AAnswer) (a : Atu) : (a.event e rest).k = a.k := rfl
@[simp] theorem Atu.event_tdx (e : AEvent) (rest : List AAnswer) (a : Atu) : (a.event e rest).tdx = a.tdx := rfl
@[simp] theorem Atu.event_needsCheck (e : AEvent) (rest : List AAnswer) (a : Atu) :
    (a.event e rest).needsCheck = a.needsCheck := rfl
@[simp] theorem Atu.event_answers (e : AEvent) (rest : List AAnswer) (a : Atu) : (a.event e rest).answers = rest := rfl
@[simp] theorem Atu.event_trace (e : AEvent) (rest : List AAnswer) (a : Atu) :
    (a.event e rest).trace = a.trace ++ [e] := rfl
@[simp] theorem Atu.event_results (e : AEvent) (rest : List AAnswer) (a : Atu) :
    (a.event e rest).results = a.results := rfl
@[simp] theorem Atu.deliver_state (v : Result) (a : Atu) : (a.deliver v).state = .idle := rfl
@[simp] theorem Atu.deliver_buf (v : Result) (a : Atu) : (a.deliver v).buf = a.buf := rfl
@[simp] theorem Atu.deliver_consumed (v : Result) (a : Atu) : (a.deliver v).consumed = a.consumed := rfl
@[simp] theorem Atu.deliver_k (v : Result) (a : Atu) : (a.deliver v).k = a.k := rfl
@[simp] theorem Atu.deliver_tdx (v : Result) (a : Atu) : (a.deliver v).tdx = a.tdx := rfl
@[simp] theorem Atu.deliver_needsCheck (v : Result) (a : Atu) : (a.deliver v).needsCheck = a.needsCheck := rfl
@[simp] theorem Atu.deliver_answers (v : Result) (a : Atu) : (a.deliver v).answers = a.answers := rfl
@[simp] theorem Atu.deliver_trace (v : Result) (a : Atu) : (a.deliver v).trace = a.trace := rfl
@[simp] theorem Atu.deliver_results (v : Result) (a : Atu) : (a.deliver v).results = a.results ++ [v] := rfl
@[simp] theorem Atu.start_state (a : Atu) : (a.start).state = .expectInitial := rfl
@[simp] theorem Atu.start_buf (a : Atu) : (a.start).buf = a.buf := rfl
@[simp] theorem Atu.start_consumed (a : Atu) : (a.start).consumed = 0 := rfl
@[simp] theorem Atu.start_k (a : Atu) : (a.start).k = a.k := rfl
@[simp] theorem Atu.start_tdx (a : Atu) : (a.start).tdx = a.tdx := rfl
@[simp] theorem Atu.start_needsCheck (a : Atu) : (a.start).needsCheck = false := rfl
@[simp] theorem Atu.start_answers (a : Atu) : (a.start).answers = a.answers := rfl
@[simp] theorem Atu.start_trace (a : Atu) : (a.start).trace = a.trace := rfl
@[simp] theorem Atu.start_results (a : Atu) : (a.start).results = a.results := rfl
@[simp] theorem Atu.resetRegs_state (a : Atu) : (a.resetRegs).state = .idle := rfl
@[simp] theorem Atu.resetRegs_buf (a : Atu) : (a.resetRegs).buf = [] := rfl
@[simp] theorem Atu.resetRegs_consumed (a : Atu) : (a.resetRegs).consumed = 0 := rfl
@[simp] theorem Atu.resetRegs_k (a : Atu) : (a.resetRegs).k = 0 := rfl
@[simp] theorem Atu.resetRegs_tdx (a : Atu) : (a.resetRegs).tdx = 0 := rfl
@[simp] theorem Atu.resetRegs_needsCheck (a : Atu) : (a.resetRegs).needsCheck = false := rfl
@[simp] theorem Atu.resetRegs_answers (a : Atu) : (a.resetRegs).answers = a.answers := rfl
@[simp] theorem Atu.resetRegs_trace (a : Atu) : (a.resetRegs).trace = a.trace := rfl
@[simp] theorem Atu.resetRegs_results (a : Atu) : (a.resetRegs).results = a.results := rfl

/-! ### BSU -/

@[simp] theorem Bsu.event_state (e : CEvent) (rest : List CAnswer) (b : Bsu) : (b.event e rest).state = b.state := rfl
@[simp] theorem Bsu.event_buf (e : CEvent) (rest : List CAnswer) (b : Bsu) : (b.event e rest).buf = b.buf := rfl
@[simp] theorem Bsu.event_len (e : CEvent) (rest : List CAnswer) (b : Bsu) : (b.event e rest).len = b.len := rfl
@[simp] theorem Bsu.event_reversed (e : CEvent) (rest : List CAnswer) (b : Bsu) :
    (b.event e rest).reversed = b.reversed := rfl
@[simp] theorem Bsu.event_padded (e : CEvent) (rest : List CAnswer) (b : Bsu) :
    (b.event e rest).padded = b.padded := rfl
@[simp] theorem Bsu.event_chunkIdx (e : CEvent) (rest : List CAnswer) (b : Bsu) :
    (b.event e rest).chunkIdx = b.chunkIdx := rfl
@[simp] theorem Bsu.event_ctrlOk (e : CEvent) (rest : List CAnswer) (b : Bsu) :
    (b.event e rest).ctrlOk = b.ctrlOk := rfl
@[simp] theorem Bsu.event_timeout (e : CEvent) (rest : List CAnswer) (b : Bsu) :
    (b.event e rest).timeout = b.timeout := rfl
@[simp] theorem Bsu.event_answers (e : CEvent) (rest : List CAnswer) (b : Bsu) : (b.event e rest).answers = rest := rfl
@[simp] theorem Bsu.event_trace (e : CEvent) (rest : List CAnswer) (b : Bsu) :
    (b.event e rest).trace = b.trace ++ [e] := rfl
@[simp] theorem Bsu.event_results (e : CEvent) (rest : List CAnswer) (b : Bsu) :
    (b.event e rest).results = b.results := rfl
@[simp] theorem Bsu.deliver_state (v : Result) (b : Bsu) : (b.deliver v).state = .idle := rfl
@[simp] theorem Bsu.deliver_buf (v : Result) (b : Bsu) : (b.deliver v).buf = b.buf := rfl
@[simp] theorem Bsu.deliver_len (v : Result) (b : Bsu) : (b.deliver v).len = b.len := rfl
@[simp] theorem Bsu.deliver_reversed (v : Result) (b : Bsu) : (b.deliver v).reversed = b.reversed := rfl
@[simp] theorem Bsu.deliver_padded (v : Result) (b : Bsu) : (b.deliver v).padded = b.padded := rfl
@[simp] theorem Bsu.deliver_chunkIdx (v : Result) (b : Bsu) : (b.deliver v).chunkIdx = b.chunkIdx := rfl
@[simp] theorem Bsu.deliver_ctrlOk (v : Result) (b : Bsu) : (b.deliver v).ctrlOk = b.ctrlOk := rfl
@[simp] theorem Bsu.deliver_timeout (v : Result) (b : Bsu) : (b.deliver v).timeout = b.timeout := rfl
@[simp] theorem Bsu.deliver_answers (v : Result) (b : Bsu) : (b.deliver v).answers = b.answers := rfl
@[simp] theorem Bsu.deliver_trace (v : Result) (b : Bsu) : (b.deliver v).trace = b.trace := rfl
@[simp] theorem Bsu.deliver_results (v : Result) (b : Bsu) : (b.deliver v).results = b.results ++ [v] := rfl
@[simp] theorem Bsu.raise_state (e : Subcause) (b : Bsu) : (b.raise e).state = .idle := rfl
@[simp] theorem Bsu.raise_buf (e : Subcause) (b : Bsu) : (b.raise e).buf = b.buf := rfl
@[simp] theorem Bsu.raise_len (e : Subcause) (b : Bsu) : (b.raise e).len = b.len := rfl
@[simp] theorem Bsu.raise_reversed (e : Subcause) (b : Bsu) : (b.raise e).reversed = b.reversed := rfl
@[simp] theorem Bsu.raise_padded (e : Subcause) (b : Bsu) : (b.raise e).padded = b.padded := rfl
@[simp] theorem Bsu.raise_chunkIdx (e : Subcause) (b : Bsu) : (b.raise e).chunkIdx = b.chunkIdx := rfl
@[simp] theorem Bsu.raise_ctrlOk (e : Subcause) (b : Bsu) : (b.raise e).ctrlOk = b.ctrlOk := rfl
@[simp] theorem Bsu.raise_timeout (e : Subcause) (b : Bsu) : (b.raise e).timeout = b.timeout := rfl
@[simp] theorem Bsu.raise_answers (e : Subcause) (b : Bsu) : (b.raise e).answers = b.answers := rfl
@[simp] theorem Bsu.raise_trace (e : Subcause) (b : Bsu) : (b.raise e).trace = b.trace := rfl
@[simp] theorem Bsu.raise_results (e : Subcause) (b : Bsu) : (b.raise e).results = b.results ++ [.err e] := rfl
@[simp] theorem Bsu.timeoutHit_state (b : Bsu) : (b.timeoutHit).state = b.state := rfl
@[simp] theorem Bsu.timeoutHit_buf (b : Bsu) : (b.timeoutHit).buf = b.buf := rfl
@[simp] theorem Bsu.timeoutHit_len (b : Bsu) : (b.timeoutHit).len = b.len := rfl
@[simp] theorem Bsu.timeoutHit_reversed (b : Bsu) : (b.timeoutHit).reversed = b.reversed := rfl
@[simp] theorem Bsu.timeoutHit_padded (b : Bsu) : (b.timeoutHit).padded = b.padded := rfl
@[simp] theorem Bsu.timeoutHit_chunkIdx (b : Bsu) : (b.timeoutHit).chunkIdx = b.chunkIdx := rfl
@[simp] theorem Bsu.timeoutHit_ctrlOk (b : Bsu) : (b.timeoutHit).ctrlOk = false := rfl
@[simp] theorem Bsu.timeoutHit_timeout (b : Bsu) : (b.timeoutHit).timeout = b.timeout := rfl
@[simp] theorem Bsu.timeoutHit_answers (b : Bsu) : (b.timeoutHit).answers = b.answers := rfl
@[simp] theorem Bsu.timeoutHit_trace (b : Bsu) : (b.timeoutHit).trace = b.trace := rfl
@[simp] theorem Bsu.timeoutHit_results (b : Bsu) : (b.timeoutHit).results = b.results := rfl
@[simp] theorem Bsu.relink_state (b : Bsu) : (b.relink).state = b.state := rfl
@[simp] theorem Bsu.relink_buf (b : Bsu) : (b.relink).buf = b.buf := rfl
@[simp] theorem Bsu.relink_len (b : Bsu) : (b.relink).len = b.len := rfl
@[simp] theorem Bsu.relink_reversed (b : Bsu) : (b.relink).reversed = b.reversed := rfl
@[simp] theorem Bsu.relink_padded (b : Bsu) : (b.relink).padded = b.padded := rfl
@[simp] theorem Bsu.relink_chunkIdx (b : Bsu) : (b.relink).chunkIdx = b.chunkIdx := rfl
@[simp] theorem Bsu.relink_ctrlOk (b : Bsu) : (b.relink).ctrlOk = true := rfl
@[simp] theorem Bsu.relink_timeout (b : Bsu) : (b.relink).timeout = b.timeout := rfl
@[simp] theorem Bsu.relink_answers (b : Bsu) : (b.relink).answers = b.answers := rfl
@[simp] theorem Bsu.relink_trace (b : Bsu) : (b.relink).trace = b.trace := rfl
@[simp] theorem Bsu.relink_results (b : Bsu) : (b.relink).results = b.results := rfl
@[simp] theorem Bsu.resetRegs_state (b : Bsu) : (b.resetRegs).state = .idle := rfl
@[simp] theorem Bsu.resetRegs_buf (b : Bsu) : (b.resetRegs).buf = [] := rfl
@[simp] theorem Bsu.resetRegs_len (b : Bsu) : (b.resetRegs).len = 0 := rfl
@[simp] theorem Bsu.resetRegs_reversed (b : Bsu) : (b.resetRegs).reversed = false := rfl
@[simp] theorem Bsu.resetRegs_padded (b : Bsu) : (b.resetRegs).padded = false := rfl
@[simp] theorem Bsu.resetRegs_chunkIdx (b : Bsu) : (b.resetRegs).chunkIdx = 0 := rfl
@[simp] theorem Bsu.resetRegs_ctrlOk (b : Bsu) : (b.resetRegs).ctrlOk = true := rfl
@[simp] theorem Bsu.resetRegs_timeout (b : Bsu) : (b.resetRegs).timeout = 0 := rfl
@[simp] theorem Bsu.resetRegs_answers (b : Bsu) : (b.resetRegs).answers = b.answers := rfl
@[simp] theorem Bsu.resetRegs_trace (b : Bsu) : (b.resetRegs).trace = b.trace := rfl
@[simp] theorem Bsu.resetRegs_results (b : Bsu) : (b.resetRegs).results = b.results := rfl

/-! ### The whole state -/

@[simp] theorem State.resetRegs_params (s : State) : (s.resetRegs).params = s.params := rfl
@[simp] theorem State.resetRegs_rbu (s : State) : (s.resetRegs).rbu = s.rbu.resetRegs s.params := rfl
@[simp] theorem State.resetRegs_atu (s : State) : (s.resetRegs).atu = s.atu.resetRegs := rfl
@[simp] theorem State.resetRegs_bsu (s : State) : (s.resetRegs).bsu = s.bsu.resetRegs := rfl
@[simp] theorem State.resetRegs_cmdTimeout (s : State) : (s.resetRegs).cmdTimeout = s.cmdTimeout := rfl
@[simp] theorem State.resetRegs_inputs (s : State) : (s.resetRegs).inputs = s.inputs := rfl
@[simp] theorem State.resetRegs_refused (s : State) : (s.resetRegs).refused = s.refused := rfl

end Sys2Proof.Machine
end

