-- ==== Sys2Proof/Laws/AtrParser.lean ====
section
/-! SUPPORT. The ATR parser: what one turn of its loop can do, said once. -/

namespace Sys2Proof.Machine

variable {p : Params}

theorem Atu.append_next (a : Atu) (b : Bytes) (h : a.consumed + b.length ≤ p.atrMax) :
    a.append p b = .next { a with buf := a.buf.writeN a.consumed b, consumed := a.consumed + b.length } := by
  simp only [Atu.append, memWrite_def, if_pos h, andThen]

theorem Atu.fail_next (e : Subcause) (a : Atu) : a.fail e = .next { a with state := .idle,
                                                                           results := a.results ++ [.err e] } := rfl

/-- Everything a receive can do (R18, R117). -/
theorem Atu.receive_cases (n : Nat) (k : Bytes → Atu → Res Atu) (a : Atu) :
    a.receive n k = .next a ∨
    (∃ rest, a.answers = .fail :: rest ∧
      a.receive n k = .next { a with state := .idle, answers := rest, trace := a.trace ++ [⟨n, .fail⟩],
                                     results := a.results ++ [.err .peAtrRecv] }) ∨
    (∃ b rest, a.answers = .bytes b :: rest ∧ b.length = n ∧
      a.receive n k = k b { a with answers := rest, trace := a.trace ++ [⟨n, .bytes b⟩] }) := by
  unfold Atu.receive
  split
  · exact .inl rfl
  · rename_i o rest ha
    split
    · rename_i hal
      cases o with
      | fail => exact .inr (.inl ⟨rest, ha, rfl⟩)
      | bytes b => exact .inr (.inr ⟨b, rest, ha, by simpa [AAnswer.allowed] using hal, rfl⟩)
    · exact .inl rfl

theorem Atu.run_idle (p : Params) (n : Nat) (a : Atu) (h : a.state = .idle) : Atu.run p n a = .next a := by
  induction n with
  | zero => rfl
  | succ n ih => simp [Atu.run, Atu.step, h, andThen, ih]

theorem Atu.run_add (p : Params) (m n : Nat) (b : Atu) : Atu.run p (m + n) b = andThen (Atu.run p m b) (Atu.run p n) := by
  induction m generalizing b with
  | zero => simp [Atu.run, andThen]
  | succ m ih =>
    rw [Nat.succ_add]; simp only [Atu.run]
    cases b.step p with
    | next b' => simpa only [andThen] using ih b'
    | fault => simp only [andThen]
    | refused => simp only [andThen]

theorem Atu.run_ge (p : Params) {k n : Nat} {b b' : Atu} (hk : k ≤ n) (h : Atu.run p k b = .next b') (hi : b'.state = .idle) :
    Atu.run p n b = .next b' := by
  obtain ⟨m, rfl⟩ := Nat.exists_eq_add_of_le hk
  rw [Atu.run_add, h]; exact Atu.run_idle p m b' hi

/-- At most four bytes in an interface group (R7, R110). -/
theorem popcount4_le (x : BitVec 4) : popcount4 x ≤ 4 := by
  unfold popcount4
  have hb (b : Bool) : b.toNat ≤ 1 := by cases b <;> simp
  have := hb (x.getLsbD 0); have := hb (x.getLsbD 1); have := hb (x.getLsbD 2); have := hb (x.getLsbD 3)
  omega

theorem lastTdx_popcount (td : Byte) (gs : List Bytes) (h : groupsFrom td gs) :
    popcount4 (highNibble (lastTdx td gs)) = 0 := by
  induction gs generalizing td with
  | nil => exact h
  | cons g gs ih =>
    obtain ⟨_, _, h⟩ := h
    simp only [lastTdx]
    split at h
    · rename_i hb; rw [if_pos hb]; exact ih _ h
    · rename_i hb; rw [if_neg hb]; decide

/-- One interface group (R110, R112). -/
theorem Atu.group_step (a : Atu) (g : Bytes) (rest : List AAnswer) (hs : a.state = .expectInterfaceChain)
    (hn : a.groupLen = g.length) (h1 : 1 ≤ g.length) (hr : a.consumed + g.length ≤ p.atrMax) (ha : a.answers = .bytes g :: rest) :
    a.step p = .next (Atu.chain g { a with answers := rest, trace := a.trace ++ [⟨g.length, .bytes g⟩],
                                           buf := a.buf.writeN a.consumed g, consumed := a.consumed + g.length }) := by
  simp only [Atu.step, hs, Atu.interfaceChain, hn, Atu.room]
  rw [if_neg (by omega), if_neg (by omega)]
  simp only [Atu.receive, ha, AAnswer.allowed, beq_self_eq_true, if_true, Atu.event]
  rw [Atu.append_next _ g (by simp only; exact hr)]; simp [andThen, hs]

/-- The interface chain consumes exactly the groups it declares (R110 to R112). -/
theorem Atu.groups_run (gs : List Bytes) : ∀ (a : Atu) (rest : List AAnswer), a.state = .expectInterfaceChain →
    groupsFrom a.tdx gs → a.consumed + gs.flatten.length ≤ p.atrMax → a.answers = gs.map .bytes ++ rest →
    Atu.run p gs.length a = .next { a with
      buf := a.buf.writeN a.consumed gs.flatten, consumed := a.consumed + gs.flatten.length, tdx := lastTdx a.tdx gs,
      needsCheck := a.needsCheck || checkDeclared a.tdx gs, answers := rest,
      trace := a.trace ++ gs.map fun b => ⟨b.length, .bytes b⟩ } := by
  induction gs with
  | nil =>
    intro a rest hs hg hr ha
    obtain ⟨st, buf, con, k, tdx, nc, ans, tr, rs⟩ := a
    simp only [List.map_nil, List.nil_append] at ha; subst ha
    simp [Atu.run, Memory.writeN, lastTdx, checkDeclared]
  | cons g gs ih =>
    intro a rest hs hg hr ha
    obtain ⟨h1, hn, hg⟩ := hg
    simp only [List.flatten_cons, List.length_append, List.map_cons, List.cons_append, List.length_cons] at hr ha ⊢
    rw [Atu.run, Atu.group_step a g (gs.map .bytes ++ rest) hs hn.symm (by omega) (by omega) ha]
    simp only [andThen]
    obtain ⟨st, buf, con, k, tdx, nc, ans, tr, rs⟩ := a
    simp only at hs hr h1 hn hg; subst hs
    cases hb : tdx.getLsbD 7
    · simp only [hb, Bool.false_eq_true, if_false] at hg; subst hg
      simp only [Atu.chain, hb, Atu.run, lastTdx, checkDeclared, Bool.false_eq_true, if_false, List.length_nil,
          List.flatten_nil, List.map_nil, Bool.false_and, Bool.or_false, Nat.add_zero, List.append_nil,
          List.nil_append]
    · simp only [hb, if_true] at hg
      simp only [Atu.chain, hb, if_true]
      rw [ih _ rest rfl hg (by simp only; omega) rfl]
      simp only [lastTdx, checkDeclared, hb, if_true, Memory.writeN_append, Bool.or_assoc, Nat.add_assoc,
          Bool.true_and, List.append_assoc, List.cons_append, List.nil_append]

theorem Atu.historical_step (a : Atu) (hist : Bytes) (rest : List AAnswer) (hs : a.state = .expectHistorical)
    (hk : hist.length = a.k.toNat)
   (hr : a.consumed + hist.length ≤ p.atrMax) (ha : a.answers = (if hist.isEmpty then [] else [.bytes hist]) ++ rest) :
   a.step p = .next { a with state := .expectCheckByte, buf := a.buf.writeN a.consumed hist,
                             consumed := a.consumed + hist.length, answers := rest,
                             trace := a.trace ++ (if hist.isEmpty then [] else [⟨hist.length, .bytes hist⟩]) } := by
  obtain ⟨st, buf, con, k, tdx, nc, ans, tr, rs⟩ := a
  simp only at hs hk hr ha; subst hs; subst ha
  simp only [Atu.step, Atu.historical]
  cases hist with
  | nil =>
    have : k = 0 := BitVec.eq_of_toNat_eq (by simpa using hk.symm)
    simp [this, Memory.writeN]
  | cons x hist =>
    have : k ≠ 0 := by rintro rfl; simp at hk
    rw [if_neg this, if_neg (by simp only [Atu.room]; omega)]
    simp only [Atu.receive, List.isEmpty_cons, Bool.false_eq_true, if_false, List.cons_append, List.nil_append,
        AAnswer.allowed, hk, beq_self_eq_true, if_true, Atu.event]
    rw [Atu.append_next _ _ hr]; simp only [andThen, hk]

theorem Atu.checkByte_step (a : Atu) (check atr : Bytes) (rest : List AAnswer) (hs : a.state = .expectCheckByte)
    (hk : check.length = if a.needsCheck then 1 else 0)
   (hr : a.consumed + check.length ≤ p.atrMax) (ha : a.answers = (if check.isEmpty then [] else [.bytes check]) ++ rest) 
   (hd : (a.buf.writeN a.consumed check).readN 0 (a.consumed + check.length) = some atr) :
   a.step p = .next { a with state := .idle, buf := a.buf.writeN a.consumed check,
                             consumed := a.consumed + check.length, answers := rest,
                             trace := a.trace ++ (if check.isEmpty then [] else [⟨check.length, .bytes check⟩]),
                             results := a.results ++ [.ok (.bytes atr)] } := by
  obtain ⟨st, buf, con, k, tdx, nc, ans, tr, rs⟩ := a
  simp only at hs hk hr ha hd; subst hs; subst ha
  simp only [Atu.step, Atu.checkByte]
  cases nc with
  | false =>
    simp only [Bool.false_eq_true, if_false, List.length_eq_zero_iff] at hk; subst hk
    simp only [Memory.writeN, List.length_nil, Nat.add_zero] at hd
    simp [Memory.writeN, Atu.complete, memRead_def, hd, andThen, Atu.deliver]
  | true =>
    simp only [if_true] at hk
    have : check.isEmpty = false := by cases check <;> simp_all
    rw [if_pos rfl, if_neg (by simp only [Atu.room]; omega)]
    simp only [this, Atu.receive, Bool.false_eq_true, if_false, List.cons_append, List.nil_append, AAnswer.allowed,
        hk, beq_self_eq_true, if_true, Atu.event]
    rw [Atu.append_next _ _ hr]
    simp only [hk] at hd
    simp [andThen, hk, Atu.complete, memRead_def, hd, Atu.deliver]

theorem filter_nonempty_pair {α : Type} (h c : Bytes) (f : Bytes → α) : ([h, c].filter fun b => !b.isEmpty).map f =
    (if h.isEmpty then [] else [f h]) ++ (if c.isEmpty then [] else [f c]) := by
  cases h <;> cases c <;> simp

/-- The states of a command in progress (R26). -/
def AtuState.live : AtuState → Prop
  | .expectInitial | .expectInterfaceChain | .expectHistorical | .expectCheckByte => True
  | _ => False

/-- A bound on the turns of the loop that can still come. -/
def Atu.turns (a : Atu) : Nat :=
  match a.state with
  | .expectInitial | .expectInterfaceChain => a.answers.length + 3
  | .expectHistorical => a.answers.length + 2
  | .expectCheckByte => a.answers.length + 1
  | _ => 0

theorem Atu.turns_le (a : Atu) : a.turns ≤ a.answers.length + 3 := by
  unfold Atu.turns; split <;> omega

/-- What can have happened to ATU between a moment of a command (`a0`) and a later one (`a`). -/
structure Atu.Since (p : Params) (a0 a : Atu) : Prop where
  state : a.state.live ∨ a.state = .idle
  bound : a.consumed ≤ p.atrMax
  written : Memory.written a.buf a.consumed
  first : (a.state = .expectInitial → a.consumed = 0) ∧ (a.state.live → a.state ≠ .expectInitial → 2 ≤ a.consumed)
  events : ∃ es, a.trace = a0.trace ++ es ∧ (∀ e ∈ es, e.legal p) ∧ a0.consumed + (es.map fun e => e.n).sum ≤ p.atrMax ∧
    (a.state ≠ .idle → a0.consumed + (es.map fun e => e.n).sum = a.consumed)
  used : ∃ used, a0.answers = used ++ a.answers
  results : (a.state ≠ .idle ∧ a.results = a0.results) ∨
    (a.state = .idle ∧ ∃ v, a.results = a0.results ++ [v] ∧ ∀ e, v = .err e → e ∈ causes .atrReceive)
  keep : ∀ x, a.consumed ≤ x → Memory.read a.buf x = Memory.read a0.buf x
  wf : a0.buf.wf → a.buf.wf
  within : Memory.within a0.buf p.atrMax → Memory.within a.buf p.atrMax

theorem Atu.Since.idle {a0 a : Atu} (h : Atu.Since p a0 a) (hl : a.state ≠ .idle) (e : Subcause)
    (he : e ∈ causes .atrReceive) (ev : List AEvent) (rest used : List AAnswer)
    (hu : a.answers = used ++ rest) (hev : ∀ e ∈ ev, e.legal p) (hn : a.consumed + (ev.map fun e => e.n).sum ≤ p.atrMax) :
    Atu.Since p a0 { a with state := .idle, answers := rest, trace := a.trace ++ ev,
                            results := a.results ++ [.err e] } := by
  obtain ⟨es, h1, h2, h3, h4⟩ := h.events
  obtain ⟨us, hus⟩ := h.used
  have hr : a.results = a0.results := by
    rcases h.results with ⟨-, hr⟩ | ⟨hh, -⟩
    · exact hr
    · exact absurd hh hl
  refine ⟨.inr rfl, h.bound, h.written, ⟨fun hh => AtuState.noConfusion hh, fun hh _ => False.elim hh⟩, ⟨es ++ ev,
      by simp [h1], ?_, ?_, fun hh => absurd rfl hh⟩, ⟨us ++ used, by simp [hus, hu]⟩, .inr ⟨rfl, .err e, by simp [hr], fun c hc => by cases hc; exact he⟩, h.keep, h.wf, h.within⟩
  · intro e he; rw [List.mem_append] at he; exact he.elim (h2 e) (hev e)
  · have := h4 hl; simp only [List.map_append, List.sum_append]; omega

theorem Atu.Since.got {a0 a : Atu} (h : Atu.Since p a0 a) (hl : a.state ≠ .idle) (b : Bytes) (rest : List AAnswer)
    (hb : 1 ≤ b.length) (hn : a.consumed + b.length ≤ p.atrMax)
    (ha : a.answers = .bytes b :: rest) (st : AtuState) (hst : st.live) (hst2 : st ≠ .expectInitial) (h2 : 2 ≤ a.consumed + b.length) (k : BitVec 4) (tdx : Byte) (nc : Bool) :
    Atu.Since p a0 { a with state := st, answers := rest, trace := a.trace ++ [⟨b.length, .bytes b⟩],
                            buf := a.buf.writeN a.consumed b, consumed := a.consumed + b.length,
                            k := k, tdx := tdx, needsCheck := nc } := by
  obtain ⟨es, h1, h2', h3, h4⟩ := h.events
  obtain ⟨us, hus⟩ := h.used
  have hr : a.results = a0.results := by
    rcases h.results with ⟨-, hr⟩ | ⟨hh, -⟩
    · exact hr
    · exact absurd hh hl
  have hid : st ≠ .idle := by rintro rfl; exact hst
  refine ⟨.inl hst, hn, Memory.written_writeN h.written b, ⟨fun hh => absurd hh hst2, fun _ _ => h2⟩,
      ⟨es ++ [⟨b.length, .bytes b⟩], by simp [h1], ?_, ?_, fun _ => ?_⟩, ⟨us ++ [.bytes b], by simp [hus, ha]⟩,
      .inl ⟨hid, hr⟩, ?_, fun w => Memory.writeN_wf (h.wf w) _ _, fun w => Memory.writeN_within (h.within w) hn⟩
  · intro e he; rw [List.mem_append] at he; rcases he with he | he
    · exact h2' e he
    · simp only [List.mem_singleton] at he; subst he; exact ⟨hb, by simp only; omega,
          by simp [AAnswer.allowed]⟩
  · have := h4 hl; simp only [List.map_append, List.sum_append, List.map_cons, List.map_nil,
        List.sum_singleton]; omega
  · have := h4 hl; simp only [List.map_append, List.sum_append, List.map_cons, List.map_nil,
        List.sum_singleton]; omega
  · intro x hx; simp only at hx ⊢; rw [Memory.read_writeN, if_neg (by omega)]; exact h.keep x (by omega)

theorem Atu.Since.done {a0 a : Atu} (h : Atu.Since p a0 a) (hl : a.state ≠ .idle) :
    ∃ v, Atu.complete { a with state := .done } = .next { a with state := .idle,
                                                                 results := a.results ++ [.ok (.bytes v)] } ∧
    Atu.Since p a0 { a with state := .idle, results := a.results ++ [.ok (.bytes v)] } := by
  obtain ⟨v, hv⟩ := Memory.written_readN h.written
  refine ⟨v, by simp [Atu.complete, memRead_def, hv, andThen, Atu.deliver], ?_⟩
  obtain ⟨es, h1, h2, h3, h4⟩ := h.events
  have hr : a.results = a0.results := by
    rcases h.results with ⟨-, hr⟩ | ⟨hh, -⟩
    · exact hr
    · exact absurd hh hl
  exact ⟨.inr rfl, h.bound, h.written, ⟨fun hh => AtuState.noConfusion hh, fun hh _ => False.elim hh⟩, ⟨es, h1, h2,
      h3,
      fun hh => absurd rfl hh⟩, h.used, .inr ⟨rfl, .ok (.bytes v), by simp [hr], fun c hc => by cases hc⟩, h.keep, h.wf, h.within⟩

theorem Atu.Since.move {a0 a : Atu} (h : Atu.Since p a0 a) (hl : a.state ≠ .idle) (h2 : 2 ≤ a.consumed)
    (st : AtuState) (hst : st.live) (hst2 : st ≠ .expectInitial) :
    Atu.Since p a0 { a with state := st } := by
  obtain ⟨es, h1, h2', h3, h4⟩ := h.events
  have hr : a.results = a0.results := by
    rcases h.results with ⟨-, hr⟩ | ⟨hh, -⟩
    · exact hr
    · exact absurd hh hl
  have hid : st ≠ .idle := by rintro rfl; exact hst
  exact ⟨.inl hst, h.bound, h.written, ⟨fun hh => absurd hh hst2, fun _ _ => h2⟩, ⟨es, h1, h2', h3, fun _ => h4 hl⟩,
      h.used, .inl ⟨hid, hr⟩, h.keep, h.wf, h.within⟩

/-- One turn of a command in progress, said once: it never stops; it waits on a request, or comes closer to the end.
-/
theorem Atu.since_step [p.Documented] {a0 a : Atu} (h : Atu.Since p a0 a) (hl : a.state ≠ .idle) :
    ∃ a', a.step p = .next a' ∧ Atu.Since p a0 a' ∧ ((a' = a ∧ a.stateOk p) ∨ a'.turns < a.turns) := by
  have hidle : ∀ (x : Atu), x.state = .idle → x.turns = 0 := by intro x hx; simp [Atu.turns, hx]
  have hfail : ∀ e, e ∈ causes .atrReceive → Atu.Since p a0 { a with state := .idle,
                                                                     results := a.results ++ [.err e] } := by
    intro e he; have := h.idle hl e he [] a.answers [] rfl (by simp) (by simpa using h.bound); simpa using this
  cases hs : a.state with
  | idle => exact absurd hs hl
  | done => rcases h.state with hh | hh <;> rw [hs] at hh <;> cases hh
  | failed e => rcases h.state with hh | hh <;> rw [hs] at hh <;> cases hh
  | expectInitial =>
    have hc := h.first.1 hs
    have h32 := p.atrMax_doc
    have ht : a.turns = a.answers.length + 3 := by simp [Atu.turns, hs]
    simp only [Atu.step, hs, Atu.initial]
    rcases Atu.receive_cases 2 (fun b a => andThen (a.append p b) fun a =>
      if b.getD 0 0 = p.atrTs then .next { a with k := lowNibble (b.getD 1 0), tdx := b.getD 1 0,
                                                       state := .expectInterfaceChain }
      else a.fail .peAtrTs) a with hr | ⟨rest, ha, hr⟩ | ⟨b, rest, ha, hb, hr⟩ <;> rw [hr]
    · exact ⟨a, rfl, h, .inl ⟨rfl, by simpa [Atu.stateOk, hs] using hc⟩⟩
    · refine ⟨_, rfl, h.idle hl _ (by simp [causes]) [⟨2, .fail⟩] rest [.fail] ha ?_ (by simp [hc]),
          .inr (by rw [hidle _ rfl]; omega)⟩
      intro e he; simp only [List.mem_singleton] at he; subst he; exact ⟨by simp, by simp, rfl⟩
    · rw [Atu.append_next _ _ (by simp only; omega)]
      simp only [andThen]
      rw [ha] at ht
      split
      · refine ⟨_, rfl, ?_, .inr ?_⟩
        · have := h.got hl b rest (by omega) (by omega) ha .expectInterfaceChain trivial (by simp) (by omega) (lowNibble (b.getD 1 0)) (b.getD 1 0) a.needsCheck
          rw [hb] at this ⊢; exact this
        · rw [ht]; simp [Atu.turns]
      · refine ⟨_, rfl, ?_, .inr (by rw [hidle _ rfl]; omega)⟩
        have g := h.got hl b rest (by omega) (by omega) ha .expectInterfaceChain trivial (by simp) (by omega) a.k a.tdx a.needsCheck
        have := g.idle (by simp) .peAtrTs (by simp [causes]) [] rest [] rfl (by simp) (by simp only [List.map_nil, List.sum_nil]; omega)
        rw [hb] at this ⊢; simpa [Atu.deliver] using this
  | expectInterfaceChain =>
    have h2 := h.first.2 (by rw [hs]; trivial) (by rw [hs]; simp)
    have ht : a.turns = a.answers.length + 3 := by simp [Atu.turns, hs]
    simp only [Atu.step, hs, Atu.interfaceChain]
    split
    · exact ⟨_, rfl, h.move hl h2 .expectHistorical trivial (by simp), .inr (by rw [ht]; simp [Atu.turns])⟩
    · rename_i h0
      split
      · exact ⟨_, rfl, hfail _ (by simp [causes]), .inr (by rw [hidle _ rfl]; omega)⟩
      · rename_i hroom
        have hroom' : a.consumed + a.groupLen ≤ p.atrMax := by have := h.bound; simp only [Atu.room] at hroom; omega
        rcases Atu.receive_cases a.groupLen (fun g a => andThen (a.append p g) fun a => .next (a.chain g)) a with hr | ⟨rest, ha, hr⟩ | ⟨b, rest, ha, hb, hr⟩ <;> rw [hr]
        · exact ⟨a, rfl, h, .inl ⟨rfl, by simp only [Atu.stateOk, hs]; exact ⟨h2, by omega, by omega⟩⟩⟩
        · refine ⟨_, rfl, h.idle hl _ (by simp [causes]) [⟨a.groupLen,
              .fail⟩] rest [.fail] ha ?_ (by simpa using hroom'), .inr (by rw [hidle _ rfl]; omega)⟩
          intro e he; simp only [List.mem_singleton] at he; subst he; exact ⟨by simp only; omega,
              by simp only; omega, rfl⟩
        · rw [Atu.append_next _ _ (by simp only; omega)]
          simp only [andThen]
          rw [ha] at ht
          have g := fun tdx nc => h.got hl b rest (by omega) (by omega) ha .expectInterfaceChain trivial (by simp) (by omega) a.k tdx nc
          rw [← hb]
          unfold Atu.chain
          split
          · exact ⟨_, rfl, by simpa only [hs] using g _ _, .inr (by rw [ht]; simp [Atu.turns, hs])⟩
          · exact ⟨_, rfl, by simpa only [hs] using g _ _, .inr (by rw [ht]; simp [Atu.turns, hs])⟩
  | expectHistorical =>
    have h2 := h.first.2 (by rw [hs]; trivial) (by rw [hs]; simp)
    have ht : a.turns = a.answers.length + 2 := by simp [Atu.turns, hs]
    simp only [Atu.step, hs, Atu.historical]
    split
    · exact ⟨_, rfl, h.move hl h2 .expectCheckByte trivial (by simp), .inr (by rw [ht]; simp [Atu.turns])⟩
    · rename_i h0
      have hk : 1 ≤ a.k.toNat := by by_contra hh; exact h0 (BitVec.eq_of_toNat_eq (by simp; omega))
      split
      · exact ⟨_, rfl, hfail _ (by simp [causes]), .inr (by rw [hidle _ rfl]; omega)⟩
      · rename_i hroom
        have hroom' : a.consumed + a.k.toNat ≤ p.atrMax := by have := h.bound; simp only [Atu.room] at hroom; omega
        rcases Atu.receive_cases a.k.toNat (fun h a => andThen (a.append p h) fun a => .next { a with state := .expectCheckByte }) a with hr | ⟨rest, ha, hr⟩ | ⟨b, rest, ha, hb, hr⟩ <;> rw [hr]
        · exact ⟨a, rfl, h, .inl ⟨rfl, by simp only [Atu.stateOk, hs]; exact ⟨h2, hk, by omega⟩⟩⟩
        · refine ⟨_, rfl, h.idle hl _ (by simp [causes]) [⟨a.k.toNat,
              .fail⟩] rest [.fail] ha ?_ (by simpa using hroom'), .inr (by rw [hidle _ rfl]; omega)⟩
          intro e he; simp only [List.mem_singleton] at he; subst he; exact ⟨by simp only; omega,
              by simp only; omega, rfl⟩
        · rw [Atu.append_next _ _ (by simp only; omega)]
          simp only [andThen]
          rw [ha] at ht
          rw [← hb]
          exact ⟨_, rfl, h.got hl b rest (by omega) (by omega) ha .expectCheckByte trivial (by simp) (by omega) a.k a.tdx a.needsCheck, .inr (by rw [ht]; simp [Atu.turns])⟩
  | expectCheckByte =>
    have h2 := h.first.2 (by rw [hs]; trivial) (by rw [hs]; simp)
    have ht : a.turns = a.answers.length + 1 := by simp [Atu.turns, hs]
    simp only [Atu.step, hs, Atu.checkByte]
    split
    · rename_i hnc
      split
      · exact ⟨_, rfl, hfail _ (by simp [causes]), .inr (by rw [hidle _ rfl]; omega)⟩
      · rename_i hroom
        have hroom' : a.consumed + 1 ≤ p.atrMax := by have := h.bound; simp only [Atu.room] at hroom; omega
        rcases Atu.receive_cases 1 (fun c a => andThen (a.append p c) fun a => Atu.complete { a with state := .done }) a with hr | ⟨rest, ha, hr⟩ | ⟨b, rest, ha, hb, hr⟩ <;> rw [hr]
        · exact ⟨a, rfl, h, .inl ⟨rfl, by simp only [Atu.stateOk, hs]; exact ⟨h2, hnc, by omega⟩⟩⟩
        · refine ⟨_, rfl, h.idle hl _ (by simp [causes]) [⟨1, .fail⟩] rest [.fail] ha ?_ (by simpa using hroom'),
              .inr (by rw [hidle _ rfl]; omega)⟩
          intro e he; simp only [List.mem_singleton] at he; subst he; exact ⟨by simp, by simp, rfl⟩
        · rw [Atu.append_next _ _ (by simp only; omega)]
          simp only [andThen]
          have g := h.got hl b rest (by omega) (by omega) ha .expectCheckByte trivial (by simp) (by omega) a.k a.tdx a.needsCheck
          rw [hb] at g
          obtain ⟨v, h1, h2⟩ := g.done (by simp)
          simp only [hb] at h1 h2 ⊢
          exact ⟨_, h1, h2, .inr (by rw [hidle _ rfl]; omega)⟩
    · obtain ⟨v, h1, h2⟩ := h.done hl
      exact ⟨_, h1, h2, .inr (by rw [hidle _ rfl]; omega)⟩

/-- A command in progress runs until it ends or waits on a request. -/
theorem Atu.since_run [p.Documented] {a0 : Atu} (n : Nat) (a : Atu) (h : Atu.Since p a0 a) (hn : a.turns ≤ n) :
    ∃ a', Atu.run p n a = .next a' ∧ Atu.Since p a0 a' ∧ a'.stateOk p := by
  induction n generalizing a with
  | zero =>
    refine ⟨a, rfl, h, ?_⟩
    cases hs : a.state <;> simp only [Atu.turns, hs] at hn <;> first | omega | skip
    · simp [Atu.stateOk, hs]
    all_goals (rcases h.state with hh | hh <;> rw [hs] at hh <;> cases hh)
  | succ n ih =>
    by_cases hl : a.state = .idle
    · exact ⟨a, Atu.run_idle p _ _ hl, h, by simp [Atu.stateOk, hl]⟩
    · obtain ⟨a', h1, h2, h3⟩ := Atu.since_step h hl
      rw [Atu.run, h1]
      simp only [andThen]
      rcases h3 with ⟨rfl, hok⟩ | hlt
      · have stuck : ∀ m, Atu.run p m a' = .next a' := by
          intro m; induction m with
          | zero => rfl
          | succ m ihm => rw [Atu.run, h1]; exact ihm
        exact ⟨a', stuck n, h, hok⟩
      · exact ih a' h2 (by omega)

theorem Atu.since_start (p : Params) (a : Atu) : Atu.Since p a.start a.start := by
  refine ⟨.inl trivial, by simp [Atu.start], fun x hx => by simp [Atu.start] at hx, ⟨fun _ => rfl,
      fun _ h => absurd rfl h⟩, ⟨[], by simp, by simp, by simp [Atu.start], by simp [Atu.start]⟩, ⟨[], rfl⟩, .inl ⟨by simp [Atu.start], rfl⟩, fun _ _ => rfl, id, id⟩

/-- What an ATR_RECEIVE that gives a next state did. -/
theorem atr_next (s t : State) [s.params.Documented] (h : exec .atrReceive s = .next t) :
    s.atu.state = .idle ∧ t = { s with atu := t.atu } ∧ Atu.Since s.params s.atu.start t.atu ∧ t.atu.stateOk s.params := by
  simp only [exec, execAtrReceive] at h
  split at h
  · rename_i hs
    obtain ⟨a', h1, h2,
        h3⟩ := Atu.since_run (s.atu.start.answers.length + 3) _ (Atu.since_start s.params s.atu) (Atu.turns_le _)
    rw [Atu.advance, h1] at h
    simp only [State.onAtu, andThen] at h
    cases h
    exact ⟨hs, rfl, h2, h3⟩
  · cases h

theorem Atu.append_grows {b : Bytes} {a a' : Atu} (h : a.append p b = .next a') : a'.trace = a.trace ∧
    a'.results = a.results := by
  obtain ⟨m, -, h⟩ := andThen_eq_next h
  cases h; exact ⟨rfl, rfl⟩

theorem Atu.complete_grows {a a' : Atu} (h : a.complete = .next a') : a.trace <+: a'.trace ∧
    a.results <+: a'.results := by
  unfold Atu.complete at h; split at h
  · obtain ⟨m, -, h⟩ := andThen_eq_next h
    cases h; exact ⟨List.prefix_rfl, List.prefix_append _ _⟩
  · cases h; exact ⟨List.prefix_rfl, List.prefix_append _ _⟩
  · cases h; exact ⟨List.prefix_rfl, List.prefix_rfl⟩

theorem Atu.receive_grows {n : Nat} {k : Bytes → Atu → Res Atu} {a a' : Atu} (h : a.receive n k = .next a')
    (hk : ∀ b x x', k b x = .next x' → x.trace <+: x'.trace ∧ x.results <+: x'.results) :
    a.trace <+: a'.trace ∧ a.results <+: a'.results := by
  rcases Atu.receive_cases n k a with hr | ⟨rest, ha, hr⟩ | ⟨b, rest, ha, hb, hr⟩ <;> rw [hr] at h
  · cases h; exact ⟨List.prefix_rfl, List.prefix_rfl⟩
  · cases h; exact ⟨List.prefix_append _ _, List.prefix_append _ _⟩
  · have := hk _ _ _ h
    exact ⟨(List.prefix_append _ _).trans this.1, this.2⟩

theorem Atu.grows_step {a a' : Atu} (h : a.step p = .next a') : a.trace <+: a'.trace ∧ a.results <+: a'.results := by
  unfold Atu.step at h; split at h
  · cases h; exact ⟨List.prefix_rfl, List.prefix_rfl⟩
  · refine Atu.receive_grows h fun b x x' hx => ?_
    obtain ⟨y, hy, hx⟩ := andThen_eq_next hx
    have := Atu.append_grows hy
    rw [← this.1, ← this.2]
    split at hx
    · cases hx; exact ⟨List.prefix_rfl, List.prefix_rfl⟩
    · cases hx; exact ⟨List.prefix_rfl, List.prefix_append _ _⟩
  · unfold Atu.interfaceChain at h; split at h
    · cases h; exact ⟨List.prefix_rfl, List.prefix_rfl⟩
    · split at h
      · cases h; exact ⟨List.prefix_rfl, List.prefix_append _ _⟩
      · refine Atu.receive_grows h fun b x x' hx => ?_
        obtain ⟨y, hy, hx⟩ := andThen_eq_next hx
        have := Atu.append_grows hy
        rw [← this.1, ← this.2]
        cases hx; unfold Atu.chain; split <;> exact ⟨List.prefix_rfl, List.prefix_rfl⟩
  · unfold Atu.historical at h; split at h
    · cases h; exact ⟨List.prefix_rfl, List.prefix_rfl⟩
    · split at h
      · cases h; exact ⟨List.prefix_rfl, List.prefix_append _ _⟩
      · refine Atu.receive_grows h fun b x x' hx => ?_
        obtain ⟨y, hy, hx⟩ := andThen_eq_next hx
        have := Atu.append_grows hy
        rw [← this.1, ← this.2]
        cases hx; exact ⟨List.prefix_rfl, List.prefix_rfl⟩
  · unfold Atu.checkByte at h; split at h
    · split at h
      · cases h; exact ⟨List.prefix_rfl, List.prefix_append _ _⟩
      · refine Atu.receive_grows h fun b x x' hx => ?_
        obtain ⟨y, hy, hx⟩ := andThen_eq_next hx
        have := Atu.append_grows hy
        rw [← this.1, ← this.2]
        exact Atu.complete_grows (a := { y with state := .done }) hx
    · exact Atu.complete_grows (a := { a with state := .done }) h
  · exact Atu.complete_grows h
  · exact Atu.complete_grows h

theorem Atu.grows_run (n : Nat) {a a' : Atu} (h : Atu.run p n a = .next a') : a.trace <+: a'.trace ∧
    a.results <+: a'.results := by
  induction n generalizing a with
  | zero => cases h; exact ⟨List.prefix_rfl, List.prefix_rfl⟩
  | succ n ih =>
    obtain ⟨b, h1, h2⟩ := andThen_eq_next h
    have e1 := Atu.grows_step h1; have e2 := ih h2
    exact ⟨e1.1.trans e2.1, e1.2.trans e2.2⟩

theorem Atu.inv_of_since {a0 a : Atu} (hs : Atu.Since p a0 a) (hok : a.stateOk p) (hw : a0.buf.wf)
    (hin : Memory.within a0.buf p.atrMax) (htr : ∀ e ∈ a0.trace, e.legal p) : a.Inv p := by
  refine ⟨hs.wf hw, hs.within hin, hs.bound, hs.written, hok, ?_⟩
  obtain ⟨es, h1, h2, -⟩ := hs.events
  intro e he; rw [h1, List.mem_append] at he; exact he.elim (htr e) (h2 e)

theorem Atu.since_refl {a : Atu} (h : a.Inv p) (hid : a.state ≠ .idle) : Atu.Since p a a := by
  have hst := h.state
  refine ⟨?_, h.bound, h.written, ?_, ⟨[], by simp, by simp, h.bound, by simp⟩, ⟨[], rfl⟩, .inl ⟨hid, rfl⟩,
      fun _ _ => rfl, id, id⟩
  · cases hs : a.state <;> simp only [Atu.stateOk, hs] at hst <;> first | exact .inl trivial | exact .inr rfl
  · cases hs : a.state <;> simp only [Atu.stateOk, hs] at hst
    · exact absurd hs hid
    · exact ⟨fun _ => hst, fun _ hh => absurd rfl hh⟩
    all_goals exact ⟨fun hh => by simp at hh, fun _ _ => hst.1⟩

theorem Atu.answers_inv {a : Atu} (h : a.Inv p) (o : AAnswer) : Atu.Inv p { a with answers := a.answers ++ [o] } :=
  ⟨h.wf, h.within, h.bound, h.written, h.state, h.trace⟩

theorem Atu.receive_inv [p.Documented] {a : Atu} (h : a.Inv p) (o : AAnswer) : ∃ a', a.receiveAnswer p o = .next a' ∧ a'.Inv p := by
  have h' := Atu.answers_inv h o
  unfold Atu.receiveAnswer Atu.advance
  by_cases hid : a.state = .idle
  · rw [Atu.run_idle p _ _ (by exact hid)]; exact ⟨_, rfl, h'⟩
  · obtain ⟨a', h1, h2, h3⟩ := Atu.since_run _ _ (Atu.since_refl h' hid) (Atu.turns_le _)
    exact ⟨a', h1, Atu.inv_of_since h2 h3 h.wf h.within h.trace⟩

end Sys2Proof.Machine
end

