-- ==== Sys2Proof/Laws/Codec.lean ====
section
/-! SUPPORT. Byte fields, frames and argument checks (30_encoding.md, 40_frame_codec.md). -/

namespace Sys2Proof

variable {p : Params} [p.Documented]

/-- Reading back a 16-bit field (R60). -/
theorem fromLe16_le16 (x : Nat) (h : x < 65536) : fromLe16 (BitVec.ofNat 8 x) (BitVec.ofNat 8 (x / 256)) = x := by
  simp only [fromLe16, BitVec.toNat_ofNat]; omega

theorem fromLe16_lt (lo hi : Byte) : fromLe16 lo hi < 65536 := by
  have := lo.isLt; have := hi.isLt; simp only [fromLe16]; omega

/-- A 16-bit field has one spelling (R60). -/
theorem le16_fromLe16 (lo hi : Byte) : le16 (fromLe16 lo hi) = [lo, hi] := by
  have := lo.isLt; have := hi.isLt
  simp only [le16, fromLe16, List.cons.injEq, and_true]
  constructor <;> apply BitVec.eq_of_toNat_eq <;> simp only [BitVec.toNat_ofNat] <;> omega

/-- Reading back a 32-bit field (R61). -/
theorem fromLe32_le32 (x : Word) :
    fromLe32 (x.extractLsb' 0 8) (x.extractLsb' 8 8) (x.extractLsb' 16 8) (x.extractLsb' 24 8) = x := by
  have := x.isLt
  apply BitVec.eq_of_toNat_eq
  simp only [fromLe32, BitVec.toNat_ofNat, BitVec.extractLsb'_toNat, Nat.shiftRight_eq_div_pow]
  omega

/-- A 32-bit field has one spelling (R61). -/
theorem le32_fromLe32 (b0 b1 b2 b3 : Byte) : le32 (fromLe32 b0 b1 b2 b3) = [b0, b1, b2, b3] := by
  have := b0.isLt; have := b1.isLt; have := b2.isLt; have := b3.isLt
  simp only [le32, fromLe32, List.cons.injEq, and_true]
  refine ⟨?_, ?_, ?_, ?_⟩ <;> apply BitVec.eq_of_toNat_eq <;>
    simp only [BitVec.toNat_ofNat, BitVec.extractLsb'_toNat, Nat.shiftRight_eq_div_pow] <;> omega

theorem extractLsb_byte (x : Word) (k : Nat) : x.extractLsb' k 8 = BitVec.ofNat 8 (x.toNat / 2^k) := by
  apply BitVec.eq_of_toNat_eq
  simp only [BitVec.toNat_ofNat, BitVec.extractLsb'_toNat, Nat.shiftRight_eq_div_pow]

theorem addrFits_iff (a : Nat) : addrFits p a = true ↔ a < 65536 := by simp [addrFits]

theorem lenFits_iff (a : Nat) : lenFits p a = true ↔ a < 65536 := by simp [lenFits]

/-- A read frame in front of any bytes decodes, and leaves them (R62, R67). -/
theorem decodeFrame_read (p : Params) [p.Documented] (s : Byte) (a : Nat) (h : a < 65536) (rest : Bytes) :
    decodeFrame p (frameRead p s a ++ rest) = .ok (.read s a, rest) := by
  simp [decodeFrame, frameRead, le16, decodeRead, fromLe16_le16 a h]

/-- A write frame in front of any bytes decodes, and leaves them (R63, R67). -/
theorem decodeFrame_write (p : Params) [p.Documented] (s : Byte) (a : Nat) (v : Word) (h : a < 65536) (rest : Bytes) :
    decodeFrame p (frameWrite p s a v ++ rest) = .ok (.write s a v, rest) := by
  simp [decodeFrame, frameWrite, le16, le32, decodeWrite, fromLe16_le16 a h, fromLe32_le32 v]

/-- A stream-read frame in front of any bytes decodes, and leaves them (R65, R67). -/
theorem decodeFrame_streamRead (p : Params) [p.Documented] (s : Byte) (a n : Nat) (h : a < 65536) (hn : n < 65536) (rest : Bytes) :
    decodeFrame p (frameStreamRead p s a n ++ rest) = .ok (.streamRead s a n, rest) := by
  simp [decodeFrame, frameStreamRead, le16,
    decodeStreamRead, fromLe16_le16 a h, fromLe16_le16 n hn]

/-- A stream-write frame in front of any bytes decodes, and leaves them (R64, R67). -/
theorem decodeFrame_streamWrite (p : Params) [p.Documented] (s : Byte) (a : Nat) (d : Bytes) (h : a < 65536) (hn : d.length < 65536)
    (rest : Bytes) :
    decodeFrame p (frameStreamWrite p s a d ++ rest) = .ok (.streamWrite s a d, rest) := by
  have e := fromLe16_le16 d.length hn
  simp [decodeFrame, frameStreamWrite, le16,
    decodeStreamWrite, fromLe16_le16 a h, e]

/-- A flush frame in front of any bytes decodes, and leaves them (R66, R67). -/
theorem decodeFrame_flush (p : Params) [p.Documented] (s : Byte) (rest : Bytes) :
    decodeFrame p (frameFlush p s ++ rest) = .ok (.flush s, rest) := by
  simp [decodeFrame, frameFlush]

/-- What the frame decoder accepts is the layout of a well-formed instruction, followed by what is left (R59, R71). -/
theorem decodeFrame_inv (b rest : Bytes) (i : Instr) (h : decodeFrame p b = .ok (i, rest)) :
    i.wf p = true ∧ ∃ f, encode p i = some (.frame f) ∧ b = f ++ rest := by
  unfold decodeFrame at h
  split at h
  · rename_i s op tl
    split at h
    · rename_i ho; subst ho
      unfold decodeWrite at h
      split at h <;> simp only [Except.ok.injEq, Prod.mk.injEq, reduceCtorEq] at h
      obtain ⟨rfl, rfl⟩ := h
      simp [Instr.wf, addrFits_iff, fromLe16_lt, encode, frameWrite, le16_fromLe16, le32_fromLe32]
    split at h
    · rename_i ho; subst ho
      unfold decodeRead at h
      split at h <;> simp only [Except.ok.injEq, Prod.mk.injEq, reduceCtorEq] at h
      obtain ⟨rfl, rfl⟩ := h
      simp [Instr.wf, addrFits_iff, fromLe16_lt, encode, frameRead, le16_fromLe16]
    split at h
    · rename_i ho; subst ho
      unfold decodeStreamWrite at h
      split at h
      · split at h <;> simp only [Except.ok.injEq, Prod.mk.injEq, reduceCtorEq] at h
        obtain ⟨rfl, rfl⟩ := h
        rename_i hl
        simp [Instr.wf, addrFits_iff, lenFits_iff, fromLe16_lt, encode, frameStreamWrite, le16_fromLe16,
          Nat.min_eq_left hl]
      · simp at h
    split at h
    · rename_i ho; subst ho
      unfold decodeStreamRead at h
      split at h <;> simp only [Except.ok.injEq, Prod.mk.injEq, reduceCtorEq] at h
      obtain ⟨rfl, rfl⟩ := h
      simp [Instr.wf, addrFits_iff, lenFits_iff, fromLe16_lt, encode, frameStreamRead, le16_fromLe16]
    split at h
    · rename_i ho; subst ho
      simp only [Except.ok.injEq, Prod.mk.injEq] at h
      obtain ⟨rfl, rfl⟩ := h
      simp [Instr.wf, encode, frameFlush]
    · simp at h
  · simp at h

end Sys2Proof

namespace Sys2Proof.Machine

variable {p : Params} [p.Documented]

theorem validAddr_iff (a : Nat) : validAddr p a = true ↔ a < 65535 := by simp [validAddr]

theorem validLen_iff (a : Nat) : validLen p a = true ↔ a ≤ 65535 := by simp [validLen]

theorem validAddr_true {a : Nat} (h : a < 0xFFFF) : validAddr p a = true := (validAddr_iff a).mpr h

theorem validAddr_false {a : Nat} (h : 0xFFFF ≤ a) : validAddr p a = false := by
  rw [Bool.eq_false_iff]; intro hc; rw [validAddr_iff] at hc; omega

theorem validLen_true {a : Nat} (h : a ≤ 0xFFFF) : validLen p a = true := (validLen_iff a).mpr h

theorem validLen_false {a : Nat} (h : 0xFFFF < a) : validLen p a = false := by
  rw [Bool.eq_false_iff]; intro hc; rw [validLen_iff] at hc; omega

theorem controlByte_reset (v : OpVariant) : controlByte .reset v =
    (if v = .main then 0x31 else 0x60) := by cases v <;> rfl

theorem controlByte_chunk (v : OpVariant) : controlByte .sendChunk v =
    (if v = .main then 0x32 else 0x34) := by cases v <;> rfl

theorem controlByte_status (v : OpVariant) : controlByte .status v =
    (if v = .main then 0x30 else 0x33) := by cases v <;> rfl

omit [p.Documented] in
theorem decode_controlByte (k : ControlKind) (v : OpVariant) : decode p (.control (controlByte k v)) = .ok
    (controlInstr k v) := by
  cases k <;> cases v <;> rfl

theorem decReadReply_eq (p : Params) [p.Documented] (req b : Bytes) (hb : b.length = 6) :
   (∃ v, decReadReply p req b = .ok v ∧ readResult p req b = .ok (.word v)) ∨
   (∃ c, decReadReply p req b = .error c ∧ readResult p req b = .err c) := by
  match b, hb with
  | [e0, e1, b0, b1, b2, b3], _ =>
    simp only [decReadReply, decStreamReadReply, Params.valueLen_doc, Params.echoLen_doc, List.length_cons,
      List.length_nil, if_true, List.take, List.drop, readResult, decReadResponse]
    cases echoOk p req [e0, e1] <;> simp

end Sys2Proof.Machine
end

