-- ==== Sys2Proof/Laws/Bitstream.lean ====
section
/-! SUPPORT. The bitstream sequencer: chunks, control requests, and what one step of BSU can do, said once. -/

namespace Sys2Proof.Machine

variable {p : Params} [p.Documented]

/-- The offset the search counts from. -/
theorem findMarker_off (m : Bytes) (k : Nat) (b : Bytes) : findMarker m k b = (findMarker m 0 b).map (· + k) := by
  induction b generalizing k with
  | nil => rfl
  | cons x b ih =>
    simp only [findMarker]
    split
    · simp
    · rw [ih (k+1), ih (0+1)]; simp [Option.map_map, Function.comp_def]; congr 1; funext x; omega

theorem needsPad_iff (n : Nat) : needsPad p n = true ↔ n % 64 = 0 := by simp [needsPad, Params.mps_doc]

theorem exec_control (k : ControlKind) (v : OpVariant) (s : State) :
    exec (controlInstr k v) s = s.onBsu (s.bsu.control s.params k v) := by cases k <;> cases v <;> rfl

theorem Bsu.control_eq_step (p : Params) (k : ControlKind) (v : OpVariant) (b : Bsu) (h : b.selected = some k)
    (hv : variantOf p k = v) :
    b.control p k v = b.step p := by simp [Bsu.control, h, hv]

theorem Bsu.step_ne_refused (p : Params) (b : Bsu) (r : Refusal) : b.step p ≠ .refused r := by
  unfold Bsu.step; split <;> try simp
  · unfold Bsu.detect; refine andThen_ne_refused (memRead_ne_refused _ _ _ _) fun x => ?_
    dsimp only; split; · simp
    split
    · exact andThen_ne_refused (memWrite_ne_refused _ _ _ _ _) fun _ => by simp
    · simp
  · unfold Bsu.padStep; split
    · exact andThen_ne_refused (memWrite_ne_refused _ _ _ _ _) fun _ => by simp
    · simp
  · unfold Bsu.sendChunk; split
    · exact andThen_ne_refused (memRead_ne_refused _ _ _ _) fun _ => by simp
    · simp

theorem chunkCount_le (len : Nat) : (chunkCount p len - 1) * 2048 < len ∨ len = 0 := by
  simp only [chunkCount, Params.chunk_doc]; omega

theorem chunkCount_mul (len : Nat) : len ≤ chunkCount p len * 2048 := by
  simp only [chunkCount, Params.chunk_doc]; omega

theorem chunkCount_lt {len j : Nat} : j < chunkCount p len ↔ j * 2048 < len := by
  simp only [chunkCount, Params.chunk_doc]; omega

omit [p.Documented] in
theorem chunksOf_length (b : Bytes) : (chunksOf p b).length = chunkCount p b.length := by simp [chunksOf]

theorem chunksOf_get (b : Bytes) (j : Nat) (h : j < chunkCount p b.length) : (chunksOf p b)[j]? = some
    ((b.drop (j * 2048)).take 2048) := by
  simp [chunksOf, h, Params.chunk_doc]

theorem chunks_flatten (b : Bytes) (n : Nat) :
    ((List.range n).map fun j => (b.drop (j * p.chunk)).take p.chunk).flatten = b.take (n * 2048) := by
  induction n with
  | zero => simp
  | succ n ih =>
    rw [List.range_succ, List.map_append, List.flatten_append, ih]
    simp only [Params.chunk_doc, List.map_cons, List.map_nil, List.flatten_cons, List.flatten_nil, List.append_nil]
    rw [Nat.succ_mul, List.take_add]

theorem chunk_readN (b : Bytes) (j : Nat) (h : j < chunkCount p b.length) :
    (Memory.ofBytes 0 b).readN (j * 2048) (chunkLen p b.length j) = some ((b.drop (j * 2048)).take 2048) := by
  rw [Memory.readN_eq_some]
  rw [chunkCount_lt] at h
  refine ⟨?_, ?_⟩
  · simp only [List.length_take, List.length_drop, chunkLen, Params.chunk_doc]; omega
  · intro i hi
    simp only [chunkLen, Params.chunk_doc] at hi
    rw [Memory.read_ofBytes, if_pos (by omega), List.getElem?_take, if_pos (by omega), List.getElem?_drop]
    simp

theorem chunk_length (b : Bytes) (j : Nat) : ((b.drop (j * 2048)).take 2048).length = min 2048
    (b.length - j * 2048) := by
  simp

theorem uploadBytes_length (image : Bytes) : 512 ≤ (uploadBytes p image).length ∧
    (uploadBytes p image).length % 64 ≠ 0 := by
  have h1 : (framedImage p image).length = 512 + image.length := by simp [framedImage, Params.prefixLen_doc]
  have h2 : (orientedImage p image).length = 512 + image.length := by
    unfold orientedImage; split
    · simp only [List.length_map, h1]
    · exact h1
  unfold uploadBytes
  rw [h1]
  split
  · simp only [List.length_append, h2, List.length_singleton]; omega
  · rw [h2]; omega

theorem Bsu.run_idle (p : Params) (n : Nat) (b : Bsu) (h : b.state = .idle) : Bsu.run p n b = .next b := by
  induction n with
  | zero => rfl
  | succ n ih => simp [Bsu.run, Bsu.step, h, andThen, ih]

theorem Bsu.run_add (p : Params) (m n : Nat) (b : Bsu) : Bsu.run p (m + n) b = andThen (Bsu.run p m b)
    (Bsu.run p n) := by
  induction m generalizing b with
  | zero => simp [Bsu.run, andThen]
  | succ m ih =>
    rw [Nat.succ_add]; simp only [Bsu.run]
    cases b.step p with
    | next b' => simpa only [andThen] using ih b'
    | fault => simp only [andThen]
    | refused => simp only [andThen]

theorem Bsu.run_ge (p : Params) {k n : Nat} {b b' : Bsu} (hk : k ≤ n) (h : Bsu.run p k b = .next b')
    (hi : b'.state = .idle) :
    Bsu.run p n b = .next b' := by
  obtain ⟨m, rfl⟩ := Nat.exists_eq_add_of_le hk
  rw [Bsu.run_add, h]; exact Bsu.run_idle p m b' hi

/-- BSU after an upload in progress ended so. -/
def Bsu.endsAs (b : Bsu) (e : UploadEnd) : Bsu :=
  { b with state := .idle, chunkIdx := e.sent, ctrlOk := b.ctrlOk && !e.late, answers := e.rest,
           trace := b.trace ++ e.events, results := b.results ++ [e.result] }

/-- The status read runs as `statusSpec` says (R131, R132). -/
theorem Bsu.status_run (p : Params) (b : Bsu) (e : UploadEnd) (hs : b.state = .status)
    (h : statusSpec p b.timeout b.chunkIdx b.answers = some e) : Bsu.run p 1 b = .next (b.endsAs e) ∧
        1 ≤ b.answers.length := by
  obtain ⟨st, buf, len, rev, pad, idx, ok, t, ans, tr, rs⟩ := b
  simp only at hs h; subst hs
  unfold statusSpec at h
  split at h
  · refine ⟨?_, by simp⟩
    split at h
    · cases h; simp [Bsu.run, Bsu.step, andThen, Bsu.statusRead, Bsu.ctrlRead, ReadOutcome.allowed, Bsu.event, cread,
          Bsu.timeoutHit, Bsu.raise, Bsu.complete, Bsu.deliver, Bsu.endsAs]
    · cases h; simp [Bsu.run, Bsu.step, andThen, Bsu.statusRead, Bsu.ctrlRead, ReadOutcome.allowed, Bsu.event, cread,
          Bsu.raise, Bsu.complete, Bsu.deliver, Bsu.endsAs]
    · split at h
      · rename_i hl
        split at h
        · cases h; simp [Bsu.run, Bsu.step, andThen, Bsu.statusRead, Bsu.ctrlRead, ReadOutcome.allowed, Bsu.event,
              cread, Bsu.raise, Bsu.complete, Bsu.deliver, Bsu.endsAs]
        · rename_i c tl
          have hl' : tl.length < p.statusLen := hl
          cases h; simp [Bsu.run, Bsu.step, andThen, Bsu.statusRead, Bsu.ctrlRead, ReadOutcome.allowed, hl',
              Bsu.event, cread, Bsu.raise, Bsu.complete, Bsu.deliver, Bsu.endsAs]
          split <;> rfl
      · cases h
  · cases h

/-- The chunks and the status read run as `chunksSpec` says (R129 to R132). -/
theorem Bsu.chunks_run (p : Params) [p.Documented] (bytes : Bytes) : ∀ (n : Nat) (b : Bsu) (e : UploadEnd),
    b.buf = Memory.ofBytes 0 bytes → b.len = bytes.length → b.chunkIdx + n = chunkCount p bytes.length →
    b.state = (if b.chunkIdx < chunkCount p bytes.length then .sendChunk else .status) →
    chunksSpec p b.timeout b.chunkIdx ((chunksOf p bytes).drop b.chunkIdx) b.answers = some e →
    ∃ k, k ≤ b.answers.length ∧ Bsu.run p k b = .next (b.endsAs e) := by
  intro n
  induction n with
  | zero =>
    intro b e hb hl hn hs h
    rw [if_neg (by omega)] at hs
    rw [List.drop_eq_nil_of_le (by rw [chunksOf_length]; omega)] at h
    have := Bsu.status_run p b e hs h
    exact ⟨1, this.2, this.1⟩
  | succ n ih =>
    intro b e hb hl hn hs h
    have hlt : b.chunkIdx < chunkCount p bytes.length := by omega
    rw [if_pos hlt] at hs
    have hget := chunksOf_get bytes b.chunkIdx hlt
    obtain ⟨hi, hget'⟩ := List.getElem?_eq_some_iff.mp hget
    rw [List.drop_eq_getElem_cons hi, hget'] at h
    have hrd : b.buf.readN (b.chunkIdx * p.chunk) (chunkLen p b.len b.chunkIdx) = some ((bytes.drop (b.chunkIdx * 2048)).take 2048) := by
      rw [hb, hl, Params.chunk_doc]; exact chunk_readN bytes b.chunkIdx hlt
    generalize (bytes.drop (b.chunkIdx * 2048)).take 2048 = c at h hrd
    have hstep : b.step p = .next (b.ctrlWrite (controlByte .sendChunk p.chunkOp) c fun m b =>
        if m = c.length then Bsu.nextChunk p { b with chunkIdx := b.chunkIdx + 1 } else b.raise .peChunkLen) := by
      simp only [Bsu.step, hs, Bsu.sendChunk]
      rw [if_pos (by rw [hl]; exact hlt)]
      simp only [memRead_def, hrd, andThen]
    obtain ⟨st, buf, len, rev, pad, idx, ok, t, ans, tr, rs⟩ := b
    simp only at hs hb hl hn h hlt; subst hs; subst hl
    unfold chunksSpec at h
    split at h
    · rename_i hh; cases hh
    · rename_i hh; cases hh
      split at h
      · cases h; refine ⟨1, by simp, ?_⟩
        rw [Bsu.run, hstep]; simp [andThen, Bsu.run, Bsu.ctrlWrite, Bsu.event, cwrite, Bsu.timeoutHit, Bsu.raise,
            Bsu.complete, Bsu.deliver, Bsu.endsAs]
      · cases h; refine ⟨1, by simp, ?_⟩
        rw [Bsu.run, hstep]; simp [andThen, Bsu.run, Bsu.ctrlWrite, Bsu.event, cwrite, Bsu.raise, Bsu.complete,
            Bsu.deliver, Bsu.endsAs]
      · rename_i m
        split at h
        · rename_i hm
          split at h
          · cases h
          rename_i f hf
          cases h
          subst hm
          have := ih ⟨if idx + 1 < chunkCount p bytes.length then .sendChunk else .status, buf, bytes.length, rev, pad,
              idx + 1, ok, t, _, 
             tr ++ [cwrite (controlByte .sendChunk p.chunkOp) c t (.transferred c.length)], rs⟩ f hb rfl (by simp only; omega) rfl hf
          obtain ⟨k, hk, hrun⟩ := this
          refine ⟨k + 1, by simpa using hk, ?_⟩
          rw [Bsu.run, hstep]
          simp only [andThen, Bsu.ctrlWrite, Bsu.event, if_true, Bsu.nextChunk]
          rw [← cwrite]
          by_cases hlast : idx + 1 < chunkCount p bytes.length
          · simp only [hlast, if_true] at hrun ⊢; rw [hrun]; simp [Bsu.endsAs]
          · simp only [hlast, if_false] at hrun ⊢; rw [hrun]; simp [Bsu.endsAs]
        · rename_i hm
          cases h; refine ⟨1, by simp, ?_⟩
          rw [Bsu.run, hstep]; simp [andThen, Bsu.run, Bsu.ctrlWrite, hm, Bsu.event, cwrite, Bsu.raise, Bsu.complete,
              Bsu.deliver, Bsu.endsAs]
    · cases h

/-- The control commands of an upload run as `uploadSpec` says (R127 to R132). -/
theorem Bsu.upload_run (p : Params) [p.Documented] (bytes : Bytes) (hb : 0 < bytes.length) (b : Bsu) (e : UploadEnd)
    (hbuf : b.buf = Memory.ofBytes 0 bytes) (hl : b.len = bytes.length) (hi : b.chunkIdx = 0) (hs : b.state = .resetCmd)
    (h : uploadSpec p b.timeout (chunksOf p bytes) b.answers = some e) :
    ∃ k, k ≤ b.answers.length ∧ Bsu.run p k b = .next (b.endsAs e) := by
  obtain ⟨st, buf, len, rev, pad, idx, ok, t, ans, tr, rs⟩ := b
  simp only at hs hbuf hl hi h; subst hs; subst hl; subst hi
  unfold uploadSpec at h
  split at h
  · split at h
    · cases h; refine ⟨1, by simp, ?_⟩
      simp [Bsu.run, Bsu.step, andThen, Bsu.resetCommand, Bsu.ctrlWrite, Bsu.event, cwrite, Bsu.timeoutHit, Bsu.raise,
          Bsu.complete, Bsu.deliver, Bsu.endsAs]
    · cases h; refine ⟨1, by simp, ?_⟩
      simp [Bsu.run, Bsu.step, andThen, Bsu.resetCommand, Bsu.ctrlWrite, Bsu.event, cwrite, Bsu.raise, Bsu.complete,
          Bsu.deliver, Bsu.endsAs]
    · split at h
      · cases h
      rename_i f hf
      cases h
      have h0 : 0 < chunkCount p bytes.length := chunkCount_lt.mpr (by omega)
      obtain ⟨k, hk, hrun⟩ := Bsu.chunks_run p bytes (chunkCount p bytes.length) ⟨.sendChunk, buf, bytes.length, rev,
          pad, 0, ok, t, _, 
             tr ++ [cwrite (controlByte .reset p.resetOp) [] t (.transferred _)], rs⟩ f hbuf rfl (by simp) (by simp [h0]) hf
      refine ⟨k + 1, by simpa using hk, ?_⟩
      simp only [Bsu.run, Bsu.step, andThen, Bsu.resetCommand, Bsu.ctrlWrite, Bsu.event]
      rw [← cwrite, hrun]; simp [Bsu.endsAs]
  · cases h

theorem framedImage_length (image : Bytes) :
    (framedImage p image).length = 512 + image.length := by simp [framedImage, Params.prefixLen_doc]

theorem orientedImage_length (image : Bytes) : (orientedImage p image).length = 512 + image.length := by
  unfold orientedImage; split
  · simp only [List.length_map, framedImage_length]
  · exact framedImage_length _

/-- Load, as one record (R122). -/
theorem Bsu.load_eq (p : Params) [p.Documented] (image : Bytes) (t : Timeout) (b : Bsu) (h : image.length ≤ p.maxImage) :
    (b.load p image t) = { b with state := .detect, buf := Memory.ofBytes 0 (framedImage p image),
                                  len := 512 + image.length,
                                  reversed := false, padded := false, chunkIdx := 0, timeout := t } := by
  simp only [Bsu.load, framedImage]; rw [if_neg (by omega)]; simp

/-- Detect on a loaded image that holds a marker (R123 to R125). -/
theorem Bsu.detect_loaded (p : Params) [p.Documented] (image : Bytes) (b : Bsu) (hbuf : b.buf = Memory.ofBytes 0 (framedImage p image))
    (hlen : b.len = 512 + image.length) (hr : b.reversed = false) (h : image.length ≤ p.maxImage)  (hm : syncMissing p image = false) :
    b.detect p = .next { b with buf := Memory.ofBytes 0 (orientedImage p image), reversed := imageReversed p image,
                                state := .pad } := by
  obtain ⟨st, buf, len, rev, pad, idx, ok, t, ans, tr, rs⟩ := b
  simp only at hbuf hlen hr; subst hbuf; subst hlen; subst hr
  simp only [Bsu.detect, memRead_def, Memory.readN_ofBytes_all _ _ (framedImage_length image), andThen]
  simp only [syncMissing] at hm
  rw [if_neg (by rw [hm]; decide)]
  have : reversedFirst (findMarker p.syncN 0 (framedImage p image)) (findMarker p.syncR 0 (framedImage p image)) = imageReversed p image := rfl
  rw [this]
  cases hrev : imageReversed p image
  · simp [orientedImage, hrev]
  · simp only [if_true, memWrite_def]
    rw [if_pos (by simp only [bsuCapacity, List.length_map, framedImage_length, Params.prefixLen_doc]; omega)]
    rw [Memory.writeN_ofBytes _ _ _ (by simp), orientedImage, if_pos hrev]

/-- Pad on a loaded image (R126). -/
theorem Bsu.padStep_loaded (p : Params) [p.Documented] (image o : Bytes) (b : Bsu) (hbuf : b.buf = Memory.ofBytes 0 o)
    (ho : orientedImage p image = o)
    (hlen : b.len = 512 + image.length) (hr : b.padded = false) (h : image.length ≤ p.maxImage) :
    b.padStep p = .next { b with buf := Memory.ofBytes 0 (uploadBytes p image), len := (uploadBytes p image).length,
                                 padded := needsPad p (framedImage p image).length, state := .resetCmd } := by
  have hol : o.length = 512 + image.length := by rw [← ho]; exact orientedImage_length image
  unfold uploadBytes
  rw [ho]
  clear ho
  obtain ⟨st, buf, len, rev, pad, idx, ok, t, ans, tr, rs⟩ := b
  simp only at hbuf hlen hr; subst hbuf; subst hlen; subst hr
  simp only [Bsu.padStep, framedImage_length]
  by_cases hc : (512 + image.length) % 64 = 0
  · simp only [(needsPad_iff _).mpr hc, if_true, memWrite_def]
    rw [if_pos (by simp only [bsuCapacity, Params.prefixLen_doc, List.length_singleton]; omega)]
    have := Memory.write_ofBytes_end 0 o 0x00
    rw [hol, Nat.zero_add] at this
    simp only [andThen, Memory.writeN, this, List.length_append, hol, List.length_singleton, hc, if_true]
  · have hf : needsPad p (512 + image.length) = false := by rw [Bool.eq_false_iff]; intro hh; exact hc ((needsPad_iff _).mp hh)
    simp [hf, hol, hc]

/-- BSU_STATE in the course of an upload (R121). -/
def Bsu.during (p : Params) (b : Bsu) : Prop :=
  match b.state with
  | .idle => True
  | .detect => 512 ≤ b.len ∧ b.len < bsuCapacity p ∧ b.chunkIdx = 0
  | .pad => 512 ≤ b.len ∧ b.len < bsuCapacity p ∧ b.chunkIdx = 0
  | .resetCmd => b.loaded p ∧ b.chunkIdx = 0
  | .sendChunk => b.loaded p ∧ b.chunkIdx < chunkCount p b.len
  | .status => b.loaded p ∧ b.chunkIdx = chunkCount p b.len
  | .done => False
  | .failed _ => False

/-- What can have happened to BSU between a moment of an upload (`b0`) and a later one (`b`). -/
structure Bsu.Since (p : Params) (b0 b : Bsu) : Prop where
  state : b.during p
  bound : b.len ≤ bsuCapacity p
  written : Memory.written b.buf b.len
  events : ∃ es, b.trace = b0.trace ++ es ∧ (∀ e ∈ es, e.legal p) ∧ b.ctrlOk = (b0.ctrlOk && !es.any CEvent.isTimeout)
  channel : b.state ≠ .idle → b.ctrlOk = b0.ctrlOk
  used : ∃ used, b0.answers = used ++ b.answers
  results : (b.state ≠ .idle ∧ b.results = b0.results) ∨
    (b.state = .idle ∧ ∃ v, b.results = b0.results ++ [v] ∧ ∀ e, v = .err e → e ∈ causes (.bsProvision []))
  wf : b.buf.wf
  within : Memory.within b.buf (bsuCapacity p)

/-- A bound on the steps that can still come. -/
def Bsu.turns (b : Bsu) : Nat :=
  match b.state with
  | .detect => b.answers.length + 2
  | .pad => b.answers.length + 1
  | .resetCmd | .sendChunk | .status => b.answers.length
  | _ => 0

theorem Bsu.turns_le (b : Bsu) : b.turns ≤ b.answers.length + 3 := by
  unfold Bsu.turns; split <;> omega

/-- Everything a CWrite can do (R19, R135). -/
theorem Bsu.ctrlWrite_cases (op : Byte) (data : Bytes) (k : Nat → Bsu → Bsu) (b : Bsu) :
    b.ctrlWrite op data k = b ∨
    (∃ o rest r, b.answers = .write o :: rest ∧ (r = .toCtrl ∨ r = .teCtrl) ∧
      b.ctrlWrite op data k = { b with state := .idle, ctrlOk := b.ctrlOk && !(cwrite op data b.timeout o).isTimeout,
                                       answers := rest,
                                       trace := b.trace ++ [cwrite op data b.timeout o], results := b.results ++ [.err r] }) ∨
    (∃ m rest, b.answers = .write (.transferred m) :: rest ∧
      b.ctrlWrite op data k = k m { b with answers := rest,
                                           trace := b.trace ++ [cwrite op data b.timeout (.transferred m)] }) := by
  unfold Bsu.ctrlWrite
  split
  · rename_i o rest ha
    cases o with
    | transferred m => exact .inr (.inr ⟨m, rest, ha, rfl⟩)
    | timeout => exact .inr (.inl ⟨_, rest, .toCtrl, ha, .inl rfl,
        by simp [Bsu.event, Bsu.timeoutHit, Bsu.raise, Bsu.complete, Bsu.deliver, cwrite, CEvent.isTimeout]⟩)
    | transferError => exact .inr (.inl ⟨_, rest, .teCtrl, ha, .inr rfl,
        by simp [Bsu.event, Bsu.raise, Bsu.complete, Bsu.deliver, cwrite, CEvent.isTimeout]⟩)
  · exact .inl rfl

/-- Everything a CRead can do (R19, R135). -/
theorem Bsu.ctrlRead_cases (op : Byte) (n : Nat) (k : Bytes → Bsu → Bsu) (b : Bsu) :
    b.ctrlRead op n k = b ∨
    (∃ o rest r, b.answers = .read o :: rest ∧ (r = .toCtrl ∨ r = .teCtrl) ∧ o.allowed n = true ∧
      b.ctrlRead op n k = { b with state := .idle, ctrlOk := b.ctrlOk && !(cread op n b.timeout o).isTimeout,
                                   answers := rest,
                                   trace := b.trace ++ [cread op n b.timeout o], results := b.results ++ [.err r] }) ∨
    (∃ st rest, b.answers = .read (.bytes st) :: rest ∧ ReadOutcome.allowed n (.bytes st) = true ∧
      b.ctrlRead op n k = k st { b with answers := rest,
                                        trace := b.trace ++ [cread op n b.timeout (.bytes st)] }) := by
  unfold Bsu.ctrlRead
  split
  · rename_i o rest ha
    split
    · rename_i hal
      cases o with
      | bytes m => exact .inr (.inr ⟨m, rest, ha, hal, rfl⟩)
      | timeout => exact .inr (.inl ⟨_, rest, .toCtrl, ha, .inl rfl, hal,
          by simp [Bsu.event, Bsu.timeoutHit, Bsu.raise, Bsu.complete, Bsu.deliver, cread, CEvent.isTimeout]⟩)
      | transferError => exact .inr (.inl ⟨_, rest, .teCtrl, ha, .inr rfl, hal,
          by simp [Bsu.event, Bsu.raise, Bsu.complete, Bsu.deliver, cread, CEvent.isTimeout]⟩)
    · exact .inl rfl
  · exact .inl rfl

/-- Everything the reset command can do (R127). -/
theorem Bsu.resetCommand_cases (op : Byte) (b : Bsu) :
    b.resetCommand op = b ∨
    (∃ o rest r, b.answers = .write o :: rest ∧ (r = .toCtrl ∨ r = .teCtrl) ∧
      b.resetCommand op = { b with state := .idle, ctrlOk := b.ctrlOk && !(cwrite op [] b.timeout o).isTimeout,
                                   answers := rest,
                                   trace := b.trace ++ [cwrite op [] b.timeout o], results := b.results ++ [.err r] }) ∨
    (∃ m rest, b.answers = .write (.transferred m) :: rest ∧
      b.resetCommand op = { b with state := .sendChunk, answers := rest,
                                   trace := b.trace ++ [cwrite op [] b.timeout (.transferred m)] }) :=
  Bsu.ctrlWrite_cases op [] _ b

/-- Everything the status read can do (R131, R132). -/
theorem Bsu.statusRead_cases (p : Params) (op : Byte) (b : Bsu) :
    b.statusRead p op = b ∨
    (∃ o rest v, b.answers = .read o :: rest ∧ o.allowed p.statusLen = true ∧ (∀ e, v = .err e →
        e ∈ causes .ctrlStatus) ∧
      b.statusRead p op = { b with state := .idle,
                                   ctrlOk := b.ctrlOk && !(cread op p.statusLen b.timeout o).isTimeout,
                                   answers := rest,
                                   trace := b.trace ++ [cread op p.statusLen b.timeout o], results := b.results ++ [v] }) := by
  obtain ⟨k, hk⟩ : ∃ k : Bytes → Bsu → Bsu, k = (fun st b =>
    match st with
    | [] => b.raise .peStatusShort
    | c :: _ => if c = 0x00 then b.raise .peNotConfigured else Bsu.complete { b with state := .done }) := ⟨_, rfl⟩
  have e : b.statusRead p op = b.ctrlRead op p.statusLen k := by rw [hk]; rfl
  rw [e]
  rcases Bsu.ctrlRead_cases op p.statusLen k b with h | ⟨o, rest, r, ha, hr, hal, h⟩ | ⟨st, rest, ha, hal, h⟩
  · exact .inl h
  · refine .inr ⟨o, rest, .err r, ha, hal, ?_, h⟩
    rintro e he; cases he; rcases hr with rfl | rfl <;> simp [causes]
  · rw [h, hk]
    have hb : (b.ctrlOk && !(cread op p.statusLen b.timeout (.bytes st)).isTimeout) = b.ctrlOk := by simp [cread, CEvent.isTimeout]
    cases st with
    | nil => exact .inr ⟨_, rest, .err .peStatusShort, ha, hal, fun e he => by cases he; simp [causes],
        by rw [hb]; rfl⟩
    | cons c st =>
      dsimp only
      split
      · exact .inr ⟨_, rest, .err .peNotConfigured, ha, hal, fun e he => by cases he; simp [causes], by rw [hb]; rfl⟩
      · exact .inr ⟨_, rest, .ok .none, ha, hal, fun e he => (by cases he), by rw [hb]; rfl⟩

omit [p.Documented] in
/-- Everything a send-chunk can do when its chunk was written (R129, R130). -/
theorem Bsu.sendChunk_cases (op : Byte) (b : Bsu) (c : Bytes) (hlt : b.chunkIdx < chunkCount p b.len)
    (hc : b.buf.readN (b.chunkIdx * p.chunk) (chunkLen p b.len b.chunkIdx) = some c) :
    b.sendChunk p op = .next b ∨
    (∃ o rest r, b.answers = .write o :: rest ∧ r ∈ causes .ctrlSendChunk ∧
      b.sendChunk p op = .next { b with state := .idle, ctrlOk := b.ctrlOk && !(cwrite op c b.timeout o).isTimeout,
                                        answers := rest,
                                        trace := b.trace ++ [cwrite op c b.timeout o], results := b.results ++ [.err r] }) ∨
    (∃ rest, b.answers = .write (.transferred c.length) :: rest ∧
      b.sendChunk p op = .next { b with state := if b.chunkIdx + 1 < chunkCount p b.len then b.state else .status,
                                        answers := rest,
                                        chunkIdx := b.chunkIdx + 1, trace := b.trace ++ [cwrite op c b.timeout (.transferred c.length)] }) := by
  simp only [Bsu.sendChunk, if_pos hlt, memRead_def, hc, andThen]
  rcases Bsu.ctrlWrite_cases op c (fun m b => if m = c.length then Bsu.nextChunk p { b with chunkIdx := b.chunkIdx + 1 } else b.raise .peChunkLen) b with
    h | ⟨o, rest, r, ha, hr, h⟩ | ⟨m, rest, ha, h⟩ <;> rw [h]
  · exact .inl rfl
  · exact .inr (.inl ⟨o, rest, r, ha, by rcases hr with rfl | rfl <;> simp [causes], rfl⟩)
  · by_cases hm : m = c.length
    · subst hm
      refine .inr (.inr ⟨rest, ha, ?_⟩)
      simp only [if_true, Bsu.nextChunk]; split <;> rfl
    · refine .inr (.inl ⟨_, rest, .peChunkLen, ha, by simp [causes], ?_⟩)
      have hb : (b.ctrlOk && !(cwrite op c b.timeout (.transferred m)).isTimeout) = b.ctrlOk := by simp [cwrite, CEvent.isTimeout]
      rw [hb, if_neg hm]; rfl

omit [p.Documented] in
theorem reset_event_legal (v : OpVariant) (t : Timeout) (o : WriteOutcome) :
    (cwrite (controlByte .reset v) [] t o).legal p := .inl ⟨v, rfl, rfl⟩

omit [p.Documented] in
theorem chunk_event_legal (v : OpVariant) (c : Bytes) (t : Timeout) (o : WriteOutcome) (h : 1 ≤ c.length ∧
    c.length ≤ p.chunk) :
    (cwrite (controlByte .sendChunk v) c t o).legal p := .inr ⟨v, rfl, h⟩

omit [p.Documented] in
theorem status_event_legal (v : OpVariant) (n : Nat) (t : Timeout) (o : ReadOutcome) (h : o.allowed n = true) :
    (cread (controlByte .status v) n t o).legal p := ⟨⟨v, rfl⟩, h⟩

omit [p.Documented] in
theorem Bsu.Since.ends {b0 b : Bsu} (h : Bsu.Since p b0 b) (hid : b.state ≠ .idle) (e : CEvent)
    (he : e.legal p) (a : CAnswer) (rest : List CAnswer) (ha : b.answers = a :: rest)
    (v : Result) (hv : ∀ e, v = .err e → e ∈ causes (.bsProvision [])) :
    Bsu.Since p b0 { b with state := .idle, ctrlOk := b.ctrlOk && !e.isTimeout, answers := rest,
                            trace := b.trace ++ [e], results := b.results ++ [v] } := by
  obtain ⟨es, h1, h2, h3⟩ := h.events
  obtain ⟨us, hu⟩ := h.used
  have hr : b.results = b0.results := by
    rcases h.results with ⟨-, hr⟩ | ⟨hh, -⟩
    · exact hr
    · exact absurd hh hid
  refine ⟨trivial, h.bound, h.written, ⟨es ++ [e], by simp [h1], ?_, by simp [h3, List.any_append, Bool.and_assoc]⟩,
      fun hh => absurd rfl hh, ⟨us ++ [a], by simp [hu, ha]⟩, .inr ⟨rfl, v, by simp [hr], hv⟩, h.wf, h.within⟩
  intro e' he'; rw [List.mem_append, List.mem_singleton] at he'; rcases he' with he' | rfl
  · exact h2 e' he'
  · exact he

omit [p.Documented] in
theorem Bsu.Since.moves {b0 b : Bsu} (h : Bsu.Since p b0 b) (hid : b.state ≠ .idle) (e : CEvent)
    (he : e.legal p) (ht : e.isTimeout = false) (a : CAnswer) (rest : List CAnswer) (ha : b.answers = a :: rest)
    (st : BsuState) (idx : Nat) (hst : st ≠ .idle) (hd : Bsu.during p { b with state := st, chunkIdx := idx }) :
    Bsu.Since p b0 { b with state := st, chunkIdx := idx, answers := rest, trace := b.trace ++ [e] } := by
  obtain ⟨es, h1, h2, h3⟩ := h.events
  obtain ⟨us, hu⟩ := h.used
  have hr : b.results = b0.results := by
    rcases h.results with ⟨-, hr⟩ | ⟨hh, -⟩
    · exact hr
    · exact absurd hh hid
  refine ⟨hd, h.bound, h.written, ⟨es ++ [e], by simp [h1], ?_, by simp [h3, List.any_append, ht]⟩,
      fun _ => h.channel hid, ⟨us ++ [a], by simp [hu, ha]⟩, .inl ⟨hst, hr⟩, h.wf, h.within⟩
  intro e' he'; rw [List.mem_append, List.mem_singleton] at he'; rcases he' with he' | rfl
  · exact h2 e' he'
  · exact he

/-- One step of an upload in progress, said once: it never stops; it waits on a request, or comes closer to the end.
-/
theorem Bsu.since_step {b0 b : Bsu} (h : Bsu.Since p b0 b) (hid : b.state ≠ .idle) :
    ∃ b', b.step p = .next b' ∧ Bsu.Since p b0 b' ∧ ((b' = b ∧ b.stateOk p) ∨ (b'.turns < b.turns ∧ (b.stateOk p →
        b'.stateOk p))) := by
  have hidle : ∀ (x : Bsu), x.state = .idle → x.turns = 0 := by intro x hx; simp [Bsu.turns, hx]
  have hst := h.state
  have hr : b.results = b0.results := by
    rcases h.results with ⟨-, hr⟩ | ⟨hh, -⟩
    · exact hr
    · exact absurd hh hid
  cases hs : b.state with
  | idle => exact absurd hs hid
  | done => simp only [Bsu.during, hs] at hst
  | failed e => simp only [Bsu.during, hs] at hst
  | detect =>
    simp only [Bsu.during, hs] at hst
    obtain ⟨bytes, hb⟩ := Memory.written_readN h.written
    have hbl := Memory.readN_length hb
    simp only [Bsu.step, hs, Bsu.detect, memRead_def, hb, andThen]
    have ht : b.turns = b.answers.length + 2 := by simp [Bsu.turns, hs]
    have hno : ¬ b.stateOk p := by simp [Bsu.stateOk, hs]
    split
    · refine ⟨_, rfl, ⟨trivial, h.bound, h.written, h.events, fun hh => absurd rfl hh, h.used, .inr ⟨rfl,
          .err .peSync,
          by simp [Bsu.raise, Bsu.complete, Bsu.deliver, hr], fun c hc => by cases hc; simp [causes]⟩, h.wf, h.within⟩, .inr ⟨by rw [hidle _ rfl]; omega, fun hh => absurd hh hno⟩⟩
    · split
      · rw [memWrite_def, if_pos (by simp only [List.length_map, hbl]; have := h.bound; omega)]
        refine ⟨_, rfl, ⟨hst, h.bound, ?_, h.events, fun _ => h.channel hid, h.used, .inl ⟨by simp, hr⟩,
            Memory.writeN_wf h.wf _ _,
            Memory.writeN_within h.within (by simp only [List.length_map, hbl]; have := h.bound; omega)⟩, .inr ⟨by rw [ht]; simp [Bsu.turns], fun hh => absurd hh hno⟩⟩
        intro x hx; simp only at hx ⊢; rw [Memory.read_writeN]; split
        · rename_i h1; rw [List.getElem?_eq_getElem (by omega)]; rfl
        · exact h.written x hx
      · exact ⟨_, rfl, ⟨hst, h.bound, h.written, h.events, fun _ => h.channel hid, h.used, .inl ⟨by simp, hr⟩, h.wf,
            h.within⟩, .inr ⟨by rw [ht]; simp [Bsu.turns], fun hh => absurd hh hno⟩⟩
  | pad =>
    simp only [Bsu.during, hs] at hst
    have ht : b.turns = b.answers.length + 1 := by simp [Bsu.turns, hs]
    have hno : ¬ b.stateOk p := by simp [Bsu.stateOk, hs]
    simp only [Bsu.step, hs, Bsu.padStep]
    split
    · rename_i hp
      rw [needsPad_iff] at hp
      rw [memWrite_def, if_pos (by simp only [List.length_singleton]; omega)]
      refine ⟨_, rfl, ⟨⟨⟨by simp only [Params.prefixLen_doc]; omega, by simp only [Params.mps_doc]; omega⟩, hst.2.2⟩,
          by simp only; omega, Memory.written_writeN h.written _, h.events, fun _ => h.channel hid, h.used, .inl ⟨by simp, hr⟩, Memory.writeN_wf h.wf _ _, Memory.writeN_within h.within (by simp only [List.length_singleton]; omega)⟩, .inr ⟨by rw [ht]; simp [Bsu.turns], fun hh => absurd hh hno⟩⟩
    · rename_i hp
      rw [needsPad_iff] at hp
      exact ⟨_, rfl, ⟨⟨⟨by simp only [Params.prefixLen_doc]; omega, by simp only [Params.mps_doc]; omega⟩, hst.2.2⟩, h.bound,
          h.written, h.events, fun _ => h.channel hid, h.used, .inl ⟨by simp, hr⟩, h.wf,
          h.within⟩, .inr ⟨by rw [ht]; simp [Bsu.turns], fun hh => absurd hh hno⟩⟩
  | resetCmd =>
    simp only [Bsu.during, hs] at hst
    have hok : b.stateOk p := by simpa only [Bsu.stateOk, hs] using hst
    have ht : b.turns = b.answers.length := by simp [Bsu.turns, hs]
    simp only [Bsu.step, hs]
    rcases Bsu.resetCommand_cases (controlByte .reset p.resetOp) b with hx | ⟨o, rest, r, ha, hr', hx⟩ | ⟨m, rest, ha,
        hx⟩ <;> rw [hx]
    · exact ⟨_, rfl, h, .inl ⟨rfl, hok⟩⟩
    · refine ⟨_, rfl, h.ends hid _ (reset_event_legal _ _ _) _ rest ha _ ?_, .inr ⟨by rw [hidle _ rfl, ht, ha]; simp,
          fun _ => trivial⟩⟩
      rintro e he; cases he; rcases hr' with rfl | rfl <;> simp [causes]
    · have h1 : b.chunkIdx < chunkCount p b.len := by
        rw [hst.2, chunkCount_lt]; have := hst.1.1; simp only [Params.prefixLen_doc] at this; omega
      exact ⟨_, rfl, h.moves hid _ (reset_event_legal _ _ _) rfl _ rest ha .sendChunk b.chunkIdx (by simp) ⟨hst.1,
          h1⟩, .inr ⟨by rw [ht, ha]; simp [Bsu.turns], fun _ => ⟨hst.1, h1⟩⟩⟩
  | sendChunk =>
    simp only [Bsu.during, hs] at hst
    have hok : b.stateOk p := by simpa only [Bsu.stateOk, hs] using hst
    have ht : b.turns = b.answers.length := by simp [Bsu.turns, hs]
    obtain ⟨c, hc, hcl⟩ := Memory.written_chunk (p := p) (j := b.chunkIdx) h.written
    have hlen : 1 ≤ c.length ∧ c.length ≤ p.chunk := by
      have := chunkCount_lt.mp hst.2
      rw [hcl]; simp only [chunkLen, Params.chunk_doc]; omega
    simp only [Bsu.step, hs]
    rcases Bsu.sendChunk_cases (controlByte .sendChunk p.chunkOp) b c hst.2 hc with hx | ⟨o, rest, r, ha, hr',
        hx⟩ | ⟨rest, ha, hx⟩ <;> rw [hx]
    · exact ⟨_, rfl, h, .inl ⟨rfl, hok⟩⟩
    · refine ⟨_, rfl, h.ends hid _ (chunk_event_legal _ _ _ _ hlen) _ rest ha _ ?_,
          .inr ⟨by rw [hidle _ rfl, ht, ha]; simp, fun _ => trivial⟩⟩
      rintro e he; cases he; revert hr'; simp [causes]; tauto
    · have hd : ∀ ans tr, Bsu.stateOk p { b with state := if b.chunkIdx + 1 < chunkCount p b.len then b.state else .status, chunkIdx := b.chunkIdx + 1, answers := ans, trace := tr } := by
        intro ans tr; rw [hs]; split
        · rename_i hlt; exact ⟨hst.1, hlt⟩
        · rename_i hlt; exact ⟨hst.1, by simp only; omega⟩
      have hd' : Bsu.during p { b with state := if b.chunkIdx + 1 < chunkCount p b.len then b.state else .status,
                                       chunkIdx := b.chunkIdx + 1 } := by
        rw [hs]; split
        · rename_i hlt; exact ⟨hst.1, hlt⟩
        · rename_i hlt; exact ⟨hst.1, by simp only; omega⟩
      refine ⟨_, rfl,
          h.moves hid _ (chunk_event_legal _ _ _ _ hlen) rfl _ rest ha _ _ (by rw [hs]; split <;> simp) hd',
          .inr ⟨?_, fun _ => hd _ _⟩⟩
      rw [ht, ha, hs]; split <;> simp [Bsu.turns]
  | status =>
    simp only [Bsu.during, hs] at hst
    have hok : b.stateOk p := by simpa only [Bsu.stateOk, hs] using hst
    have ht : b.turns = b.answers.length := by simp [Bsu.turns, hs]
    simp only [Bsu.step, hs]
    rcases Bsu.statusRead_cases p (controlByte .status p.statusOp) b with hx | ⟨o, rest, v, ha, hal, hv,
        hx⟩ <;> rw [hx]
    · exact ⟨_, rfl, h, .inl ⟨rfl, hok⟩⟩
    · refine ⟨_, rfl, h.ends hid _ (status_event_legal _ _ _ _ hal) _ rest ha v ?_,
          .inr ⟨by rw [hidle _ rfl, ht, ha]; simp, fun _ => trivial⟩⟩
      intro e he; have := hv e he; revert this; simp [causes]; tauto

/-- An upload in progress runs until it ends or waits on a request. -/
theorem Bsu.since_run {b0 : Bsu} (n : Nat) (b : Bsu) (h : Bsu.Since p b0 b) (hn : b.turns ≤ n) :
    ∃ b', Bsu.run p n b = .next b' ∧ Bsu.Since p b0 b' ∧ b'.stateOk p := by
  induction n generalizing b with
  | zero =>
    refine ⟨b, rfl, h, ?_⟩
    have hst := h.state
    cases hs : b.state <;> simp only [Bsu.turns, hs] at hn <;> simp only [Bsu.during,
        hs] at hst <;> simp only [Bsu.stateOk, hs] <;> omega
  | succ n ih =>
    by_cases hl : b.state = .idle
    · exact ⟨b, Bsu.run_idle _ _ _ hl, h, by simp [Bsu.stateOk, hl]⟩
    · obtain ⟨b', h1, h2, h3⟩ := Bsu.since_step h hl
      rw [Bsu.run, h1]
      simp only [andThen]
      rcases h3 with ⟨rfl, hok⟩ | ⟨hlt, -⟩
      · have stuck : ∀ m, Bsu.run p m b' = .next b' := by
          intro m; induction m with
          | zero => rfl
          | succ m ihm => rw [Bsu.run, h1]; exact ihm
        exact ⟨b', stuck n, h, hok⟩
      · exact ih b' h2 (by omega)

theorem Bsu.since_load (p : Params) [p.Documented] (image : Bytes) (t : Timeout) (b : Bsu) (h : image.length ≤ p.maxImage) :
    Bsu.Since p (b.load p image t) (b.load p image t) := by
  rw [Bsu.load_eq _ _ _ _ h]
  have hl : (framedImage p image).length = 512 + image.length := framedImage_length image
  refine ⟨⟨by simp only; omega, by simp only [bsuCapacity, Params.prefixLen_doc]; omega, rfl⟩,
      by simp only [bsuCapacity, Params.prefixLen_doc]; omega, ?_, ⟨[], by simp, by simp, by simp⟩, fun _ => rfl, ⟨[], rfl⟩, .inl ⟨by simp, rfl⟩, Memory.ofBytes_wf _ _, ?_⟩
  · intro x hx; simp only at hx ⊢; rw [Memory.read_ofBytes, if_pos (by omega),
        List.getElem?_eq_getElem (by omega)]; rfl
  · intro x hx; have := Memory.mem_ofBytes hx; simp only [bsuCapacity, Params.prefixLen_doc]; omega

/-- What an accepted BS_PROVISION did. -/
theorem provision_next (image : Bytes) (s : State) [s.params.Documented] (h : s.bsuReady) :
    ∃ t, exec (.bsProvision image) s = .next t ∧ t = { s with bsu := t.bsu } ∧
     ((s.params.maxImage < image.length ∧ t.bsu = { s.bsu with results := s.bsu.results ++ [.err .ipLen] }) ∨
      (image.length ≤ s.params.maxImage ∧ Bsu.Since s.params (s.bsu.load s.params image s.cmdTimeout) t.bsu ∧
          t.bsu.stateOk s.params)) := by
  simp only [exec, execBsProvision, h.1, h.2, if_true]
  by_cases hl : image.length ≤ s.params.maxImage
  · obtain ⟨b', h1, h2,
        h3⟩ := Bsu.since_run (p := s.params) ((s.bsu.load s.params image s.cmdTimeout).answers.length + 3) _ (Bsu.since_load s.params image s.cmdTimeout s.bsu hl) (Bsu.turns_le _)
    rw [Bsu.advance, h1]
    exact ⟨_, rfl, rfl, .inr ⟨hl, h2, h3⟩⟩
  · have : Bsu.load s.params image s.cmdTimeout s.bsu = { s.bsu with results := s.bsu.results ++ [.err .ipLen] } := by
      simp only [Bsu.load]; rw [if_pos (by omega)]; simp [Bsu.raise, Bsu.complete, Bsu.deliver, h.1]
    rw [this]
    have h2 : Bsu.advance s.params { s.bsu with results := s.bsu.results ++ [.err .ipLen] } = .next { s.bsu with results := s.bsu.results ++ [.err .ipLen] } :=
      Bsu.run_idle _ _ _ h.1
    rw [h2]
    exact ⟨_, rfl, rfl, .inl ⟨by omega, by simp [h.1, h.2]⟩⟩

theorem Bsu.control_inv (p : Params) (k : ControlKind) (v : OpVariant) (b b' : Bsu) (h : b.control p k v = .next b') :
    b.selected = some k ∧ variantOf p k = v ∧ b.step p = .next b' := by
  unfold Bsu.control at h; split at h
  · rename_i hs; exact ⟨hs.1, hs.2, h⟩
  · cases h

omit [p.Documented] in
/-- Everything a send-chunk that gives a next state can have done, in any state. -/
theorem Bsu.sendChunk_inv (op : Byte) (b b' : Bsu) (h : b.sendChunk p op = .next b') :
    b' = { b with state := .status } ∨ b' = b ∨
    (∃ c o rest r, b.answers = .write o :: rest ∧ r ∈ causes .ctrlSendChunk ∧
      b' = { b with state := .idle, ctrlOk := b.ctrlOk && !(cwrite op c b.timeout o).isTimeout, answers := rest,
                    trace := b.trace ++ [cwrite op c b.timeout o], results := b.results ++ [.err r] }) ∨
    (∃ c rest st, b.answers = .write (.transferred c.length) :: rest ∧
      b' = { b with state := st, answers := rest, chunkIdx := b.chunkIdx + 1,
                    trace := b.trace ++ [cwrite op c b.timeout (.transferred c.length)] }) := by
  by_cases hlt : b.chunkIdx < chunkCount p b.len
  · cases hc : b.buf.readN (b.chunkIdx * p.chunk) (chunkLen p b.len b.chunkIdx) with
    | none =>
      simp [Bsu.sendChunk, hlt, memRead_def, hc, andThen] at h
    | some c =>
      rcases Bsu.sendChunk_cases op b c hlt hc with hx | ⟨o, rest, r, ha, hr, hx⟩ | ⟨rest, ha,
          hx⟩ <;> rw [hx] at h <;> cases h
      · exact .inr (.inl rfl)
      · exact .inr (.inr (.inl ⟨c, o, rest, r, ha, hr, rfl⟩))
      · exact .inr (.inr (.inr ⟨c, rest, _, ha, rfl⟩))
  · simp only [Bsu.sendChunk, if_neg hlt] at h; cases h; exact .inl rfl

/-- What a control command that gives a next state did. -/
theorem control_next (i : Instr) (s t : State) (hc : isControl i = true) (h : exec i s = .next t) :
    ∃ k v, i = controlInstr k v ∧ t = { s with bsu := t.bsu } ∧ s.bsu.selected = some k ∧ variantOf s.params k = v ∧
        s.bsu.step s.params = .next t.bsu := by
  have : ∃ k v, i = controlInstr k v := by
    cases i <;> simp only [isControl, Bool.false_eq_true] at hc
    · exact ⟨.reset, .main, rfl⟩
    · exact ⟨.reset, .alt, rfl⟩
    · exact ⟨.sendChunk, .main, rfl⟩
    · exact ⟨.sendChunk, .alt, rfl⟩
    · exact ⟨.status, .main, rfl⟩
    · exact ⟨.status, .alt, rfl⟩
  obtain ⟨k, v, rfl⟩ := this
  rw [exec_control] at h
  obtain ⟨b', h1, h2⟩ := andThen_eq_next h
  cases h2
  obtain ⟨h3, h4, h5⟩ := Bsu.control_inv _ _ _ _ _ h1
  exact ⟨k, v, rfl, rfl, h3, h4, h5⟩

theorem Bsu.state_of_selected (b : Bsu) (k : ControlKind) (h : b.selected = some k) :
    b.state = (match k with | .reset => .resetCmd | .sendChunk => .sendChunk | .status => .status) := by
  unfold Bsu.selected at h; split at h <;> cases h <;> simp [*]

/-- What a control command leaves unchanged. -/
theorem Bsu.control_step_inv (p : Params) (b b' : Bsu) (k : ControlKind) (hk : b.selected = some k)
    (h : b.step p = .next b') :
    b'.buf = b.buf ∧ b'.len = b.len ∧ b'.reversed = b.reversed ∧ b'.padded = b.padded ∧ b'.timeout = b.timeout ∧
    (∃ es, b'.trace = b.trace ++ es) ∧
    (∃ vs, b'.results = b.results ++ vs ∧ ∀ e, vs = [.err e] → e ∈ causes (controlInstr k .main) ∧
        e ∈ causes (controlInstr k .alt)) := by
  have hs := Bsu.state_of_selected b k hk
  cases k <;> simp only at hs <;> simp only [Bsu.step, hs] at h
  · rcases Bsu.resetCommand_cases (controlByte .reset p.resetOp) b with hx | ⟨o, rest, r, ha, hr, hx⟩ | ⟨m, rest, ha,
        hx⟩ <;> rw [hx] at h <;> cases h
    · exact ⟨rfl, rfl, rfl, rfl, rfl, ⟨[], by simp⟩, [], by simp, by simp⟩
    · exact ⟨rfl, rfl, rfl, rfl, rfl, ⟨_, rfl⟩, _, rfl,
          by rintro e he; cases he; rcases hr with rfl | rfl <;> simp [controlInstr, causes]⟩
    · exact ⟨rfl, rfl, rfl, rfl, rfl, ⟨_, rfl⟩, [], by simp, by simp⟩
  · rcases Bsu.sendChunk_inv _ _ _ h with rfl | rfl | ⟨c, o, rest, r, ha, hr, rfl⟩ | ⟨c, rest, st, ha, rfl⟩
    · exact ⟨rfl, rfl, rfl, rfl, rfl, ⟨[], by simp⟩, [], by simp, by simp⟩
    · exact ⟨rfl, rfl, rfl, rfl, rfl, ⟨[], by simp⟩, [], by simp, by simp⟩
    · exact ⟨rfl, rfl, rfl, rfl, rfl, ⟨_, rfl⟩, _, rfl, by rintro e he; cases he; exact ⟨hr, hr⟩⟩
    · exact ⟨rfl, rfl, rfl, rfl, rfl, ⟨_, rfl⟩, [], by simp, by simp⟩
  · rcases Bsu.statusRead_cases p (controlByte .status p.statusOp) b with hx | ⟨o, rest, v, ha, hal, hv,
        hx⟩ <;> rw [hx] at h <;> cases h
    · exact ⟨rfl, rfl, rfl, rfl, rfl, ⟨[], by simp⟩, [], by simp, by simp⟩
    · exact ⟨rfl, rfl, rfl, rfl, rfl, ⟨_, rfl⟩, _, rfl, by rintro e he; cases he; exact ⟨hv _ rfl, hv _ rfl⟩⟩

theorem provision_inv (image : Bytes) (s t : State) (h : exec (.bsProvision image) s = .next t) :
    s.bsuReady ∧ t = { s with bsu := t.bsu } := by
  simp only [exec, execBsProvision] at h
  split at h
  · rename_i hs; split at h
    · rename_i hc
      obtain ⟨b, -, h⟩ := andThen_eq_next h
      cases h; exact ⟨⟨hs, hc⟩, rfl⟩
    · cases h
  · cases h

theorem bsReestablish_inv (s t : State) (h : exec .bsReestablish s = .next t) :
    s.bsu.state = .idle ∧ t = { s with bsu := { s.bsu with ctrlOk := true,
                                                           results := s.bsu.results ++ [.ok .none] } } := by
  simp only [exec, execBsReestablish] at h
  split at h
  · rename_i hs; cases h; exact ⟨hs, by simp [Bsu.relink, Bsu.deliver, hs]⟩
  · cases h

omit [p.Documented] in
theorem Bsu.grows_step {b b' : Bsu} (h : b.step p = .next b') : b.trace <+: b'.trace ∧
    b.results <+: b'.results := by
  have hsel : ∀ k, b.selected = some k → b.trace <+: b'.trace ∧ b.results <+: b'.results := by
    intro k hk
    obtain ⟨-, -, -, -, -, ⟨es, h1⟩, vs, h2, -⟩ := Bsu.control_step_inv p b b' k hk h
    rw [h1, h2]; exact ⟨List.prefix_append _ _, List.prefix_append _ _⟩
  cases hs : b.state with
  | idle => simp only [Bsu.step, hs] at h; cases h; exact ⟨List.prefix_rfl, List.prefix_rfl⟩
  | done => simp only [Bsu.step, hs, Bsu.complete] at h; cases h; exact ⟨List.prefix_rfl, List.prefix_append _ _⟩
  | failed e => simp only [Bsu.step, hs, Bsu.complete] at h; cases h; exact ⟨List.prefix_rfl, List.prefix_append _ _⟩
  | detect =>
    simp only [Bsu.step, hs, Bsu.detect] at h
    obtain ⟨x, -, h⟩ := andThen_eq_next h
    split at h
    · cases h; exact ⟨List.prefix_rfl, List.prefix_append _ _⟩
    · split at h
      · obtain ⟨y, -, h⟩ := andThen_eq_next h
        cases h; exact ⟨List.prefix_rfl, List.prefix_rfl⟩
      · cases h; exact ⟨List.prefix_rfl, List.prefix_rfl⟩
  | pad =>
    simp only [Bsu.step, hs, Bsu.padStep] at h
    split at h
    · obtain ⟨y, -, h⟩ := andThen_eq_next h
      cases h; exact ⟨List.prefix_rfl, List.prefix_rfl⟩
    · cases h; exact ⟨List.prefix_rfl, List.prefix_rfl⟩
  | resetCmd => exact hsel .reset (by simp [Bsu.selected, hs])
  | sendChunk => exact hsel .sendChunk (by simp [Bsu.selected, hs])
  | status => exact hsel .status (by simp [Bsu.selected, hs])

omit [p.Documented] in
theorem Bsu.grows_run (n : Nat) {b b' : Bsu} (h : Bsu.run p n b = .next b') : b.trace <+: b'.trace ∧
    b.results <+: b'.results := by
  induction n generalizing b with
  | zero => cases h; exact ⟨List.prefix_rfl, List.prefix_rfl⟩
  | succ n ih =>
    obtain ⟨c, h1, h2⟩ := andThen_eq_next h
    have e1 := Bsu.grows_step h1; have e2 := ih h2
    exact ⟨e1.1.trans e2.1, e1.2.trans e2.2⟩

omit [p.Documented] in
theorem Bsu.inv_of_since {b0 b : Bsu} (hs : Bsu.Since p b0 b) (hok : b.stateOk p)
    (hc : b0.ctrlOk = true) (htr : ∀ e ∈ b0.trace, e.legal p) : b.Inv p := by
  refine ⟨hs.wf, hs.within, hs.bound, hs.written, hok, fun hh => by rw [hs.channel hh, hc], ?_⟩
  obtain ⟨es, h1, h2, -⟩ := hs.events
  intro e he; rw [h1, List.mem_append] at he; exact he.elim (htr e) (h2 e)

omit [p.Documented] in
theorem Bsu.since_refl {b : Bsu} (h : b.Inv p) (hid : b.state ≠ .idle) : Bsu.Since p b b := by
  refine ⟨?_, h.bound, h.written, ⟨[], by simp, by simp, by simp⟩, fun _ => rfl, ⟨[], rfl⟩, .inl ⟨hid, rfl⟩, h.wf,
      h.within⟩
  have := h.state
  cases hs : b.state <;> simp only [Bsu.stateOk, hs] at this <;> simp only [Bsu.during, hs] <;> exact this

omit [p.Documented] in
theorem Bsu.answers_inv {b : Bsu} (h : b.Inv p) (o : CAnswer) :
    Bsu.Inv p { b with answers := b.answers ++ [o] } :=
  ⟨h.wf, h.within, h.bound, h.written, h.state, h.channel, h.trace⟩

theorem Bsu.receive_inv {b : Bsu} (h : b.Inv p) (o : CAnswer) : ∃ b', b.receiveAnswer p o = .next b' ∧
    b'.Inv p := by
  have h' := Bsu.answers_inv h o
  unfold Bsu.receiveAnswer Bsu.advance
  by_cases hid : b.state = .idle
  · rw [Bsu.run_idle _ _ _ (by exact hid)]; exact ⟨_, rfl, h'⟩
  · obtain ⟨a', h1, h2, h3⟩ := Bsu.since_run _ _ (Bsu.since_refl h' hid) (Bsu.turns_le _)
    exact ⟨a', h1, Bsu.inv_of_since h2 h3 (h.channel hid) h.trace⟩

end Sys2Proof.Machine
end

