-- ==== Sys2Proof/Laws/RegisterBus.lean ====
section
/-! SUPPORT. The register bus: transfers, frames built, and what one step of RBU can do, said once. -/

namespace Sys2Proof.Machine

theorem Rbu.step_idle (p : Params) (r : Rbu) (h : r.state = .idle) : r.step p = r := by
  simp [Rbu.step, h]

theorem Rbu.run_idle (p : Params) (n : Nat) (r : Rbu) (h : r.state = .idle) : Rbu.run p n r = r := by
  induction n with
  | zero => rfl
  | succ n ih => simp [Rbu.run, Rbu.step_idle p r h, ih]

theorem Rbu.run_add (p : Params) (m n : Nat) (r : Rbu) : Rbu.run p (m + n) r = Rbu.run p n (Rbu.run p m r) := by
  induction m generalizing r with
  | zero => simp [Rbu.run]
  | succ m ih => rw [Nat.succ_add]; simp [Rbu.run, ih]

theorem Rbu.run_ge (p : Params) {k n : Nat} {r r' : Rbu} (hk : k ≤ n) (h : Rbu.run p k r = r')
    (hi : r'.state = .idle) :
    Rbu.run p n r = r' := by
  obtain ⟨m, rfl⟩ := Nat.exists_eq_add_of_le hk
  rw [Rbu.run_add, h, Rbu.run_idle _ _ _ hi]

theorem Rbu.accept_next (p : Params) (start : Rbu → Rbu) (r : Rbu) (h : r.state = .idle) (hl : r.linkOk = true) :
    r.accept p start = .next ((start r).advance p) := by
  simp [Rbu.accept, h, hl]

/-- RBU after a command in progress ended so. -/
def Rbu.endsAs (r : Rbu) (e : BusEnd) : Rbu :=
  { r with state := .idle, seq := e.seq, linkOk := r.linkOk && !e.late, answers := e.rest,
           trace := r.trace ++ e.events,
           results := r.results ++ [e.result] }

/-- A transfer runs to the end that `xferSpec` gives, if its reply is only delivered (R92). -/
theorem Rbu.xfer_run (p : Params) (r : Rbu) (x : Xfer) (seq : Byte) (finish : Bytes → Result) (e : BusEnd)
    (hs : r.state = .busy (.send x)) (hseq : r.seq = seq)
    (hfin : ∀ (b : Bytes) (r' : Rbu), b.length = x.n → r'.onReply p x b = r'.deliver (finish b))
    (h : xferSpec x.req x.n x.t seq finish r.answers = some e) :
    ∃ k, k ≤ r.answers.length ∧ Rbu.run p k r = r.endsAs e := by
  obtain ⟨sq, lk, st, ans, tr, rs⟩ := r
  simp only at hs hseq h
  subst hs; subst hseq
  unfold xferSpec at h
  split at h
  · cases h; exact ⟨1, by simp,
        by simp [Rbu.run, Rbu.step, Rbu.onSend, Rbu.event, Rbu.timeoutHit, Rbu.raise, Rbu.deliver, Rbu.endsAs]⟩
  · cases h; exact ⟨1, by simp,
        by simp [Rbu.run, Rbu.step, Rbu.onSend, Rbu.event, Rbu.raise, Rbu.deliver, Rbu.endsAs]⟩
  · split at h
    · rename_i h0
      cases h; exact ⟨1, by simp,
          by simp [Rbu.run, Rbu.step, Rbu.onSend, Rbu.event, Rbu.deliver, Rbu.endsAs, h0, hfin [] _ (by simp [h0])]⟩
    · rename_i h0
      split at h
      · split at h
        · rename_i hb
          cases h; exact ⟨2, by simp,
              by simp [Rbu.run, Rbu.step, Rbu.onSend, Rbu.onRecv, RecvOutcome.allowed, Rbu.await, Rbu.event, Rbu.deliver, Rbu.endsAs, h0, hb, hfin _ _ hb]⟩
        · cases h
      · split at h
        · rename_i hb
          cases h; exact ⟨2, by simp,
              by simp [Rbu.run, Rbu.step, Rbu.onSend, Rbu.onRecv, RecvOutcome.allowed, Rbu.await, Rbu.event, Rbu.raise, Rbu.deliver, Rbu.endsAs, h0, hb]⟩
        · cases h
      · cases h; exact ⟨2, by simp,
            by simp [Rbu.run, Rbu.step, Rbu.onSend, Rbu.onRecv, RecvOutcome.allowed, Rbu.await, Rbu.event, Rbu.raise, Rbu.timeoutHit, Rbu.deliver, Rbu.endsAs, h0]⟩
      · cases h; exact ⟨2, by simp,
            by simp [Rbu.run, Rbu.step, Rbu.onSend, Rbu.onRecv, RecvOutcome.allowed, Rbu.await, Rbu.event, Rbu.raise, Rbu.deliver, Rbu.endsAs, h0]⟩
      · cases h
  · cases h

theorem Rbu.advance_endsAs {p : Params} {r : Rbu} {e : BusEnd} (h : ∃ k, k ≤ r.answers.length ∧
    Rbu.run p k r = r.endsAs e) :
    r.advance p = r.endsAs e := by
  obtain ⟨k, hk, h⟩ := h
  exact Rbu.run_ge p hk h rfl

/-- An accepted command whose run ends so gives that next state (R103). -/
theorem busEnds_of (s : State) (start : Rbu → Rbu) (e : BusEnd) (hr : s.rbuReady)
    (h : (start s.rbu).advance s.params = s.rbu.endsAs e) :
    s.onRbu (s.rbu.accept s.params start) = .next (s.busEnds e) := by
  rw [Rbu.accept_next _ _ _ hr.1 hr.2, h]
  simp [State.onRbu, andThen, State.busEnds, Rbu.endsAs, hr.1]

/-- An accepted command that fails its argument check (R86, R87, R142). -/
theorem busEnds_err (s : State) (start : Rbu → Rbu) (c : Subcause) (hr : s.rbuReady)
    (h : start s.rbu = s.rbu.raise c) :
    s.onRbu (s.rbu.accept s.params start) = .next (s.busEnds ⟨[], .err c, false, s.rbu.seq, s.rbu.answers⟩) := by
  apply busEnds_of s start _ hr
  rw [h, Rbu.advance, Rbu.run_idle _ _ _ rfl]
  simp [Rbu.raise, Rbu.deliver, Rbu.endsAs]

theorem Rbu.onReply_value (p : Params) [p.Documented] (req : Bytes) (t : Timeout) (n : Nat) (b : Bytes) (r : Rbu)
    (hb : b.length = 6) :
    r.onReply p ⟨req, n, t, .value⟩ b = r.deliver (readResult p req b) := by
  rcases decReadReply_eq p req b hb with ⟨w, h1, h2⟩ | ⟨c, h1, h2⟩ <;> simp [Rbu.onReply, h1, h2, Rbu.raise]

theorem Rbu.onReply_ack (p : Params) [p.Documented] (req : Bytes) (t : Timeout) (n : Nat) (b : Bytes) (r : Rbu) (hb : b.length = 2) :
    r.onReply p ⟨req, n, t, .ack⟩ b = r.deliver (.ok .none) := by
  simp [Rbu.onReply, decWriteAck, hb]

theorem Rbu.onReply_payload (p : Params) [p.Documented] (req : Bytes) (t : Timeout) (m n : Nat) (b : Bytes) (r : Rbu)
    (hb : b.length = n + 2) :
    r.onReply p ⟨req, m, t, .payload n⟩ b = r.deliver (payloadResult p req b) := by
  match b, hb with
  | e0 :: e1 :: pl, hb =>
    have hb : pl.length = n := by simpa using hb
    simp only [Rbu.onReply, decPayloadReply, decStreamReadReply, Params.echoLen_doc, List.length_cons, hb,
      if_true, List.take, List.drop, payloadResult]
    split <;> rename_i h <;> split at h <;> simp_all [Rbu.raise]

theorem Rbu.bumpSeq_doc (p : Params) [p.Documented] (r : Rbu) : r.bumpSeq p = { r with seq := r.seq + 1 } := by
  simp [Rbu.bumpSeq]

theorem Rbu.startRead_ok (p : Params) [p.Documented] (r : Rbu) (addr : Nat) (t : Timeout) (after : AfterReply) (ha : addr < 0xFFFF) :
   r.startRead p addr t after = Rbu.await (.send ⟨frameRead p r.seq addr, 6, t, after⟩) { r with seq := r.seq + 1 } := by
  simp [Rbu.startRead, encRead, validAddr_true ha, Rbu.bumpSeq_doc]

theorem Rbu.startRead_err (p : Params) [p.Documented] (r : Rbu) (addr : Nat) (t : Timeout) (after : AfterReply) (ha : 0xFFFF ≤ addr) :
   r.startRead p addr t after = r.raise .ipAddr := by
  simp [Rbu.startRead, encRead, validAddr_false ha]

theorem Rbu.startWrite_ok (p : Params) [p.Documented] (r : Rbu) (addr : Nat) (v : Word) (t : Timeout) (ha : addr < 0xFFFF) :
   r.startWrite p addr v t = Rbu.await (.send ⟨frameWrite p r.seq addr v, 2, t, .ack⟩) { r with seq := r.seq + 1 } := by
  simp [Rbu.startWrite, encWrite, validAddr_true ha, Rbu.bumpSeq_doc]

theorem Rbu.startWrite_err (p : Params) [p.Documented] (r : Rbu) (addr : Nat) (v : Word) (t : Timeout) (ha : 0xFFFF ≤ addr) :
   r.startWrite p addr v t = r.raise .ipAddr := by
  simp [Rbu.startWrite, encWrite, validAddr_false ha]

/-- The read half: it checks the address, or it builds its frame (R93). -/
theorem Rbu.startRead_cases (p : Params) [p.Documented] (addr : Nat) (t : Timeout) (af : AfterReply) (r : Rbu) :
    (0xFFFF ≤ addr ∧ r.startRead p addr t af = r.raise .ipAddr) ∨
    (addr < 0xFFFF ∧ r.startRead p addr t af = Rbu.await (.send ⟨frameRead p r.seq addr, 6, t, af⟩) { r with seq := r.seq + 1 }) := by
  by_cases h : addr < 0xFFFF
  · exact .inr ⟨h, Rbu.startRead_ok p r addr t af h⟩
  · exact .inl ⟨by omega, Rbu.startRead_err p r addr t af (by omega)⟩

/-- The write half: it checks the address, or it builds its frame (R94). -/
theorem Rbu.startWrite_cases (p : Params) [p.Documented] (addr : Nat) (v : Word) (t : Timeout) (r : Rbu) :
    (0xFFFF ≤ addr ∧ r.startWrite p addr v t = r.raise .ipAddr) ∨
    (addr < 0xFFFF ∧ r.startWrite p addr v t = Rbu.await (.send ⟨frameWrite p r.seq addr v, 2, t, .ack⟩) { r with seq := r.seq + 1 }) := by
  by_cases h : addr < 0xFFFF
  · exact .inr ⟨h, Rbu.startWrite_ok p r addr v t h⟩
  · exact .inl ⟨by omega, Rbu.startWrite_err p r addr v t (by omega)⟩

/-- A frame that was built and is sent ends as `xferSpec` says (R92). -/
theorem Rbu.send_endsAs (p : Params) (r : Rbu) (x : Xfer) (sq : Byte) (finish : Bytes → Result) (e : BusEnd)
    (hfin : ∀ (b : Bytes) (r' : Rbu), b.length = x.n → r'.onReply p x b = r'.deliver (finish b))
    (h : xferSpec x.req x.n x.t sq finish r.answers = some e) :
    Rbu.advance p (Rbu.await (.send x) { r with seq := sq }) = r.endsAs e := by
  have := Rbu.xfer_run p (Rbu.await (.send x) { r with seq := sq }) x sq finish e rfl rfl hfin h
  rw [Rbu.advance_endsAs this]; rfl

theorem batchFrames_cons (p : Params) [p.Documented] (seq : Byte) (a : Nat) (v : Word) (pairs : List (Nat × Word)) :
    batchFrames p seq ((a, v) :: pairs) = frameWrite p seq a v ++ batchFrames p (seq + 1) pairs := by
  rw [batchFrames, seqAfter_doc]; rfl

/-- The frames of a batch, written both ways (R91, R95). -/
theorem batchFrames_eq (p : Params) [p.Documented] (seq : Byte) (pairs : List (Nat × Word)) : batchFrames p seq pairs = batchRequest p seq pairs := by
  induction pairs generalizing seq with
  | nil => rfl
  | cons q pairs ih =>
    obtain ⟨a, v⟩ := q
    rw [batchFrames_cons, ih (seq + 1)]
    simp only [batchRequest, List.mapIdx_cons, List.flatten_cons]
    congr 1
    · simp
    · congr 2
      funext i q
      congr 1
      rw [BitVec.add_assoc]; congr 1
      apply BitVec.eq_of_toNat_eq; simp [BitVec.toNat_add]; omega

/-- RBU after the events of a transfer, before what follows it. -/
def Rbu.reached (r : Rbu) (e : BusEnd) : Rbu :=
  { r with seq := e.seq, linkOk := r.linkOk && !e.late, answers := e.rest, trace := r.trace ++ e.events }

/-- A transfer runs up to its reply or its error, and then what follows it is done (R92, R99, R100). -/
theorem Rbu.xfer_continues (p : Params) (r : Rbu) (x : Xfer) (finish : Bytes → Result) (cont : Result → Rbu →
    Rbu) (e : BusEnd)
    (hs : r.state = .busy (.send x))
    (hst : ∀ v r st, cont v { r with state := st } = cont v r)
    (herr : ∀ c r, cont (.err c) r = r.raise c)
    (hfin : ∀ (b : Bytes) (r' : Rbu), b.length = x.n → r'.onReply p x b = cont (finish b) r')
    (h : xferSpec x.req x.n x.t r.seq finish r.answers = some e) :
    ∃ k, k + e.rest.length = r.answers.length ∧ Rbu.run p k r = cont e.result (r.reached e) := by
  have key : ∀ st, cont e.result (r.reached e) = cont e.result { r.reached e with state := st } := fun st => (hst _ _ _).symm
  obtain ⟨sq, lk, st, ans, tr, rs⟩ := r
  simp only at hs h
  subst hs
  unfold xferSpec at h
  split at h
  · cases h; exact ⟨1, by simp; omega,
        by simp [Rbu.run, Rbu.step, Rbu.onSend, Rbu.event, Rbu.timeoutHit, Rbu.reached, herr, Rbu.raise, Rbu.deliver]⟩
  · cases h; exact ⟨1, by simp; omega,
        by simp [Rbu.run, Rbu.step, Rbu.onSend, Rbu.event, Rbu.reached, herr, Rbu.raise, Rbu.deliver]⟩
  · split at h
    · rename_i h0
      cases h; exact ⟨1, by simp; omega,
          by simp [Rbu.run, Rbu.step, Rbu.onSend, Rbu.event, Rbu.reached, h0, hfin [] _ (by simp [h0])]⟩
    · rename_i h0
      split at h
      · split at h
        · rename_i hb
          cases h
          refine ⟨2, by simp; omega, ?_⟩
          rw [key (.busy (.recv x))]
          simp [Rbu.run, Rbu.step, Rbu.onSend, Rbu.onRecv, RecvOutcome.allowed, Rbu.await, Rbu.event, Rbu.reached, h0,
              hb, hfin _ _ hb]
        · cases h
      · split at h
        · rename_i hb
          cases h; exact ⟨2, by simp; omega,
              by simp [Rbu.run, Rbu.step, Rbu.onSend, Rbu.onRecv, RecvOutcome.allowed, Rbu.await, Rbu.event, herr, Rbu.raise, Rbu.deliver, Rbu.reached, h0, hb]⟩
        · cases h
      · cases h; exact ⟨2, by simp; omega,
            by simp [Rbu.run, Rbu.step, Rbu.onSend, Rbu.onRecv, RecvOutcome.allowed, Rbu.await, Rbu.event, herr, Rbu.raise, Rbu.timeoutHit, Rbu.deliver, Rbu.reached, h0]⟩
      · cases h; exact ⟨2, by simp; omega,
            by simp [Rbu.run, Rbu.step, Rbu.onSend, Rbu.onRecv, RecvOutcome.allowed, Rbu.await, Rbu.event, herr, Rbu.raise, Rbu.deliver, Rbu.reached, h0]⟩
      · cases h
  · cases h

/-- What follows the read half of RB_RMW (R99). -/
def rmwCont (p : Params) (addr : Nat) (mask value : Word) (t : Timeout) : Result → Rbu → Rbu
  | .ok (.word old), r => r.startWrite p addr (rmwValue old mask value) t
  | v, r => r.deliver v

/-- What follows a read of RB_POLL (R100). -/
def pollCont (addr : Nat) (mask expected : Word) (t : Timeout) : Result → Rbu → Rbu
  | .ok (.word v), r => if v &&& mask = expected then r.deliver (.ok (.bool true)) else r.await (.tick addr mask expected t)
  | v, r => r.deliver v

theorem Rbu.onReply_rmw (p : Params) [p.Documented] (req : Bytes) (t : Timeout) (n : Nat) (a : Nat) (m v : Word) (b : Bytes)
    (r : Rbu) (hb : b.length = 6) :
    r.onReply p ⟨req, n, t, .rmw a m v⟩ b = rmwCont p a m v t (readResult p req b) r := by
  rcases decReadReply_eq p req b hb with ⟨w, h1, h2⟩ | ⟨c, h1, h2⟩ <;> simp [Rbu.onReply, h1, h2, rmwCont,
      Rbu.raise]

theorem Rbu.onReply_poll (p : Params) [p.Documented] (req : Bytes) (t : Timeout) (n : Nat) (a : Nat) (m v : Word) (b : Bytes)
    (r : Rbu) (hb : b.length = 6) :
    r.onReply p ⟨req, n, t, .poll a m v⟩ b = pollCont a m v t (readResult p req b) r := by
  rcases decReadReply_eq p req b hb with ⟨w, h1, h2⟩ | ⟨c, h1, h2⟩ <;> simp [Rbu.onReply, h1, h2, pollCont,
      Rbu.raise]

theorem xferSpec_seq {req : Bytes} {n : Nat} {t : Timeout} {seq : Byte} {f : Bytes → Result} {l : List TAnswer} {e : BusEnd}
    (h : xferSpec req n t seq f l = some e) : e.seq = seq := by
  unfold xferSpec at h
  repeat' split at h
  all_goals first | (cases h; done) | (cases h; rfl)

/-- The poll loop, for any number of turns (R100). -/
theorem Rbu.poll_run (p : Params) [p.Documented] (addr : Nat) (m v : Word) (t : Timeout) (ha : addr < 0xFFFF) :
    ∀ (rounds : Nat) (r : Rbu) (e : BusEnd), r.state = .busy (.tick addr m v t) →
      pollSpec p addr m v t rounds r.seq r.answers = some e →
      ∃ k, k ≤ r.answers.length ∧ Rbu.run p k r = r.endsAs e := by
  intro rounds
  induction rounds with
  | zero => intro r e _ h; simp [pollSpec] at h
  | succ n ih =>
    intro r e hs h
    obtain ⟨sqn, lk, st, ans, tr, rs⟩ := r
    simp only at hs h; subst hs
    unfold pollSpec at h
    split at h
    · rename_i h0; cases h0
    · rename_i h0
      cases h
      exact ⟨1, by simp, by simp [Rbu.run, Rbu.step, Rbu.event, Rbu.onTick, Rbu.deliver, Rbu.endsAs]⟩
    · rename_i sqn _ _ _ _ rest h0
      cases h0
      have hstep : Rbu.step p ⟨sqn, lk, .busy (.tick addr m v t), .tick .continue :: rest, tr, rs⟩ =
          (⟨sqn + 1, lk, .busy (.send ⟨frameRead p sqn addr, 6, t, .poll addr m v⟩), rest, tr ++ [.tick t .continue],
              rs⟩ : Rbu) := by
        simp [Rbu.step, Rbu.event, Rbu.onTick, Rbu.startRead_ok p _ _ _ _ ha, Rbu.await]
      split at h
      · cases h
      rename_i e1 h1
      obtain ⟨k, hk, hrun⟩ := Rbu.xfer_continues p (⟨sqn + 1, lk, .busy (.send ⟨frameRead p sqn addr, 6, t,
          .poll addr m v⟩), rest, tr ++ [.tick t .continue], rs⟩ : Rbu)
        _ _ (pollCont addr m v t) e1 rfl
         (by intro w r st; unfold pollCont; split <;> simp [Rbu.deliver, Rbu.await])
         (by intro c r; rfl) (fun b r' hb => Rbu.onReply_poll _ _ _ _ _ _ _ _ _ hb) h1
      have hlate : ∀ w, e1.result = .ok w → e1.late = false := by
        intro w hw
        simp only [readSpec] at h1
        unfold xferSpec at h1
        repeat' split at h1
        all_goals first | (cases h1; done) | (cases h1; simp at hw; done) | (cases h1; rfl)
      simp only at hk
      split at h
      · rename_i w hres
        rw [hres, pollCont] at hrun
        split at h
        · rename_i hm
          cases h
          refine ⟨k + 1, by simp; omega, ?_⟩
          rw [Rbu.run, hstep, hrun, if_pos hm]
          simp [Rbu.reached, Rbu.endsAs, Rbu.deliver]
        · rename_i hm
          rw [if_neg hm] at hrun
          split at h
          · cases h
          rename_i f hf
          cases h
          obtain ⟨k2, hk2, hrun2⟩ := ih (((⟨sqn + 1, lk, .busy (.send ⟨frameRead p sqn addr, 6, t, .poll addr m v⟩),
              rest, tr ++ [.tick t .continue], rs⟩ : Rbu).reached e1).await (.tick addr m v t)) f rfl hf
          simp only [Rbu.await, Rbu.reached] at hk2
          refine ⟨(k + k2) + 1, by simp; omega, ?_⟩
          rw [Rbu.run, hstep, Rbu.run_add, hrun, hrun2]
          simp [Rbu.reached, Rbu.endsAs, Rbu.await, hlate _ hres]
      · rename_i hno
        cases h
        refine ⟨k + 1, by simp; omega, ?_⟩
        rw [Rbu.run, hstep, hrun]
        unfold pollCont
        split
        · rename_i hh; exact absurd hh (hno _)
        · simp [Rbu.reached, Rbu.endsAs, Rbu.deliver]
    · cases h

theorem countFrames_nil (p : Params) (n : Nat) : countFrames p n [] = 0 := by
  cases n <;> simp [countFrames, decodeFrame]

theorem framesIn_of (p : Params) (i : Instr) (b : Bytes) (h : decodeFrame p b = .ok (i, [])) : framesIn p b = 1 := by
  unfold framesIn
  cases b with
  | nil => simp [decodeFrame] at h
  | cons x b => simp only [List.length_cons, countFrames, h, countFrames_nil]

theorem framesIn_read (p : Params) [p.Documented] (s : Byte) (a : Nat) (h : a < 65535) : framesIn p (frameRead p s a) = 1 := by
  have := decodeFrame_read p s a (by omega) []; rw [List.append_nil] at this; exact framesIn_of p _ _ this

theorem framesIn_write (p : Params) [p.Documented] (s : Byte) (a : Nat) (v : Word) (h : a < 65535) : framesIn p (frameWrite p s a v) = 1 := by
  have := decodeFrame_write p s a v (by omega) []; rw [List.append_nil] at this; exact framesIn_of p _ _ this

theorem framesIn_streamRead (p : Params) [p.Documented] (s : Byte) (a n : Nat) (h : a < 65535) (hn : n ≤ 65535) : framesIn p
    (frameStreamRead p s a n) = 1 := by
  have := decodeFrame_streamRead p s a n (by omega) (by omega) []; rw [List.append_nil] at this; exact framesIn_of p _ _ this

theorem framesIn_streamWrite (p : Params) [p.Documented] (s : Byte) (a : Nat) (d : Bytes) (h : a < 65535) (hn : d.length ≤ 65535) : framesIn p
    (frameStreamWrite p s a d) = 1 := by
  have := decodeFrame_streamWrite p s a d (by omega) (by omega) []; rw [List.append_nil] at this; exact framesIn_of p _ _ this

theorem framesIn_flush (p : Params) [p.Documented] (s : Byte) : framesIn p (frameFlush p s) = 1 := by
  have := decodeFrame_flush p s []; rw [List.append_nil] at this; exact framesIn_of p _ _ this

theorem batchFrames_length (p : Params) [p.Documented] (pairs : List (Nat × Word)) (s : Byte) :
    (batchFrames p s pairs).length = 8 * pairs.length := by
  induction pairs generalizing s with
  | nil => rfl
  | cons q pairs ih => obtain ⟨a, v⟩ := q; simp only [batchFrames_cons, List.length_append, ih,
      List.length_cons]; simp [frameWrite, le16, le32]; omega

theorem countFrames_batch (p : Params) [p.Documented] (pairs : List (Nat × Word)) : ∀ (s : Byte) (fuel : Nat), pairs.length ≤ fuel → (∀ q ∈ pairs,
    q.1 < 65535) →
    countFrames p fuel (batchFrames p s pairs) = pairs.length := by
  induction pairs with
  | nil => intro s fuel _ _; exact countFrames_nil p fuel
  | cons q pairs ih =>
    intro s fuel hf h
    obtain ⟨a, v⟩ := q
    cases fuel with
    | zero => simp at hf
    | succ fuel =>
      have ha := h (a, v) (by simp)
      simp only at ha
      simp only [countFrames, batchFrames_cons, decodeFrame_write p s a v (by omega) (batchFrames p (s + 1) pairs)]
      rw [ih (s + 1) fuel (by simpa using hf) (fun q hq => h q (by simp [hq]))]; simp only [List.length_cons]; omega

/-- A batch carries one frame for each pair (R95). -/
theorem framesIn_batch (p : Params) [p.Documented] (pairs : List (Nat × Word)) (s : Byte) (h : ∀ q ∈ pairs, q.1 < 65535) :
    framesIn p (batchFrames p s pairs) = pairs.length :=
  countFrames_batch p pairs s _ (by rw [batchFrames_length]; omega) h

theorem Frames_read (p : Params) [p.Documented] (s : Byte) (a : Nat) (h : a < 65535) : Frames p 1 (frameRead p s a) := by
  have := decodeFrame_read p s a (by omega) []; rw [List.append_nil] at this
  exact .cons this (validAddr_true h) .nil

theorem Frames_write (p : Params) [p.Documented] (s : Byte) (a : Nat) (v : Word) (h : a < 65535) : Frames p 1 (frameWrite p s a v) := by
  have := decodeFrame_write p s a v (by omega) []; rw [List.append_nil] at this
  exact .cons this (validAddr_true h) .nil

theorem Frames_streamRead (p : Params) [p.Documented] (s : Byte) (a n : Nat) (h : a < 65535) (hn : n ≤ 65535) : Frames p 1
    (frameStreamRead p s a n) := by
  have := decodeFrame_streamRead p s a n (by omega) (by omega) []; rw [List.append_nil] at this
  exact .cons this (validAddr_true h) .nil

theorem Frames_streamWrite (p : Params) [p.Documented] (s : Byte) (a : Nat) (d : Bytes) (h : a < 65535) (hn : d.length ≤ 65535) : Frames p 1
    (frameStreamWrite p s a d) := by
  have := decodeFrame_streamWrite p s a d (by omega) (by omega) []; rw [List.append_nil] at this
  exact .cons this (validAddr_true h) .nil

theorem Frames_flush (p : Params) [p.Documented] (s : Byte) : Frames p 1 (frameFlush p s) := by
  have := decodeFrame_flush p s []; rw [List.append_nil] at this
  exact .cons this rfl .nil

/-- A batch is whole frames with valid addresses (R95). -/
theorem Frames_batch (p : Params) [p.Documented] (pairs : List (Nat × Word)) (s : Byte) (h : ∀ q ∈ pairs, q.1 < 65535) :
    Frames p pairs.length (batchFrames p s pairs) := by
  induction pairs generalizing s with
  | nil => exact .nil
  | cons q pairs ih =>
    obtain ⟨a, v⟩ := q
    have ha := h (a, v) (by simp)
    simp only at ha
    rw [batchFrames_cons]
    exact .cons (decodeFrame_write p s a v (by omega) (batchFrames p (s + 1) pairs)) (validAddr_true ha) (ih (s + 1) (fun q hq => h q (by simp [hq])))

/-- The next answer is an outcome of the outstanding request. -/
def Rbu.moves (r : Rbu) : Prop :=
  match r.state, r.answers with
  | .busy (.send _), .send _ :: _ => True
  | .busy (.recv x), .recv o :: _ => o.allowed x.n = true
  | .busy (.tick ..), .tick _ :: _ => True
  | _, _ => False

/-- The errors a transfer can still end with (R140). -/
def AfterReply.causes (p : Params) : AfterReply → List Subcause
  | .value | .payload _ => [.toSend, .toRecv, .peLen, .peEcho, .teSend, .teRecv]
  | .rmw addr _ _ | .poll addr _ _ => (if validAddr p addr then [] else [.ipAddr]) ++ [.toSend, .toRecv, .peLen,
      .peEcho, .teSend, .teRecv]
  | _ => [.toSend, .toRecv, .peLen, .teSend, .teRecv]

/-- The errors the command in progress can still end with (R140). -/
def RbuState.causes (p : Params) : RbuState → List Subcause
  | .idle => []
  | .busy (.send x) => x.after.causes p
  | .busy (.recv x) => x.after.causes p
  | .busy (.tick addr _ _ _) => (AfterReply.poll addr 0 0).causes p

/-- What can have happened to RBU between the acceptance of a command (`r0`) and a later moment (`r`): events
appended, answers taken from the front, LINK_OK cleared only by a Timeout, at most one result, and that one of the
causes `C`. -/
structure Rbu.Since (p : Params) (C : List Subcause) (r0 r : Rbu) : Prop where
  events : ∃ es, r.trace = r0.trace ++ es ∧ r.linkOk = (r0.linkOk && !es.any TEvent.isTimeout)
  link : r.state ≠ .idle → r.linkOk = r0.linkOk
  used : ∃ used, r0.answers = used ++ r.answers
  results : (r.state = .idle ∧ ∃ v, r.results = r0.results ++ [v] ∧ ∀ e, v = .err e → e ∈ C) ∨
    (r.state ≠ .idle ∧ r.results = r0.results)
  causes : r.state.causes p ⊆ C

/-- Everything a whole reply can lead to: a result, the write half of RB_RMW, or the next Tick of RB_POLL. -/
theorem Rbu.onReply_cases (p : Params) [p.Documented] (x : Xfer) (b : Bytes) (r : Rbu) :
    (∃ v, r.onReply p x b = r.deliver v ∧ ∀ e, v = .err e → e ∈ x.after.causes p) ∨
    (∃ addr w, addr < 0xFFFF ∧ r.onReply p x b = Rbu.await (.send ⟨frameWrite p r.seq addr w, 2, x.t, .ack⟩) { r with seq := r.seq + 1 } ∧
      ∃ m v, x.after = .rmw addr m v) ∨
    (∃ addr m v, r.onReply p x b = r.await (.tick addr m v x.t) ∧ x.after = .poll addr m v) := by
  obtain ⟨req, n, t, af⟩ := x
  have hdec : ∀ e, decReadReply p req b = .error e → e = .peLen ∨ e = .peEcho := by
    intro e h
    simp only [decReadReply, decStreamReadReply] at h
    split at h
    · rename_i hh; split at hh
      · cases hh
      · cases hh; cases h; exact .inl rfl
    · rename_i hh
      split at hh
      · cases hh
        split at h
        · unfold decReadResponse at h; split at h
          · cases h
          · cases h; exact .inl rfl
        · cases h; exact .inr rfl
      · cases hh
  have hdec2 : ∀ n e, decPayloadReply p req b n = .error e → e = .peLen ∨ e = .peEcho := by
    intro n e h
    simp only [decPayloadReply, decStreamReadReply] at h
    split at h
    · rename_i hh; split at hh
      · cases hh
      · cases hh; cases h; exact .inl rfl
    · rename_i hh
      split at hh
      · cases hh
        split at h
        · cases h
        · cases h; exact .inr rfl
      · cases hh
  cases af <;> simp only [Rbu.onReply]
  · refine .inl ?_
    split
    · rename_i e h; refine ⟨.err e, rfl, fun e' he => ?_⟩; cases he
      rcases hdec e h with rfl | rfl <;> simp [AfterReply.causes]
    · exact ⟨_, rfl, fun e he => by cases he⟩
  · refine .inl ?_
    split
    · rename_i e h; refine ⟨.err e, rfl, fun e' he => ?_⟩; cases he
      unfold decWriteAck at h; split at h <;> cases h; simp [AfterReply.causes]
    · exact ⟨_, rfl, fun e he => by cases he⟩
  · exact .inl ⟨_, rfl, fun e he => by cases he⟩
  · refine .inl ?_
    split
    · rename_i e h; refine ⟨.err e, rfl, fun e' he => ?_⟩; cases he
      rcases hdec2 _ e h with rfl | rfl <;> simp [AfterReply.causes]
    · exact ⟨_, rfl, fun e he => by cases he⟩
  · exact .inl ⟨_, rfl, fun e he => by cases he⟩
  · rename_i addr m v
    split
    · rename_i e h; refine .inl ⟨.err e, rfl, fun e' he => ?_⟩; cases he
      rcases hdec e h with rfl | rfl <;> simp [AfterReply.causes]
    · rename_i old h
      rcases Rbu.startWrite_cases p addr (rmwValue old m v) t r with ⟨ha, hs⟩ | ⟨ha, hs⟩
      · refine .inl ⟨.err .ipAddr, hs, fun e he => ?_⟩; cases he; simp [AfterReply.causes, validAddr_false ha]
      · exact .inr (.inl ⟨addr, _, ha, hs, m, v, rfl⟩)
  · rename_i addr m v
    split
    · rename_i e h; refine .inl ⟨.err e, rfl, fun e' he => ?_⟩; cases he
      rcases hdec e h with rfl | rfl <;> simp [AfterReply.causes]
    · split
      · exact .inl ⟨_, rfl, fun e he => by cases he⟩
      · exact .inr (.inr ⟨addr, m, v, rfl, rfl⟩)

/-- Everything one step of RBU can do, by the request it waits on. -/
theorem Rbu.step_cases (p : Params) (r : Rbu) :
    (r.step p = r ∧ ¬ r.moves) ∨
    (∃ e rest, r.answers.length = rest.length + 1 ∧ (∃ a, r.answers = a :: rest) ∧ r.moves ∧
      ((∃ x o, r.state = .busy (.send x) ∧ e = .send x.req x.t o ∧ (r.event e rest).onSend p x o = r.step p) ∨
       (∃ x o, r.state = .busy (.recv x) ∧ e = .recv x.n x.t o ∧ o.allowed x.n = true ∧
           (r.event e rest).onRecv p x o = r.step p) ∨
       (∃ addr m v t o, r.state = .busy (.tick addr m v t) ∧ e = .tick t o ∧
           (r.event e rest).onTick p addr m v t o = r.step p))) := by
  unfold Rbu.step
  split
  · rename_i hs ha
    exact .inr ⟨_, _, by rw [ha]; rfl, ⟨_, ha⟩, by simp [Rbu.moves, hs, ha], .inl ⟨_, _, hs, rfl, rfl⟩⟩
  · rename_i hs ha
    split
    · rename_i hal
      exact .inr ⟨_, _, by rw [ha]; rfl, ⟨_, ha⟩, by simp [Rbu.moves, hs, ha, hal],
        .inr (.inl ⟨_, _, hs, rfl, hal, rfl⟩)⟩
    · rename_i hal; exact .inl ⟨rfl, by simpa [Rbu.moves, hs, ha] using hal⟩
  · rename_i hs ha
    exact .inr ⟨_, _, by rw [ha]; rfl, ⟨_, ha⟩, by simp [Rbu.moves, hs, ha],
      .inr (.inr ⟨_, _, _, _, _, hs, rfl, rfl⟩)⟩
  · rename_i h1 h2 h3
    refine .inl ⟨rfl, fun h => ?_⟩
    unfold Rbu.moves at h
    split at h
    · exact h1 _ _ _ ‹_› ‹_›
    · exact h2 _ _ _ ‹_› ‹_›
    · exact h3 _ _ _ _ _ _ ‹_› ‹_›
    · exact h

/-- RBU after one port event `e`: with its result, or waiting on its next request. -/
def Rbu.after (r : Rbu) (e : TEvent) (rest : List TAnswer) (seq : Byte) (st : RbuState) (vs : List Result) : Rbu :=
  { seq := seq, linkOk := r.linkOk && !e.isTimeout, state := st, answers := rest, trace := r.trace ++ [e],
    results := r.results ++ vs }

/-- One step of RBU, said once: it waits unchanged, or it makes one event and then delivers one result or waits on a
next request, for which it may have built frames. -/
theorem Rbu.step_effect (p : Params) [p.Documented] (r : Rbu) :
    (r.step p = r ∧ ¬ r.moves) ∨
    (∃ e rest a seq st vs, r.answers = a :: rest ∧ r.moves ∧ r.step p = r.after e rest seq st vs ∧
        e.frames p = r.state.frames p ∧
      r.state ≠ .idle ∧ (r.state.ok p → e.legal p ∧ st.ok p) ∧
      ((st = .idle ∧ seq = r.seq ∧ ∃ v, vs = [v] ∧ ∀ c, v = .err c → c ∈ r.state.causes p) ∨
       (st ≠ .idle ∧ vs = [] ∧ e.isTimeout = false ∧ st.causes p ⊆ r.state.causes p ∧
         ∃ n, seq = r.seq + BitVec.ofNat 8 n ∧ st.frames p = n))) := by
  rcases r.step_cases p with h | ⟨e, rest, -, ⟨a, ha⟩, hm, h⟩
  · exact .inl h
  refine .inr ?_
  -- what a reply leads to
  have reply : ∀ (x : Xfer) (e : TEvent) (b : Bytes), (r.event e rest).onReply p x b = r.step p →
      e.isTimeout = false → r.state.causes p = x.after.causes p →
      e.frames p = r.state.frames p → r.state ≠ .idle →
      (r.state.ok p → e.legal p ∧ x.ok p) →
      ∃ e rest a seq st vs, r.answers = a :: rest ∧ r.moves ∧ r.step p = r.after e rest seq st vs ∧
          e.frames p = r.state.frames p ∧
      r.state ≠ .idle ∧ (r.state.ok p → e.legal p ∧ st.ok p) ∧
      ((st = .idle ∧ seq = r.seq ∧ ∃ v, vs = [v] ∧ ∀ c, v = .err c → c ∈ r.state.causes p) ∨
       (st ≠ .idle ∧ vs = [] ∧ e.isTimeout = false ∧ st.causes p ⊆ r.state.causes p ∧
         ∃ n, seq = r.seq + BitVec.ofNat 8 n ∧ st.frames p = n)) := by
    intro x e b hst ht hc hf hid hok
    rw [← hst]
    rcases Rbu.onReply_cases p x b (r.event e rest) with ⟨v, h, hv⟩ | ⟨addr, w, haddr, h, m, v, hx⟩ | ⟨addr, m, v, h,
        hx⟩
    · refine ⟨e, rest, a, r.seq, .idle, [v], ha, hm, by rw [h]; simp [Rbu.after, Rbu.deliver, Rbu.event, ht], hf, hid,
          fun o => ⟨(hok o).1, trivial⟩, ?_⟩
      exact .inl ⟨rfl, rfl, v, rfl, fun c hcv => by rw [hc]; exact hv c hcv⟩
    · refine ⟨e, rest, a, r.seq + 1, _, [], ha, hm,
          by rw [h]; simp [Rbu.after, Rbu.await, Rbu.event, ht]; rfl, hf, hid, fun o => ⟨(hok o).1, ?_⟩, ?_⟩
      · exact ⟨⟨1, le_rfl, Frames_write p _ _ _ haddr⟩, by simp⟩
      · refine .inr ⟨by simp, rfl, ht, ?_, 1, by simp, ?_⟩
        · rw [hc, hx]; simp only [RbuState.causes, AfterReply.causes]; intro c; simp only [List.mem_append,
              List.mem_cons, List.not_mem_nil]; tauto
        · exact framesIn_write p _ _ _ haddr
    · refine ⟨e, rest, a, r.seq, _, [], ha, hm, by rw [h]; simp [Rbu.after, Rbu.await, Rbu.event, ht]; rfl, hf, hid,
          fun o => ⟨(hok o).1, ?_⟩, ?_⟩
      · have := (hok o).2.2; rw [hx] at this; exact this.2
      · refine .inr ⟨by simp, rfl, ht, ?_, 0, by simp, rfl⟩
        rw [hc, hx]; exact fun c hc => hc
  rcases h with ⟨x, o, hs, he, hst⟩ | ⟨x, o, hs, he, hal, hst⟩ | ⟨addr, m, v, t, o, hs, he, hst⟩
  · have hf : e.frames p = r.state.frames p := by rw [hs, he]; rfl
    have hid : r.state ≠ .idle := by rw [hs]; simp
    have hok : r.state.ok p → e.legal p := by intro o; rw [hs] at o; rw [he]; exact o.1
    have hc : r.state.causes p = x.after.causes p := by rw [hs]; rfl
    have hsub : ∀ c, c = .toSend ∨ c = .teSend → c ∈ r.state.causes p := by
      rw [hc]; rintro c (rfl | rfl) <;> cases x.after <;> simp [AfterReply.causes]
    cases o with
    | sent =>
      simp only [Rbu.onSend] at hst
      split at hst
      · exact reply x e [] hst (by rw [he]; rfl) hc hf hid (fun o => ⟨hok o, by rw [hs] at o; exact o⟩)
      · rename_i hn
        rw [← hst]
        refine ⟨e, rest, a, r.seq, .busy (.recv x), [], ha, hm,
            by simp [Rbu.after, Rbu.await, Rbu.event, he, TEvent.isTimeout], hf, hid, fun o => ⟨hok o, ?_⟩, .inr ⟨by simp, rfl, by rw [he]; rfl, ?_, 0, by simp, rfl⟩⟩
        · rw [hs] at o; exact ⟨o, by omega⟩
        · rw [hc]; exact fun c h => h
    | timeout =>
      rw [← hst]
      exact ⟨e, rest, a, r.seq, .idle, [.err .toSend], ha, hm,
          by simp [Rbu.onSend, Rbu.after, Rbu.raise, Rbu.deliver, Rbu.timeoutHit, Rbu.event, he, TEvent.isTimeout], hf, hid, fun o => ⟨hok o, trivial⟩, .inl ⟨rfl, rfl, _, rfl, fun c h => by cases h; exact hsub _ (.inl rfl)⟩⟩
    | transferError =>
      rw [← hst]
      exact ⟨e, rest, a, r.seq, .idle, [.err .teSend], ha, hm,
          by simp [Rbu.onSend, Rbu.after, Rbu.raise, Rbu.deliver, Rbu.event, he, TEvent.isTimeout], hf, hid, fun o => ⟨hok o, trivial⟩, .inl ⟨rfl, rfl, _, rfl, fun c h => by cases h; exact hsub _ (.inr rfl)⟩⟩
  · have hf : e.frames p = r.state.frames p := by rw [hs, he]; rfl
    have hid : r.state ≠ .idle := by rw [hs]; simp
    have hok : r.state.ok p → e.legal p := by intro o; rw [hs] at o; rw [he]; exact ⟨o.2, hal⟩
    have hc : r.state.causes p = x.after.causes p := by rw [hs]; rfl
    have hsub : ∀ c, c = .toRecv ∨ c = .teRecv ∨ c = .peLen → c ∈ r.state.causes p := by
      rw [hc]; rintro c (rfl | rfl | rfl) <;> cases x.after <;> simp [AfterReply.causes]
    cases o with
    | bytes b => exact reply x e b hst (by rw [he]; rfl) hc hf hid (fun o => ⟨hok o, by rw [hs] at o; exact o.1⟩)
    | short b =>
      rw [← hst]
      exact ⟨e, rest, a, r.seq, .idle, [.err .peLen], ha, hm,
          by simp [Rbu.onRecv, Rbu.after, Rbu.raise, Rbu.deliver, Rbu.event, he, TEvent.isTimeout], hf, hid, fun o => ⟨hok o, trivial⟩, .inl ⟨rfl, rfl, _, rfl, fun c h => by cases h; exact hsub _ (.inr (.inr rfl))⟩⟩
    | timeout =>
      rw [← hst]
      exact ⟨e, rest, a, r.seq, .idle, [.err .toRecv], ha, hm,
          by simp [Rbu.onRecv, Rbu.after, Rbu.raise, Rbu.deliver, Rbu.timeoutHit, Rbu.event, he, TEvent.isTimeout], hf, hid, fun o => ⟨hok o, trivial⟩, .inl ⟨rfl, rfl, _, rfl, fun c h => by cases h; exact hsub _ (.inl rfl)⟩⟩
    | transferError =>
      rw [← hst]
      exact ⟨e, rest, a, r.seq, .idle, [.err .teRecv], ha, hm,
          by simp [Rbu.onRecv, Rbu.after, Rbu.raise, Rbu.deliver, Rbu.event, he, TEvent.isTimeout], hf, hid, fun o => ⟨hok o, trivial⟩, .inl ⟨rfl, rfl, _, rfl, fun c h => by cases h; exact hsub _ (.inr (.inl rfl))⟩⟩
  · have hf : e.frames p = r.state.frames p := by rw [hs, he]; rfl
    have hid : r.state ≠ .idle := by rw [hs]; simp
    have hok : r.state.ok p → e.legal p := by intro o; rw [he]; trivial
    have ht : e.isTimeout = false := by rw [he]; rfl
    have hc : r.state.causes p = (AfterReply.poll addr 0 0).causes p := by rw [hs]; rfl
    rw [← hst]
    cases o with
    | expired =>
      exact ⟨e, rest, a, r.seq, .idle, [.ok (.bool false)], ha, hm,
          by simp [Rbu.onTick, Rbu.after, Rbu.deliver, Rbu.event, ht], hf, hid, fun o => ⟨hok o, trivial⟩, .inl ⟨rfl, rfl, _, rfl, fun c h => by cases h⟩⟩
    | _ =>
      simp only [Rbu.onTick]
      rcases Rbu.startRead_cases p addr t (.poll addr m v) (r.event e rest) with ⟨haddr, h⟩ | ⟨haddr, h⟩
      · refine ⟨e, rest, a, r.seq, .idle, [.err .ipAddr], ha, hm,
            by rw [h]; simp [Rbu.after, Rbu.raise, Rbu.deliver, Rbu.event, ht], hf, hid, fun o => ⟨hok o, trivial⟩, .inl ⟨rfl, rfl, _, rfl, fun c h => by cases h; rw [hc]; simp [AfterReply.causes, validAddr_false haddr]⟩⟩
      · refine ⟨e, rest, a, r.seq + 1, _, [], ha, hm,
            by rw [h]; simp [Rbu.after, Rbu.await, Rbu.event, ht]; rfl, hf, hid, fun o => ⟨hok o, ?_⟩, ?_⟩
        · exact ⟨⟨1, le_rfl, Frames_read p _ _ haddr⟩, by simp, validAddr_true haddr⟩
        · refine .inr ⟨by simp, rfl, ht, ?_, 1, by simp, ?_⟩
          · rw [hc]; exact fun c h => h
          · exact framesIn_read p _ _ haddr

/-- How each bus command starts, as one function. -/
def busStart (i : Instr) (p : Params) (t : Timeout) : Rbu → Rbu :=
  match i with
  | .write _ addr value => Rbu.startWrite p addr value t
  | .read _ addr => Rbu.startRead p addr t .value
  | .streamWrite _ addr data => Rbu.startStreamWrite p addr data t
  | .streamRead _ addr length => Rbu.startStreamRead p addr length t
  | .flush _ => Rbu.startFlush p t
  | .rbWriteBatch pairs => Rbu.startBatch p pairs t
  | .rbRmw addr mask value => Rbu.startRead p addr t (.rmw addr mask value)
  | .rbPoll addr mask expected => Rbu.startPoll p addr mask expected t
  | _ => fun r => r

/-- A bus command that needs the link is acceptance of its start (R103). -/
theorem exec_bus (i : Instr) (s : State) (h : isBusCommand i = true) (hi : i ≠ .rbReestablish) :
    exec i s = s.onRbu (s.rbu.accept s.params (busStart i s.params s.cmdTimeout)) := by
  cases i <;> first | rfl | exact absurd rfl hi | simp [isBusCommand] at h

/-- Everything the start of a bus command can do: an immediate result, or a request with its frames built. -/
theorem start_effect (i : Instr) (p : Params) [p.Documented] (t : Timeout) (r : Rbu) (h : isBusCommand i = true)
    (hi : i ≠ .rbReestablish) :
    (∃ v, busStart i p t r = { r with state := .idle, results := r.results ++ [v] } ∧ ∀ c, v = .err c →
        c ∈ causes i) ∨
    (∃ n st, busStart i p t r = { r with seq := r.seq + BitVec.ofNat 8 n, state := st } ∧ st ≠ .idle ∧ st.frames p = n ∧
      st.ok p ∧ st.causes p ⊆ causes i) := by
  cases i <;> simp only [isBusCommand, Bool.false_eq_true] at h
  · rename_i q addr v
    rcases Rbu.startWrite_cases p addr v t r with ⟨ha, hs⟩ | ⟨ha, hs⟩
    · exact .inl ⟨_, hs, fun c hc => by cases hc; simp [causes]⟩
    · exact .inr ⟨1, _, hs, by simp, framesIn_write p _ _ _ ha, ⟨⟨1, le_rfl, Frames_write p _ _ _ ha⟩, by simp⟩,
          by simp [RbuState.causes, AfterReply.causes, causes]⟩
  · rename_i q addr
    rcases Rbu.startRead_cases p addr t .value r with ⟨ha, hs⟩ | ⟨ha, hs⟩
    · exact .inl ⟨_, hs, fun c hc => by cases hc; simp [causes]⟩
    · exact .inr ⟨1, _, hs, by simp, framesIn_read p _ _ ha, ⟨⟨1, le_rfl, Frames_read p _ _ ha⟩, by simp⟩,
          by simp [RbuState.causes, AfterReply.causes, causes]⟩
  · rename_i q addr d
    by_cases ha : addr < 0xFFFF
    · by_cases hn : d.length ≤ 0xFFFF
      · refine .inr ⟨1, .busy (.send ⟨frameStreamWrite p r.seq addr d, 2, t, .ack⟩), ?_, by simp,
            framesIn_streamWrite p _ _ _ ha hn, ⟨⟨1, le_rfl, Frames_streamWrite p _ _ _ ha hn⟩, by simp⟩,
            by simp [RbuState.causes, AfterReply.causes, causes]⟩
        simp [busStart, Rbu.startStreamWrite, encStreamWrite, validAddr_true ha, validLen_true hn, Rbu.bumpSeq,
            Rbu.await]
      · exact .inl ⟨.err .ipLen,
            by simp [busStart, Rbu.startStreamWrite, encStreamWrite, validAddr_true ha, validLen_false (show 0xFFFF < d.length by omega), Rbu.raise, Rbu.deliver], fun c hc => by cases hc; simp [causes]⟩
    · exact .inl ⟨.err .ipAddr,
          by simp [busStart, Rbu.startStreamWrite, encStreamWrite, validAddr_false (show 0xFFFF ≤ addr by omega), Rbu.raise, Rbu.deliver], fun c hc => by cases hc; simp [causes]⟩
  · rename_i q addr n
    by_cases ha : addr < 0xFFFF
    · by_cases hn : n ≤ 0xFFFF
      · refine .inr ⟨1, .busy (.send ⟨frameStreamRead p r.seq addr n, n + 2, t, .payload n⟩), ?_, by simp,
            framesIn_streamRead p _ _ _ ha hn, ⟨⟨1, le_rfl, Frames_streamRead p _ _ _ ha hn⟩, by simp⟩, ?_⟩
        · simp [busStart, Rbu.startStreamRead, encStreamRead, validAddr_true ha, validLen_true hn, Rbu.bumpSeq,
              Rbu.await]
        · simp [RbuState.causes, AfterReply.causes, causes]
      · exact .inl ⟨.err .ipLen,
            by simp [busStart, Rbu.startStreamRead, encStreamRead, validAddr_true ha, validLen_false (show 0xFFFF < n by omega), Rbu.raise, Rbu.deliver], fun c hc => by cases hc; simp [causes]⟩
    · exact .inl ⟨.err .ipAddr,
          by simp [busStart, Rbu.startStreamRead, encStreamRead, validAddr_false (show 0xFFFF ≤ addr by omega), Rbu.raise, Rbu.deliver], fun c hc => by cases hc; simp [causes]⟩
  · exact .inr ⟨1, .busy (.send ⟨frameFlush p r.seq, p.flushRespLen, t, .ignore⟩),
        by simp [busStart, Rbu.startFlush, Rbu.bumpSeq_doc, Rbu.await, encFlush], by simp, framesIn_flush p _,
        ⟨⟨1, le_rfl, Frames_flush p _⟩, rfl⟩, by simp [RbuState.causes, AfterReply.causes, causes]⟩
  · rename_i pairs
    simp only [busStart, Rbu.startBatch]
    split
    · rename_i hall
      simp only [List.all_eq_true, validAddr_iff] at hall
      cases pairs with
      | nil => exact .inl ⟨.ok .none, rfl, fun c hc => by cases hc⟩
      | cons q qs =>
        refine .inr ⟨(q :: qs).length, .busy (.send ⟨batchFrames p r.seq (q :: qs), 2 * (q :: qs).length, t, .acks⟩),
            by simp [Rbu.await], by simp, framesIn_batch p _ _ hall, ⟨⟨_, by simp, Frames_batch p _ _ hall⟩, ?_⟩, by simp [RbuState.causes, AfterReply.causes, causes]⟩
        simp only [List.length_cons]; omega
    · exact .inl ⟨.err .ipAddr, rfl, fun c hc => by cases hc; simp [causes]⟩
  · rename_i addr m v
    rcases Rbu.startRead_cases p addr t (.rmw addr m v) r with ⟨ha, hs⟩ | ⟨ha, hs⟩
    · exact .inl ⟨_, hs, fun c hc => by cases hc; simp [causes]⟩
    · exact .inr ⟨1, _, hs, by simp, framesIn_read p _ _ ha, ⟨⟨1, le_rfl, Frames_read p _ _ ha⟩, by simp, validAddr_true ha⟩,
          by simp [RbuState.causes, AfterReply.causes, validAddr_true ha, causes]⟩
  · rename_i addr m v
    by_cases ha : addr < 0xFFFF
    · exact .inr ⟨0, .busy (.tick addr m v t), by simp [busStart, Rbu.startPoll, validAddr_true ha, Rbu.await],
          by simp, rfl, validAddr_true ha, by simp [RbuState.causes, AfterReply.causes, validAddr_true ha, causes]⟩
    · exact .inl ⟨.err .ipAddr,
          by simp [busStart, Rbu.startPoll, validAddr_false (show 0xFFFF ≤ addr by omega), Rbu.raise, Rbu.deliver], fun c hc => by cases hc; simp [causes]⟩
  · exact absurd rfl hi

theorem Rbu.since_step (p : Params) [p.Documented] (C : List Subcause) (r0 r : Rbu) (h : Rbu.Since p C r0 r) : Rbu.Since p C r0
    (r.step p) := by
  rcases r.step_effect p with ⟨h1, -⟩ | ⟨e, rest, a, seq, st, vs, ha, -, hst, -, hid, -, hd⟩
  · rw [h1]; exact h
  · rw [hst]
    obtain ⟨es, hes, hl⟩ := h.events
    obtain ⟨used, hu⟩ := h.used
    have hlk := h.link hid
    have hres : r.results = r0.results := by
      rcases h.results with ⟨hi, -⟩ | ⟨-, hr⟩
      · exact absurd hi hid
      · exact hr
    refine ⟨⟨es ++ [e], ?_, ?_⟩, ?_, ⟨used ++ [a], ?_⟩, ?_, ?_⟩
    · simp [Rbu.after, hes]
    · simp [Rbu.after, hl, List.any_append, Bool.and_assoc]
    · intro hs
      rcases hd with ⟨h0, -⟩ | ⟨-, -, ht, -⟩
      · exact absurd h0 hs
      · simp [Rbu.after, ht, hlk]
    · simp [Rbu.after, hu, ha]
    · rcases hd with ⟨h0, -, v, rfl, hv⟩ | ⟨h0, rfl, -⟩
      · exact .inl ⟨h0, v, by simp [Rbu.after, hres], fun e he => h.causes (hv e he)⟩
      · exact .inr ⟨h0, by simp [Rbu.after, hres]⟩
    · rcases hd with ⟨h0, -⟩ | ⟨-, -, -, hc, -⟩
      · simp [Rbu.after, h0, RbuState.causes]
      · exact fun c hcc => h.causes (hc hcc)

theorem Rbu.since_run (p : Params) [p.Documented] (C : List Subcause) (r0 : Rbu) (n : Nat) (r : Rbu) (h : Rbu.Since p C r0 r) :
    Rbu.Since p C r0 (Rbu.run p n r) := by
  induction n generalizing r with
  | zero => exact h
  | succ n ih => exact ih _ (Rbu.since_step p C r0 r h)

theorem Rbu.since_start (i : Instr) (p : Params) [p.Documented] (t : Timeout) (r : Rbu) (h : isBusCommand i = true)
    (hi : i ≠ .rbReestablish) :
    Rbu.Since p (causes i) r (busStart i p t r) := by
  rcases start_effect i p t r h hi with ⟨v, hs, hv⟩ | ⟨n, st, hs, h0, -, -, hc⟩ <;> rw [hs]
  · exact ⟨⟨[], by simp, by simp⟩, fun _ => rfl, ⟨[], by simp⟩, .inl ⟨rfl, v, rfl, hv⟩, by simp [RbuState.causes]⟩
  · exact ⟨⟨[], by simp, by simp⟩, fun _ => rfl, ⟨[], by simp⟩, .inr ⟨h0, rfl⟩, hc⟩

/-- What a bus command that gives a next state did. -/
theorem bus_next (i : Instr) (s t : State) [s.params.Documented] (h : isBusCommand i = true) (hx : exec i s = .next t) :
    s.rbu.state = .idle ∧ t = { s with rbu := t.rbu } ∧
    ((i = .rbReestablish ∧ t.rbu = { s.rbu with linkOk := true, results := s.rbu.results ++ [.ok .none] }) ∨
     (s.rbu.linkOk = true ∧ t.rbu = (busStart i s.params s.cmdTimeout s.rbu).advance s.params ∧
         Rbu.Since s.params (causes i) s.rbu t.rbu)) := by
  by_cases hi : i = .rbReestablish
  · subst hi
    simp only [exec, execRbReestablish] at hx
    split at hx <;> cases hx
    rename_i hs
    exact ⟨hs, rfl, .inl ⟨rfl, by simp [Rbu.relink, Rbu.deliver, hs]⟩⟩
  · rw [exec_bus i s h hi] at hx
    simp only [Rbu.accept] at hx
    split at hx
    · cases hx
    · rename_i hs
      split at hx
      · rename_i hl
        simp only [State.onRbu, andThen] at hx
        cases hx
        exact ⟨hs, rfl, .inr ⟨hl, rfl, Rbu.since_run _ _ _ _ _ (Rbu.since_start i _ _ _ h hi)⟩⟩
      · cases hx

/-- RBU with other answers ready. -/
def Rbu.withAnswers (r : Rbu) (l : List TAnswer) : Rbu := { r with answers := l }

theorem Rbu.startWrite_withAnswers (p : Params) (addr : Nat) (v : Word) (t : Timeout) (r : Rbu) (l : List TAnswer) :
    (r.withAnswers l).startWrite p addr v t = (r.startWrite p addr v t).withAnswers l := by
  simp only [Rbu.startWrite, Rbu.withAnswers]; split <;> rfl

theorem Rbu.startRead_withAnswers (p : Params) (addr : Nat) (af : AfterReply) (t : Timeout) (r : Rbu) (l : List TAnswer) :
    (r.withAnswers l).startRead p addr t af = (r.startRead p addr t af).withAnswers l := by
  simp only [Rbu.startRead, Rbu.withAnswers]; split <;> rfl

theorem Rbu.onReply_withAnswers (p : Params) (x : Xfer) (b : Bytes) (r : Rbu) (l : List TAnswer) :
    (r.withAnswers l).onReply p x b = (r.onReply p x b).withAnswers l := by
  simp only [Rbu.onReply]
  split <;> (try split) <;> (try split) <;> first | rfl | exact Rbu.startWrite_withAnswers _ _ _ _ _ _

theorem Rbu.onSend_withAnswers (p : Params) (x : Xfer) (o : SendOutcome) (r : Rbu) (l : List TAnswer) :
    (r.withAnswers l).onSend p x o = (r.onSend p x o).withAnswers l := by
  cases o <;> simp only [Rbu.onSend] <;> (try split) <;> first | rfl | exact Rbu.onReply_withAnswers _ _ _ _ _

theorem Rbu.onRecv_withAnswers (p : Params) (x : Xfer) (o : RecvOutcome) (r : Rbu) (l : List TAnswer) :
    (r.withAnswers l).onRecv p x o = (r.onRecv p x o).withAnswers l := by
  cases o <;> simp only [Rbu.onRecv] <;> first | rfl | exact Rbu.onReply_withAnswers _ _ _ _ _

theorem Rbu.onTick_withAnswers (p : Params) (a : Nat) (m v : Word) (t : Timeout) (o : TickOutcome) (r : Rbu) (l : List TAnswer) :
    (r.withAnswers l).onTick p a m v t o = (r.onTick p a m v t o).withAnswers l := by
  cases o <;> simp only [Rbu.onTick] <;> first | rfl | exact Rbu.startRead_withAnswers p _ _ _ _ _

/-- A step that makes an event takes the first answer and looks at no later one (R16). -/
theorem Rbu.step_append (p : Params) (r : Rbu) (a : TAnswer) (as l : List TAnswer) (h : r.answers = a :: as) :
    ((r.step p = r ∧ (r.withAnswers ((a :: as) ++ l)).step p = r.withAnswers ((a :: as) ++ l)) ∨
     ((r.step p).answers = as ∧ (r.withAnswers ((a :: as) ++ l)).step p = (r.step p).withAnswers (as ++ l))) := by
  obtain ⟨sq, lk, st, ans, tr, rs⟩ := r
  simp only at h; subst h
  simp only [Rbu.withAnswers, Rbu.step, List.cons_append]
  rcases st with _ | w
  · exact .inl ⟨rfl, rfl⟩
  cases w <;> cases a <;> simp only [Rbu.event] <;> try exact .inl ⟨trivial, trivial⟩
  · exact .inr ⟨congrArg Rbu.answers (Rbu.onSend_withAnswers p _ _ ⟨sq, lk, _, as, _, rs⟩ as),
      Rbu.onSend_withAnswers p _ _ ⟨sq, lk, _, as, _, rs⟩ _⟩
  · split
    · exact .inr ⟨congrArg Rbu.answers (Rbu.onRecv_withAnswers p _ _ ⟨sq, lk, _, as, _, rs⟩ as),
        Rbu.onRecv_withAnswers p _ _ ⟨sq, lk, _, as, _, rs⟩ _⟩
    · exact .inl ⟨rfl, rfl⟩
  · exact .inr ⟨congrArg Rbu.answers (Rbu.onTick_withAnswers p _ _ _ _ _ ⟨sq, lk, _, as, _, rs⟩ as),
      Rbu.onTick_withAnswers p _ _ _ _ _ ⟨sq, lk, _, as, _, rs⟩ _⟩

theorem Rbu.grows_start (p : Params) (addr : Nat) (t : Timeout) (af : AfterReply) (w : Word) (r : Rbu) :
    (r.trace <+: (r.startRead p addr t af).trace ∧ r.results <+: (r.startRead p addr t af).results) ∧
    (r.trace <+: (r.startWrite p addr w t).trace ∧ r.results <+: (r.startWrite p addr w t).results) := by
  unfold Rbu.startRead Rbu.startWrite
  constructor <;> split <;> simp

theorem Rbu.grows_reply (p : Params) (x : Xfer) (b : Bytes) (r : Rbu) :
    r.trace <+: (r.onReply p x b).trace ∧ r.results <+: (r.onReply p x b).results := by
  have hw := fun a w => (Rbu.grows_start p a x.t .ack w r).2
  unfold Rbu.onReply
  split <;> (try split) <;> (try split) <;> first | exact hw _ _ | simp

/-- The start of a bus command only adds to the trace and to the results (R15, R16). -/
theorem grows_busStart (i : Instr) (p : Params) (t : Timeout) (r : Rbu) (h : isBusCommand i = true) :
    r.trace <+: (busStart i p t r).trace ∧ r.results <+: (busStart i p t r).results := by
  cases i <;> simp only [isBusCommand, Bool.false_eq_true] at h <;> simp only [busStart]
  · exact (Rbu.grows_start p _ t .ignore _ r).2
  · exact (Rbu.grows_start p _ t _ 0 r).1
  · unfold Rbu.startStreamWrite; split <;> simp
  · unfold Rbu.startStreamRead; split <;> simp
  · simp [Rbu.startFlush]
  · unfold Rbu.startBatch; split
    · split <;> simp
    · simp
  · exact (Rbu.grows_start p _ t _ 0 r).1
  · unfold Rbu.startPoll; split <;> simp
  · simp

/-- A step of RBU only adds to its trace and to its results (R15, R16). -/
theorem Rbu.grows_step (p : Params) (r : Rbu) :
    r.trace <+: (r.step p).trace ∧ r.results <+: (r.step p).results := by
  rcases r.step_cases p with ⟨h, -⟩ | ⟨e, rest, -, -, -, h⟩
  · rw [h]; exact ⟨List.prefix_rfl, List.prefix_rfl⟩
  have hr := fun x b => Rbu.grows_reply p x b (r.event e rest)
  have hs := fun a t af => (Rbu.grows_start p a t af 0 (r.event e rest)).1
  suffices hh : (r.event e rest).trace <+: (r.step p).trace ∧ r.results <+: (r.step p).results from
    ⟨(List.prefix_append _ _).trans hh.1, hh.2⟩
  rcases h with ⟨x, o, -, -, h⟩ | ⟨x, o, -, -, -, h⟩ | ⟨addr, m, v, t, o, -, -, h⟩ <;> rw [← h]
  · cases o <;> simp only [Rbu.onSend] <;> (try split) <;> first | exact hr _ _ | simp
  · cases o <;> simp only [Rbu.onRecv] <;> first | exact hr _ _ | simp
  · cases o <;> simp only [Rbu.onTick] <;> first | exact hs _ _ _ | simp

theorem Rbu.grows_run (p : Params) (n : Nat) (r : Rbu) : r.trace <+: (Rbu.run p n r).trace ∧ r.results <+:
    (Rbu.run p n r).results := by
  induction n generalizing r with
  | zero => exact ⟨List.prefix_rfl, List.prefix_rfl⟩
  | succ n ih =>
    have h1 := r.grows_step p; have h2 := ih (r.step p)
    exact ⟨h1.1.trans h2.1, h1.2.trans h2.2⟩

/-- SEQ advanced by the number of frames built (R91). -/
def Rbu.counts (p : Params) (r r' : Rbu) : Prop := ∃ n, r'.framesBuilt p = r.framesBuilt p + n ∧ r'.seq = r.seq + BitVec.ofNat 8 n

theorem Rbu.counts_refl (r : Rbu) : r.counts p r := ⟨0, by simp, by simp⟩

theorem Rbu.counts_trans {a b c : Rbu} (h1 : a.counts p b) (h2 : b.counts p c) : a.counts p c := by
  obtain ⟨m, h1, h1'⟩ := h1; obtain ⟨n, h2, h2'⟩ := h2
  refine ⟨m + n, by omega, ?_⟩
  rw [h2', h1', BitVec.add_assoc]; congr 1
  apply BitVec.eq_of_toNat_eq; simp

theorem Rbu.counts_step (p : Params) [p.Documented] (r : Rbu) : r.counts p (r.step p) := by
  rcases r.step_effect p with ⟨h, -⟩ | ⟨e, rest, a, seq, st, vs, -, -, h, hf, -, -, hd⟩ <;> rw [h]
  · exact r.counts_refl
  · rcases hd with ⟨rfl, rfl, -⟩ | ⟨-, -, -, -, n, rfl, hn⟩
    · refine ⟨0, ?_, by simp [Rbu.after]⟩
      simp only [Rbu.framesBuilt, Rbu.after, List.map_append, List.sum_append, List.map_cons, List.map_nil,
          List.sum_singleton, hf]; simp [RbuState.frames]
    · refine ⟨n, ?_, by simp [Rbu.after]⟩
      simp only [Rbu.framesBuilt, Rbu.after, List.map_append, List.sum_append, List.map_cons, List.map_nil,
          List.sum_singleton, hf]; omega

theorem Rbu.counts_run (p : Params) [p.Documented] (n : Nat) (r : Rbu) : r.counts p (Rbu.run p n r) := by
  induction n generalizing r with
  | zero => exact r.counts_refl
  | succ n ih => exact Rbu.counts_trans (r.counts_step p) (ih _)

/-- A step keeps the invariant of RBU. -/
theorem Rbu.inv_step (p : Params) [p.Documented] (r : Rbu) (h : r.Inv p) : (r.step p).Inv p := by
  rcases r.step_effect p with ⟨hs, -⟩ | ⟨e, rest, a, seq, st, vs, -, -, hs, -, hid, hok, hd⟩ <;> rw [hs]
  · exact h
  · obtain ⟨h1, h2⟩ := hok h.state
    refine ⟨h2, fun hh => ?_, ?_⟩
    · rcases hd with ⟨h0, -⟩ | ⟨-, -, ht, -⟩
      · exact absurd h0 hh
      · simp [Rbu.after, ht, h.link hid]
    · intro e' he'; simp only [Rbu.after, List.mem_append, List.mem_singleton] at he'; rcases he' with he' | rfl
      · exact h.trace e' he'
      · exact h1

theorem Rbu.inv_run (p : Params) [p.Documented] (n : Nat) (r : Rbu) (h : r.Inv p) : (Rbu.run p n r).Inv p := by
  induction n generalizing r with
  | zero => exact h
  | succ n ih => exact ih _ (r.inv_step p h)

theorem bus_inv (i : Instr) (s t : State) [s.params.Documented] (hb : isBusCommand i = true) (h : exec i s = .next t)
    (hi : s.rbu.Inv s.params) : t.rbu.Inv s.params := by
  obtain ⟨hid, ht, ⟨-, h'⟩ | ⟨hl, h', -⟩⟩ := bus_next i s t hb h
  · rw [h']; exact ⟨by simp [hid, RbuState.ok], fun _ => rfl, hi.trace⟩
  · rw [h']
    by_cases hne : i = .rbReestablish
    · subst hne; exact Rbu.inv_run _ _ _ hi
    refine Rbu.inv_run _ _ _ ?_
    rcases start_effect i s.params s.cmdTimeout s.rbu hb hne with ⟨v, hs, -⟩ | ⟨n, st, hs, -, -, hok, -⟩ <;> rw [hs]
    · exact ⟨trivial, fun hh => absurd rfl hh, hi.trace⟩
    · exact ⟨hok, fun _ => hl, hi.trace⟩

end Sys2Proof.Machine
end

