-- ==== Sys2Proof/Laws/Outcomes.lean ====
section
/-! SUPPORT. Outcomes that arrive late (R16): a unit's turn looks at the first outcome alone, so one more outcome behind
the others changes no turn that the others decide. -/

namespace Sys2Proof.Machine

/-! ### The argument, once for ATU and BSU

`push` puts one more outcome behind the others, `turns` bounds the turns that can still come, and `good` holds of a unit
in the middle of a command or at rest. -/

section Late

variable {σ : Type} {step : σ → Res σ} {run : Nat → σ → Res σ} {push : σ → σ} {turns : σ → Nat} {good : σ → Prop}

theorem run_stuck (hrun0 : ∀ x, run 0 x = .next x) (hrun : ∀ n x, run (n + 1) x = andThen (step x) (run n)) (x : σ)
    (h : step x = .next x) (n : Nat) : run n x = .next x := by
  induction n with
  | zero => exact hrun0 x
  | succ n ih => rw [hrun, h]; exact ih

/-- From enough turns on, more turns make no difference. -/
theorem run_settles (hrun0 : ∀ x, run 0 x = .next x) (hrun : ∀ n x, run (n + 1) x = andThen (step x) (run n))
    (hstep : ∀ x, good x → ∃ x', step x = .next x' ∧ good x' ∧ (x' = x ∨ turns x' < turns x)) (x : σ) (hx : good x) :
    ∃ y, ∀ n, turns x ≤ n → run n x = .next y := by
  generalize hk : turns x = k
  induction k using Nat.strong_induction_on generalizing x with
  | _ k ih =>
    obtain ⟨x', h1, h2, rfl | hlt⟩ := hstep x hx
    · exact ⟨x', fun n _ => run_stuck hrun0 hrun x' h1 n⟩
    · obtain ⟨y, hy⟩ := ih (turns x') (by omega) x' h2 rfl
      refine ⟨y, fun n hn => ?_⟩
      obtain _ | m := n
      · omega
      · rw [hrun, h1]; exact hy m (by omega)

/-- One more outcome behind the others leads where it leads when it arrives after they were used. -/
theorem run_late (hrun0 : ∀ x, run 0 x = .next x) (hrun : ∀ n x, run (n + 1) x = andThen (step x) (run n))
    (hstep : ∀ x, good x → ∃ x', step x = .next x' ∧ good x' ∧ (x' = x ∨ turns x' < turns x))
    (hpush : ∀ x, good x → good (push x))
    (hlate : ∀ x x', good x → step x = .next x' → x' ≠ x → step (push x) = .next (push x')) (x : σ) (hx : good x) :
    ∃ y, (∀ n, turns x ≤ n → run n x = .next y) ∧
      ∀ m k, turns (push x) ≤ m → turns (push y) ≤ k → run m (push x) = run k (push y) := by
  generalize hk : turns x = k
  induction k using Nat.strong_induction_on generalizing x with
  | _ k ih =>
    obtain ⟨z, hz⟩ := run_settles hrun0 hrun hstep (push x) (hpush x hx)
    obtain ⟨x', h1, h2, h3⟩ := hstep x hx
    by_cases he : x' = x
    · subst he
      exact ⟨x', fun n _ => run_stuck hrun0 hrun x' h1 n, fun m k hm hk => by rw [hz m hm, hz k hk]⟩
    · have hlt : turns x' < turns x := h3.resolve_left he
      obtain ⟨y, hy, hl⟩ := ih (turns x') (by omega) x' h2 rfl
      refine ⟨y, fun n hn => ?_, fun m j hm hj => ?_⟩
      · obtain _ | i := n
        · omega
        · rw [hrun, h1]; exact hy i (by omega)
      · rw [hz m hm, ← hz (turns (push x) + turns (push x') + 1) (by omega), hrun, hlate x x' hx h1 he]
        exact hl _ j (by omega) hj

end Late

/-! ### RBU -/

/-- A step that changes nothing is where RBU stays. -/
theorem Rbu.run_stuck (p : Params) (r : Rbu) (h : r.step p = r) (n : Nat) : Rbu.run p n r = r := by
  induction n with
  | zero => rfl
  | succ n ih => rw [Rbu.run, h, ih]

/-! ### ATU -/

/-- ATU with one more outcome behind the others. -/
def Atu.push (o : AAnswer) (a : Atu) : Atu := { a with answers := a.answers ++ [o] }

theorem Atu.append_push (p : Params) (b : Bytes) (o : AAnswer) (a : Atu) :
    (a.push o).append p b = andThen (a.append p b) fun a' => .next (a'.push o) := by
  simp only [Atu.append, Atu.push]
  cases memWrite p.atrMax a.buf a.consumed b <;> rfl

theorem Atu.complete_push (o : AAnswer) (a : Atu) :
    (a.push o).complete = andThen a.complete fun a' => .next (a'.push o) := by
  obtain ⟨st, buf, con, k, tdx, nc, ans, tr, rs⟩ := a
  cases st <;> simp only [Atu.complete, Atu.push, andThen, Atu.deliver]
  cases memRead buf 0 con <;> rfl

/-- A receive whose first answer decides it does not look behind it. -/
theorem Atu.receive_push (n : Nat) (k : Bytes → Atu → Res Atu) (o : AAnswer) (a : Atu)
    (hk : ∀ b a, k b (a.push o) = andThen (k b a) fun a' => .next (a'.push o)) (h : a.receive n k ≠ .next a) :
    (a.push o).receive n k = andThen (a.receive n k) fun a' => .next (a'.push o) := by
  obtain ⟨st, buf, con, kk, tdx, nc, ans, tr, rs⟩ := a
  cases ans with
  | nil => exact absurd rfl h
  | cons x rest =>
    simp only [Atu.receive, Atu.push, List.cons_append] at h ⊢
    split
    · cases x
      · exact hk _ ⟨st, buf, con, kk, tdx, nc, rest, _, rs⟩
      · rfl
    · rename_i hal; rw [if_neg hal] at h; exact absurd rfl h

/-- A turn that changes something is the same turn with one more outcome behind the others. -/
theorem Atu.step_push (p : Params) (o : AAnswer) (a : Atu) (h : a.step p ≠ .next a) :
    (a.push o).step p = andThen (a.step p) fun a' => .next (a'.push o) := by
  have hst : (a.push o).state = a.state := rfl
  cases hs : a.state <;> simp only [Atu.step, hst, hs] at h ⊢
  · exact absurd rfl h
  · refine Atu.receive_push _ _ o a (fun b x => ?_) h
    rw [Atu.append_push]
    cases x.append p b with
    | next y => simp only [andThen]; split <;> rfl
    | fault f => rfl
    | refused f => rfl
  · unfold Atu.interfaceChain at h ⊢
    have hg : (a.push o).groupLen = a.groupLen := rfl
    have hr : (a.push o).room p = a.room p := rfl
    rw [hg, hr]
    split
    · rfl
    · rename_i h0
      split
      · rfl
      · rename_i h1
        rw [if_neg h0, if_neg h1] at h
        refine Atu.receive_push _ _ o a (fun b x => ?_) h
        rw [Atu.append_push]
        cases x.append p b with
        | next y => simp only [andThen, Atu.chain, Atu.push]; split <;> rfl
        | fault f => rfl
        | refused f => rfl
  · unfold Atu.historical at h ⊢
    have hg : (a.push o).k = a.k := rfl
    have hr : (a.push o).room p = a.room p := rfl
    rw [hg, hr]
    split
    · rfl
    · rename_i h0
      split
      · rfl
      · rename_i h1
        rw [if_neg h0, if_neg h1] at h
        refine Atu.receive_push _ _ o a (fun b x => ?_) h
        rw [Atu.append_push]
        cases x.append p b <;> rfl
  · unfold Atu.checkByte at h ⊢
    have hg : (a.push o).needsCheck = a.needsCheck := rfl
    have hr : (a.push o).room p = a.room p := rfl
    rw [hg, hr]
    split
    · rename_i h0
      split
      · rfl
      · rename_i h1
        rw [if_pos h0, if_neg h1] at h
        refine Atu.receive_push _ _ o a (fun b x => ?_) h
        rw [Atu.append_push]
        cases x.append p b with
        | next y => exact Atu.complete_push o { y with state := .done }
        | fault f => rfl
        | refused f => rfl
    · exact Atu.complete_push o { a with state := .done }
  · exact Atu.complete_push o a
  · exact Atu.complete_push o a

/-- ATU at rest or in the middle of a command. -/
def Atu.running (p : Params) (a : Atu) : Prop := a.state = .idle ∨ ∃ a0, Atu.Since p a0 a

theorem Atu.running_step {p : Params} [p.Documented] {a : Atu} (h : a.running p) :
    ∃ a', a.step p = .next a' ∧ a'.running p ∧ (a' = a ∨ a'.turns < a.turns) := by
  by_cases hid : a.state = .idle
  · exact ⟨a, by simp [Atu.step, hid], h, .inl rfl⟩
  · obtain ⟨a0, h⟩ := h.resolve_left hid
    obtain ⟨a', h1, h2, h3⟩ := Atu.since_step h hid
    exact ⟨a', h1, .inr ⟨a0, h2⟩, h3.imp And.left id⟩

theorem Atu.running_push {p : Params} (o : AAnswer) {a : Atu} (h : a.running p) : (a.push o).running p := by
  refine h.imp id fun ⟨a0, h⟩ => ⟨a0.push o, ?_⟩
  obtain ⟨us, hus⟩ := h.used
  exact ⟨h.state, h.bound, h.written, h.first, h.events, ⟨us, by simp [Atu.push, hus]⟩, h.results, h.keep, h.wf,
    h.within⟩

/-- R16 for ATU: an outcome that arrives after the others were used leads to the state it leads to when it was ready
beforehand. -/
theorem Atu.advance_push {p : Params} [p.Documented] (o : AAnswer) {a : Atu} (h : a.running p) :
    (a.push o).advance p = andThen (a.advance p) (Atu.receiveAnswer p o) := by
  obtain ⟨y, h1, h2⟩ := run_late (step := Atu.step p) (run := Atu.run p) (push := Atu.push o) (turns := Atu.turns)
    (good := Atu.running p) (fun _ => rfl) (fun _ _ => rfl) (fun _ => Atu.running_step) (fun _ => Atu.running_push o)
    (fun x x' _ hx hne => by
      rw [Atu.step_push p o x (by rw [hx]; simpa using hne), hx]; rfl) a h
  simp only [Atu.advance]
  rw [h1 _ (Atu.turns_le _)]
  exact h2 _ _ (Atu.turns_le _) (Atu.turns_le _)

/-! ### BSU -/

/-- BSU with one more outcome behind the others. -/
def Bsu.push (o : CAnswer) (b : Bsu) : Bsu := { b with answers := b.answers ++ [o] }

theorem Bsu.ctrlWrite_push (op : Byte) (data : Bytes) (k : Nat → Bsu → Bsu) (o : CAnswer) (b : Bsu)
    (hk : ∀ m b, k m (b.push o) = (k m b).push o) (h : b.ctrlWrite op data k ≠ b) :
    (b.push o).ctrlWrite op data k = (b.ctrlWrite op data k).push o := by
  obtain ⟨st, buf, len, rev, pad, idx, ok, t, ans, tr, rs⟩ := b
  rcases ans with _ | ⟨x, rest⟩
  · exact absurd rfl h
  · cases x with
    | write x =>
      cases x
      · exact hk _ ⟨st, buf, len, rev, pad, idx, ok, t, rest, _, rs⟩
      · rfl
      · rfl
    | read x => exact absurd rfl h

theorem Bsu.ctrlRead_push (op : Byte) (n : Nat) (k : Bytes → Bsu → Bsu) (o : CAnswer) (b : Bsu)
    (hk : ∀ m b, k m (b.push o) = (k m b).push o) (h : b.ctrlRead op n k ≠ b) :
    (b.push o).ctrlRead op n k = (b.ctrlRead op n k).push o := by
  obtain ⟨st, buf, len, rev, pad, idx, ok, t, ans, tr, rs⟩ := b
  rcases ans with _ | ⟨x, rest⟩
  · exact absurd rfl h
  · cases x with
    | write x => exact absurd rfl h
    | read x =>
      simp only [Bsu.ctrlRead, Bsu.push, List.cons_append] at h ⊢
      split
      · cases x
        · exact hk _ ⟨st, buf, len, rev, pad, idx, ok, t, rest, _, rs⟩
        · rfl
        · rfl
      · rename_i hal; rw [if_neg hal] at h; exact absurd rfl h

/-- A step that changes something is the same step with one more outcome behind the others. -/
theorem Bsu.step_push (p : Params) (o : CAnswer) (b : Bsu) (h : b.step p ≠ .next b) :
    (b.push o).step p = andThen (b.step p) fun b' => .next (b'.push o) := by
  have hst : (b.push o).state = b.state := rfl
  cases hs : b.state <;> simp only [Bsu.step, hst, hs] at h ⊢
  · exact absurd rfl h
  · have h1 : memRead (b.push o).buf 0 (b.push o).len = memRead b.buf 0 b.len := rfl
    simp only [Bsu.detect, h1]
    cases memRead b.buf 0 b.len with
    | next bytes =>
      simp only [andThen]
      split
      · rfl
      · split
        · have h2 : (b.push o).buf = b.buf := rfl
          rw [h2]
          cases memWrite (bsuCapacity p) b.buf 0 (bytes.map bitrev8) <;> rfl
        · rfl
    | fault f => rfl
    | refused f => rfl
  · have h1 : (b.push o).len = b.len := rfl
    have h2 : (b.push o).buf = b.buf := rfl
    simp only [Bsu.padStep, h1, h2]
    split
    · cases memWrite (bsuCapacity p) b.buf b.len [0x00] <;> rfl
    · rfl
  · have := Bsu.ctrlWrite_push (controlByte .reset p.resetOp) [] (fun _ b => { b with state := .sendChunk }) o b
      (fun _ _ => rfl) (fun hh => h (congrArg Host.Outcome.next hh))
    exact congrArg Host.Outcome.next this
  · have h1 : (b.push o).len = b.len := rfl
    have h2 : (b.push o).buf = b.buf := rfl
    have h3 : (b.push o).chunkIdx = b.chunkIdx := rfl
    simp only [Bsu.sendChunk, h1, h2, h3] at h ⊢
    split
    · rename_i hlt
      rw [if_pos hlt] at h
      cases hc : memRead b.buf (b.chunkIdx * p.chunk) (chunkLen p b.len b.chunkIdx) with
      | next c =>
        rw [hc] at h
        refine congrArg Host.Outcome.next (Bsu.ctrlWrite_push _ c _ o b (fun m b => ?_)
          (fun hh => h (congrArg Host.Outcome.next hh)))
        by_cases hm : m = c.length
        · simp only [hm, if_true, Bsu.nextChunk, Bsu.push]
          by_cases hl : b.chunkIdx + 1 < chunkCount p b.len <;> simp only [hl, if_true, if_false]
        · simp only [hm, if_false]; rfl
      | fault f => rfl
      | refused f => rfl
    · rfl
  · refine congrArg Host.Outcome.next (Bsu.ctrlRead_push _ _ _ o b (fun m b => ?_)
      (fun hh => h (congrArg Host.Outcome.next hh)))
    cases m with
    | nil => rfl
    | cons c m => dsimp only; split <;> rfl
  · have : (b.push o).complete = b.complete.push o := by simp only [Bsu.complete, hst, hs]; rfl
    rw [this]; rfl
  · have : (b.push o).complete = b.complete.push o := by simp only [Bsu.complete, hst, hs]; rfl
    rw [this]; rfl

/-- BSU at rest or in the middle of an upload. -/
def Bsu.running (p : Params) (b : Bsu) : Prop := b.state = .idle ∨ ∃ b0, Bsu.Since p b0 b

theorem Bsu.running_step {p : Params} [p.Documented] {b : Bsu} (h : b.running p) :
    ∃ b', b.step p = .next b' ∧ b'.running p ∧ (b' = b ∨ b'.turns < b.turns) := by
  by_cases hid : b.state = .idle
  · exact ⟨b, by simp [Bsu.step, hid], h, .inl rfl⟩
  · obtain ⟨b0, h⟩ := h.resolve_left hid
    obtain ⟨b', h1, h2, h3⟩ := Bsu.since_step h hid
    exact ⟨b', h1, .inr ⟨b0, h2⟩, h3.imp And.left And.left⟩

theorem Bsu.running_push {p : Params} (o : CAnswer) {b : Bsu} (h : b.running p) : (b.push o).running p := by
  refine h.imp id fun ⟨b0, h⟩ => ⟨b0.push o, ?_⟩
  obtain ⟨us, hus⟩ := h.used
  exact ⟨h.state, h.bound, h.written, h.events, h.channel, ⟨us, by simp [Bsu.push, hus]⟩, h.results, h.wf, h.within⟩

/-- R16 for BSU: an outcome that arrives after the others were used leads to the state it leads to when it was ready
beforehand. -/
theorem Bsu.advance_push {p : Params} [p.Documented] (o : CAnswer) {b : Bsu} (h : b.running p) :
    (b.push o).advance p = andThen (b.advance p) (Bsu.receiveAnswer p o) := by
  obtain ⟨y, h1, h2⟩ := run_late (step := Bsu.step p) (run := Bsu.run p) (push := Bsu.push o) (turns := Bsu.turns)
    (good := Bsu.running p) (fun _ => rfl) (fun _ _ => rfl) (fun _ => Bsu.running_step) (fun _ => Bsu.running_push o)
    (fun x x' _ hx hne => by
      rw [Bsu.step_push p o x (by rw [hx]; simpa using hne), hx]; rfl) b h
  simp only [Bsu.advance]
  rw [h1 _ (Bsu.turns_le _)]
  exact h2 _ _ (Bsu.turns_le _) (Bsu.turns_le _)

end Sys2Proof.Machine
end

