-- ==== Sys2Proof/Laws/PerInstr.lean ====
section
/-! SUPPORT. A fact about every instruction as syntax, one lemma per constructor. -/

namespace Sys2Proof.Laws.CodeShape

open Sys2Proof.Machine

/-- An instruction on a command port has a frame with an opcode byte at offset 1 or no code at all; the BSU's own control
commands, and they alone, are written as one of the six control opcodes (R59, R72, R79). -/
def Statement (i : Instr) : Prop :=
  ∀ p : Params,
  match encode p i with
  | some (.frame b) => isHostCommand i = true ∧ 2 ≤ b.length
  | some (.control op) => isHostCommand i = false ∧ (controlOf op).isSome = true
  | none => isHostCommand i = true

theorem write (seq : Byte) (addr : Nat) (value : Word) : Statement (.write seq addr value) := fun _ => by
  simp [encode, isHostCommand, frameWrite]

theorem read (seq : Byte) (addr : Nat) : Statement (.read seq addr) := fun _ => by
  simp [encode, isHostCommand, frameRead]

theorem streamWrite (seq : Byte) (addr : Nat) (data : Bytes) : Statement (.streamWrite seq addr data) := fun _ => by
  simp [encode, isHostCommand, frameStreamWrite]

theorem streamRead (seq : Byte) (addr length : Nat) : Statement (.streamRead seq addr length) := fun _ => by
  simp [encode, isHostCommand, frameStreamRead]

theorem flush (seq : Byte) : Statement (.flush seq) := fun _ => by
  simp [encode, isHostCommand, frameFlush]

theorem ctrlReset : Statement .ctrlReset := fun _ => ⟨rfl, by decide⟩

theorem ctrlResetAlt : Statement .ctrlResetAlt := fun _ => ⟨rfl, by decide⟩

theorem ctrlSendChunk : Statement .ctrlSendChunk := fun _ => ⟨rfl, by decide⟩

theorem ctrlSendChunkAlt : Statement .ctrlSendChunkAlt := fun _ => ⟨rfl, by decide⟩

theorem ctrlStatus : Statement .ctrlStatus := fun _ => ⟨rfl, by decide⟩

theorem ctrlStatusAlt : Statement .ctrlStatusAlt := fun _ => ⟨rfl, by decide⟩

theorem rbWriteBatch (pairs : List (Nat × Word)) : Statement (.rbWriteBatch pairs) := fun _ => rfl

theorem rbRmw (addr : Nat) (mask value : Word) : Statement (.rbRmw addr mask value) := fun _ => rfl

theorem rbPoll (addr : Nat) (mask expected : Word) : Statement (.rbPoll addr mask expected) := fun _ => rfl

theorem rbReestablish : Statement .rbReestablish := fun _ => rfl

theorem atrReceive : Statement .atrReceive := fun _ => rfl

theorem bsProvision (image : Bytes) : Statement (.bsProvision image) := fun _ => rfl

theorem bsReestablish : Statement .bsReestablish := fun _ => rfl

end Sys2Proof.Laws.CodeShape
end

