-- ==== Sys2Proof/Laws/Step.lean ====
section
/-! SUPPORT. One step of the block, by its input. -/

namespace Sys2Proof.Machine

/-- What the marking of refusals can give. -/
theorem markRefused_inv {s t : State} {o : Res State} (h : markRefused s o = .next t) :
    o = .next t ∨ ∃ w, o = .refused (.turnedAway w) ∧ t = { s with refused := s.refused ++ [w] } := by
  unfold markRefused at h; split at h <;> cases h
  · exact .inr ⟨_, rfl, rfl⟩
  · exact .inl rfl

/-- Everything one step can do, by its input. -/
theorem step_inv (s t : State) (h : step s = .next t) :
    (s.inputs = [] ∧ t = s) ∨
    (∃ x rest, s.inputs = x :: rest ∧
      ((∃ c tm, x = .command c tm ∧
         ((∃ i, exec i { s with inputs := rest, cmdTimeout := tm } = .next t) ∨ (∃ w,
             t = { s with inputs := rest, refused := s.refused ++ [w] }))) ∨
       (x = .control ∧ ((t = { s with inputs := rest }) ∨ ∃ i, exec i { s with inputs := rest } = .next t)) ∨
       (∃ o, x = .answerT o ∧ t = { s with inputs := rest, rbu := s.rbu.receiveAnswer s.params o }) ∨
       (∃ o a, x = .answerA o ∧ s.atu.receiveAnswer s.params o = .next a ∧ t = { s with inputs := rest, atu := a }) ∨
       (∃ o b, x = .answerC o ∧ s.bsu.receiveAnswer s.params o = .next b ∧ t = { s with inputs := rest, bsu := b }) ∨
       (x = .reset ∧ t = State.resetRegs { s with inputs := rest }))) := by
  unfold step at h
  split at h
  · rename_i hi; cases h; exact .inl ⟨hi, rfl⟩
  · rename_i x rest hi
    refine .inr ⟨x, rest, hi, ?_⟩
    cases x with
    | command c tm =>
      refine .inl ⟨c, tm, rfl, ?_⟩
      simp only [State.take, State.issue] at h
      rcases markRefused_inv h with h | ⟨w, -, rfl⟩
      · obtain ⟨i, -, h⟩ := andThen_eq_next h; exact .inl ⟨i, h⟩
      · exact .inr ⟨w, rfl⟩
    | control =>
      refine .inr (.inl ⟨rfl, ?_⟩)
      simp only [State.take, State.takeControl] at h
      split at h
      · cases h; exact .inl rfl
      · split at h
        · exact .inr ⟨_, h⟩
        · cases h
    | answerT o => cases h; exact .inr (.inr (.inl ⟨o, rfl, rfl⟩))
    | answerA o => obtain ⟨a, h1, h2⟩ := andThen_eq_next h; cases h2; exact .inr (.inr (.inr (.inl ⟨o, a, rfl, h1,
        rfl⟩)))
    | answerC o => obtain ⟨a, h1, h2⟩ := andThen_eq_next h; cases h2; exact .inr (.inr (.inr (.inr (.inl ⟨o, a, rfl,
        h1, rfl⟩))))
    | reset => cases h; exact .inr (.inr (.inr (.inr (.inr ⟨rfl, rfl⟩))))

/-- The invariant does not look at the inputs, the command port's timeout or the marks. -/
theorem inv_congr {s : State} (h : s.Inv) (rest : List Input) (t : Timeout) (rf : List TurnedAway) :
    State.Inv { s with inputs := rest, cmdTimeout := t, refused := rf } :=
  ⟨h.params, h.rbu, h.atu, h.bsu⟩

/-- Whatever an instruction does, SEQ counts the frames built (R91). -/
theorem exec_counts (i : Instr) (s t : State) [s.params.Documented] (h : exec i s = .next t) :
    s.rbu.counts s.params t.rbu := by
  by_cases hb : isBusCommand i = true
  · obtain ⟨hid, ht, ⟨-, h'⟩ | ⟨-, h', -⟩⟩ := bus_next i s t hb h
    · rw [h']; exact ⟨0, rfl, by simp⟩
    · rw [h']
      by_cases hi : i = .rbReestablish
      · subst hi; exact Rbu.counts_run _ _ _
      refine Rbu.counts_trans ?_ (Rbu.counts_run _ _ _)
      rcases start_effect i s.params s.cmdTimeout s.rbu hb hi with ⟨v, hs, -⟩ | ⟨n, st, hs, -, hn, -⟩ <;> rw [hs]
      · exact ⟨0, by simp [Rbu.framesBuilt, hid], by simp⟩
      · exact ⟨n, by simp only [Rbu.framesBuilt, hid, hn]; rfl, by simp⟩
  · have : t.rbu = s.rbu := by
      by_cases ha : i = .atrReceive
      · subst ha
        obtain ⟨-, ht, -⟩ := atr_next s t h; rw [ht]
      · by_cases hc : isControl i = true
        · obtain ⟨k, v, rfl, ht, -⟩ := control_next i s t hc h; rw [ht]
        · cases i <;> simp only [isBusCommand, isControl, not_true_eq_false] at hb hc <;> try (exact absurd rfl ha)
          · rw [(provision_inv _ s t h).2]
          · rw [(bsReestablish_inv s t h).2]
    rw [this]; exact Rbu.counts_refl _

end Sys2Proof.Machine
end

