-- ==== Sys2Proof/Laws/Poll.lean ====
section
/-! SUPPORT. An RB_POLL in progress (R100, R168): what RBU, one step of the block and one step of a run can do to it. -/

namespace Sys2Proof.Machine

/-! ### RBU -/

/-- Between two moments of an RB_POLL: it goes on with no result and no expiry, or it ended with one result that fits the
expiry. -/
def Rbu.PollSince (r r' : Rbu) : Prop :=
  ∃ es, r'.trace = r.trace ++ es ∧
    ((r'.state.polling = true ∧ es.any (TEvent.ticks .expired) = false ∧ r'.results = r.results) ∨
     (r'.state = .idle ∧ ∃ v, r'.results = r.results ++ [v] ∧ pollEnding (es.any (TEvent.ticks .expired)) v))

theorem Rbu.pollSince_refl {r : Rbu} (h : r.state.polling = true) : r.PollSince r :=
  ⟨[], by simp, .inl ⟨h, rfl, rfl⟩⟩

theorem Rbu.PollSince.raise {e : TEvent} (he : e.ticks .expired = false) {c : Subcause}
    (hc : c ∈ causes (.rbPoll 0 0 0)) (r r' : Rbu) (hr : r'.trace = r.trace ++ [e] ∧ r'.results = r.results) :
    r.PollSince (r'.raise c) :=
  ⟨[e], by simp [hr.1], .inr ⟨rfl, .err c, by simp [hr.2], by simp [pollEnding, he]; exact hc⟩⟩

/-- An error of the read half of an RB_POLL is one it may raise (R88, R90, R105). -/
theorem decReadReply_error {p : Params} {req reply : Bytes} {c : Subcause} (h : decReadReply p req reply = .error c) :
    c ∈ causes (.rbPoll 0 0 0) := by
  unfold decReadReply decStreamReadReply at h
  split at h
  · rename_i h'
    split at h' <;> cases h'
    cases h
    simp [causes]
  · split at h
    · unfold decReadResponse at h
      split at h <;> cases h
      simp [causes]
    · cases h; simp [causes]

/-- The reply of an RB_POLL's read: an error, a match, or the next Tick (R100). -/
theorem Rbu.pollSince_reply (p : Params) (x : Xfer) (b : Bytes) (hx : x.after.isPoll = true) {e : TEvent}
    (he : e.ticks .expired = false) (rest : List TAnswer) (r : Rbu) : r.PollSince ((r.event e rest).onReply p x b) := by
  obtain ⟨req, n, t, af⟩ := x
  obtain _ | _ | _ | _ | _ | _ | ⟨addr, mask, expected⟩ := af <;> try cases hx
  simp only [Rbu.onReply]
  split
  · rename_i h
    exact .raise he (decReadReply_error h) r _ ⟨rfl, rfl⟩
  · split
    · exact ⟨[e], rfl, .inr ⟨rfl, _, rfl, by simp [pollEnding, he]⟩⟩
    · exact ⟨[e], rfl, .inl ⟨rfl, by simp [he], rfl⟩⟩

/-- Everything a step of RBU can do to an RB_POLL in progress. -/
theorem Rbu.pollSince_step (p : Params) {r : Rbu} (h : r.state.polling = true) : r.PollSince (r.step p) := by
  rcases r.step_cases p with ⟨h', -⟩ | ⟨e, rest, -, -, -, h'⟩
  · rw [h']; exact Rbu.pollSince_refl h
  rcases h' with ⟨x, o, hs, rfl, h'⟩ | ⟨x, o, hs, rfl, -, h'⟩ | ⟨addr, m, v, t, o, hs, rfl, h'⟩ <;> rw [← h'] <;>
    rw [hs] at h
  · cases o <;> simp only [Rbu.onSend]
    · split
      · exact Rbu.pollSince_reply p x [] h rfl rest r
      · exact ⟨[_], rfl, .inl ⟨h, rfl, rfl⟩⟩
    · exact .raise (e := .send x.req x.t .timeout) rfl (by simp [causes]) r _ ⟨rfl, rfl⟩
    · exact .raise (e := .send x.req x.t .transferError) rfl (by simp [causes]) r _ ⟨rfl, rfl⟩
  · cases o <;> simp only [Rbu.onRecv]
    · exact Rbu.pollSince_reply p x _ h rfl rest r
    · exact .raise (e := .recv x.n x.t (.short _)) rfl (by simp [causes]) r _ ⟨rfl, rfl⟩
    · exact .raise (e := .recv x.n x.t .timeout) rfl (by simp [causes]) r _ ⟨rfl, rfl⟩
    · exact .raise (e := .recv x.n x.t .transferError) rfl (by simp [causes]) r _ ⟨rfl, rfl⟩
  · cases o <;> simp only [Rbu.onTick]
    · unfold Rbu.startRead
      split
      · rename_i c hc
        refine .raise (e := .tick t .continue) rfl ?_ r _ ⟨rfl, rfl⟩
        unfold encRead at hc
        split at hc <;> cases hc
        simp [causes]
      · exact ⟨[_], rfl, .inl ⟨rfl, rfl, rfl⟩⟩
    · exact ⟨[_], rfl, .inr ⟨rfl, _, rfl, rfl⟩⟩

/-- Everything RBU can do to an RB_POLL in progress with the outcomes it has. -/
theorem Rbu.pollSince_run (p : Params) (n : Nat) {r : Rbu} (h : r.state.polling = true) :
    r.PollSince (Rbu.run p n r) := by
  induction n generalizing r with
  | zero => exact Rbu.pollSince_refl h
  | succ n ih =>
    obtain ⟨es, ht, ⟨hp, he, hr⟩ | ⟨hi, v, hv⟩⟩ := Rbu.pollSince_step p h
    · obtain ⟨fs, ht', h'⟩ := ih hp
      refine ⟨es ++ fs, by rw [Rbu.run, ht', ht, List.append_assoc], ?_⟩
      rw [Rbu.run, List.any_append, he, Bool.false_or, ← hr]
      exact h'
    · rw [Rbu.run, Rbu.run_idle p n _ hi]
      exact ⟨es, ht, .inr ⟨hi, v, hv⟩⟩

/-! ### The block -/

/-- A unit in progress keeps its command: no instruction changes a busy RBU (R22). -/
theorem exec_busy {i : Instr} {s t : State} (h : exec i s = .next t) (hb : s.rbu.state ≠ .idle) : t.rbu = s.rbu := by
  by_cases hbus : isBusCommand i = true
  · by_cases hi : i = .rbReestablish
    · subst hi
      simp only [exec, execRbReestablish] at h
      split at h
      · cases h
      · rename_i hs; exact absurd hs hb
    · rw [exec_bus i s hbus hi] at h
      obtain ⟨r, h1, -⟩ := andThen_eq_next h
      unfold Rbu.accept at h1
      split at h1
      · cases h1
      · rename_i hs; exact absurd hs hb
  · by_cases hc : isControl i = true
    · obtain ⟨k, v, -, ht, -⟩ := control_next i s t hc h; rw [ht]
    · cases i <;> simp only [isBusCommand, isControl, not_true_eq_false] at hbus hc
      · simp only [exec, execAtrReceive] at h
        split at h
        · obtain ⟨a, -, h2⟩ := andThen_eq_next h; cases h2; rfl
        · cases h
      · rw [(provision_inv _ s t h).2]
      · rw [(bsReestablish_inv s t h).2]

/-- Everything one step of the block can do to an RB_POLL in progress: abandon it at a reset event, or what RBU does with
an outcome. -/
theorem step_pollSince {s t : State} (h : step s = .next t) (hp : s.rbu.state.polling = true) :
    ((∃ rest, s.inputs = .reset :: rest) ∧ t.rbu = s.rbu.resetRegs s.params) ∨ s.rbu.PollSince t.rbu := by
  have hb : s.rbu.state ≠ .idle := fun hh => by rw [hh] at hp; cases hp
  have hrefl : ∀ {r : Rbu}, r = s.rbu → s.rbu.PollSince r := fun h => by rw [h]; exact Rbu.pollSince_refl hp
  rcases step_inv s t h with ⟨-, rfl⟩ | ⟨x, rest, hi, ⟨c, tm, -, ⟨i, hx⟩ | ⟨w, rfl⟩⟩ | ⟨-, rfl | ⟨i, hx⟩⟩ |
    ⟨o, -, rfl⟩ | ⟨o, a, -, -, rfl⟩ | ⟨o, a, -, -, rfl⟩ | ⟨rfl, rfl⟩⟩
  · exact .inr (hrefl rfl)
  · exact .inr (hrefl (by rw [exec_busy hx hb]))
  · exact .inr (hrefl rfl)
  · exact .inr (hrefl rfl)
  · exact .inr (hrefl (by rw [exec_busy hx hb]))
  · exact .inr (Rbu.pollSince_run s.params _ (r := { s.rbu with answers := s.rbu.answers ++ [o] }) hp)
  · exact .inr (hrefl rfl)
  · exact .inr (hrefl rfl)
  · exact .inl ⟨⟨rest, hi⟩, rfl⟩

/-! ### Runs -/

@[simp] theorem State.arrive_params (x : Input) (s : State) : (s.arrive x).params = s.params := rfl
@[simp] theorem State.arrive_rbu (x : Input) (s : State) : (s.arrive x).rbu = s.rbu := rfl
@[simp] theorem State.arrive_atu (x : Input) (s : State) : (s.arrive x).atu = s.atu := rfl
@[simp] theorem State.arrive_bsu (x : Input) (s : State) : (s.arrive x).bsu = s.bsu := rfl
@[simp] theorem State.arrive_cmdTimeout (x : Input) (s : State) : (s.arrive x).cmdTimeout = s.cmdTimeout := rfl
@[simp] theorem State.arrive_inputs (x : Input) (s : State) : (s.arrive x).inputs = s.inputs ++ [x] := rfl
@[simp] theorem State.arrive_refused (x : Input) (s : State) : (s.arrive x).refused = s.refused := rfl

/-- A run in which an RB_POLL is in progress: a moment later it is still in progress with no expiry and no result, or
it was abandoned at a reset event, or it ended. -/
theorem Environment.drives_poll {env : Environment} {run : Nat → State} (h : env.drives run) (n : Nat)
    (hp : (run n).rbu.state.polling = true) :
    ((∃ rest, ((run n).arrive (env n)).inputs = .reset :: rest) ∧
      (run (n + 1)).rbu = (run n).rbu.resetRegs (run n).params) ∨ (run n).rbu.PollSince (run (n + 1)).rbu :=
  step_pollSince (h n) hp

end Sys2Proof.Machine
end

