-- ==== Sys2Proof/Tests/Slice0.lean ====
section
/-! SUPPORT. Tests, with expected results from spec/95_test_vectors.md and the opcode table's encodings, and a witness for
the hypotheses of each statement. -/

namespace Sys2Proof.Tests

open Sys2Proof Sys2Proof.Machine

/-! ### The tests' parameters -/

/-- Concrete parameters: the vectors' own, with MAX_IMAGE = 6 (FLUSH_RESP_LEN and MAX_IMAGE are opaque at reset). -/
def params : Params := { Params.defaults with flushRespLen := 0, maxImage := 6 }

/-- They keep the values the document gives (R4). -/
theorem params_documented : params.Documented := by constructor <;> rfl

/-! ### Well-formedness: one ill-formed term for each check (R71, X2) -/

theorem test_wf_write_address :
    (Instr.write 0 0x10000 0).wf params = false ∧ (Instr.write 0 0xFFFF 0).wf params = true := by decide

theorem test_wf_read_address : (Instr.read 0 0x10000).wf params = false ∧ (Instr.read 0 0xFFFF).wf params = true := by decide

theorem test_wf_streamWrite_address : (Instr.streamWrite 0 0x10000 []).wf params = false := by decide

theorem test_wf_streamWrite_length (b : Bytes) (h : b.length = 0x10000) :
    (Instr.streamWrite 0 0 b).wf params = false := by simp [Instr.wf, addrFits, lenFits, params, Params.defaults, h]

theorem test_wf_streamRead_address : (Instr.streamRead 0 0x10000 0).wf params = false := by decide

theorem test_wf_streamRead_length :
    (Instr.streamRead 0 0 0x10000).wf params = false ∧ (Instr.streamRead 0 0 0xFFFF).wf params = true := by decide

/-! ### Decoding: words written out bit by bit from spec/opcode_table.json's encodings and table X10 -/

theorem test_decode_write :
    decode params (.frame [0b00000001, 0b00000001, 0b00110100, 0b00010010, 0b11101111, 0b10111110, 0b10101101, 0b11011110]) =
      .ok (.write 0x01 0x1234 0xDEADBEEF) := by decide

theorem test_decode_read :
    decode params (.frame [0b00000000, 0b00000010, 0b00110100, 0b00010010]) = .ok (.read 0x00 0x1234) := by decide

theorem test_decode_streamWrite :
    decode params (.frame [0b00000010, 0b00000011, 0b00010000, 0b00000000, 0b00000011, 0b00000000, 0xAA, 0xBB, 0xCC]) =
      .ok (.streamWrite 0x02 0x0010 [0xAA, 0xBB, 0xCC]) := by decide

theorem test_decode_streamRead :
    decode params (.frame [0b00000011, 0b00000100, 0b00100000, 0b00000000, 0b00000000, 0b00000001]) =
      .ok (.streamRead 0x03 0x0020 0x0100) := by decide

theorem test_decode_flush : decode params (.frame [0b00000100, 0b11111111]) = .ok (.flush 0x04) := by decide

theorem test_decode_ctrlReset : decode params (.control 0b00110001) = .ok .ctrlReset := by decide

theorem test_decode_ctrlResetAlt : decode params (.control 0b01100000) = .ok .ctrlResetAlt := by decide

theorem test_decode_ctrlSendChunk : decode params (.control 0b00110010) = .ok .ctrlSendChunk := by decide

theorem test_decode_ctrlSendChunkAlt : decode params (.control 0b00110100) = .ok .ctrlSendChunkAlt := by decide

theorem test_decode_ctrlStatus : decode params (.control 0b00110000) = .ok .ctrlStatus := by decide

theorem test_decode_ctrlStatusAlt : decode params (.control 0b00110011) = .ok .ctrlStatusAlt := by decide

/-- R70: the neighbours of the five opcodes are refused. -/
theorem test_decode_reserved_opcodes :
    decode params (.frame [0x00, 0x00]) = .error (.noSuchOpcode 0x00) ∧
    decode params (.frame [0x00, 0x05]) = .error (.noSuchOpcode 0x05) ∧
    decode params (.frame [0x00, 0xFE]) = .error (.noSuchOpcode 0xFE) ∧
    decode params (.control 0x35) = .error (.noSuchControl 0x35) := by
  decide

/-- R67: a frame that ends early, and one followed by another byte. -/
theorem test_decode_lengths :
    decode params (.frame [0x00, 0x02, 0x34]) = .error .tooShort ∧
    decode params (.frame [0x00, 0x03, 0x10, 0x00, 0x03, 0x00, 0xAA, 0xBB]) = .error .tooShort ∧
    decode params (.frame [0x04, 0xFF, 0x00]) = .error .trailingBytes ∧ decode params (.frame [0x04]) = .error .tooShort := by decide

/-- Words in the table's own numbering, byte 0 in the highest bits (98_reader.md; log 6). -/
theorem test_decode_table_words :
    decodeTableWord 64 0x01013412EFBEADDE = some (.write 0x01 0x1234 0xDEADBEEF) ∧
    decodeTableWord 32 0x00023412 = some (.read 0x00 0x1234) ∧
    decodeTableWord 48 0x020310000300 = some (.streamWrite 0x02 0x0010 [0x00, 0x00, 0x00]) ∧
    decodeTableWord 48 0x030420000001 = some (.streamRead 0x03 0x0020 0x0100) ∧
    decodeTableWord 16 0x04FF = some (.flush 0x04) ∧ decodeTableWord 8 0x31 = some .ctrlReset ∧
    decodeTableWord 8 0x60 = some .ctrlResetAlt ∧ decodeTableWord 8 0x32 = some .ctrlSendChunk ∧
    decodeTableWord 8 0x34 = some .ctrlSendChunkAlt ∧ decodeTableWord 8 0x30 = some .ctrlStatus ∧
    decodeTableWord 8 0x33 = some .ctrlStatusAlt ∧ decodeTableWord 8 0x35 = none ∧ decodeTableWord 16 0x0005 = none := by
  decide

/-! ### The codec and the small functions (vectors F1 to F21, the bitrev8 table) -/

theorem test_encoders :
    encRead params 0x05 0xFFFE = .ok [0x05, 0x02, 0xFE, 0xFF] ∧ encRead params 0x05 0xFFFF = .error .ipAddr ∧
    encWrite params 0x10 0xABCD 0xFFFFFFFF = .ok [0x10, 0x01, 0xCD, 0xAB, 0xFF, 0xFF, 0xFF, 0xFF] ∧
    encStreamWrite params 0x07 0x0030 [] = .ok [0x07, 0x03, 0x30, 0x00, 0x00, 0x00] ∧
    encStreamRead params 0x08 0x0040 0xFFFF = .ok [0x08, 0x04, 0x40, 0x00, 0xFF, 0xFF] ∧
    encStreamRead params 0x08 0x0040 0x10000 = .error .ipLen ∧ encStreamRead params 0x08 0xFFFF 0x10000 = .error .ipAddr ∧
    encFlush params 0xFF = [0xFF, 0xFF] := by decide

theorem test_decoders :
    decReadResponse [0x78, 0x56, 0x34, 0x12] = .ok 0x12345678 ∧ decReadResponse [0x01, 0x00, 0x00, 0x80] = .ok 0x80000001 ∧
    decReadResponse [0x00, 0x02, 0x78, 0x56, 0x34, 0x12] = .error .peLen ∧ decWriteAck params [0xFF, 0xFF] = .ok () ∧
    decWriteAck params [0x00] = .error .peLen ∧ decStreamReadReply params [0x03, 0x04] 0 = .ok ([0x03, 0x04], []) ∧
    decStreamReadReply params [0x03, 0x04, 0xDE] 2 = .error .peLen := by decide

theorem test_bitrev8 :
    [0x00, 0x01, 0x12, 0x3C, 0x55, 0x66, 0x80, 0x99, 0xAA, 0xC5, 0xF0, 0xFF].map bitrev8 =
      [0x00, 0x80, 0x48, 0x3C, 0xAA, 0x66, 0x01, 0x99, 0x55, 0xA3, 0x0F, 0xFF] := by decide

/-- R4: the constants are read from the parameters. SEQ wraps at 2^SEQ_BITS; ADDR_LIMIT and STREAM_LEN_MAX bound the
arguments; the opcode bytes, ATR_TS and CHUNK are the parameters' own. -/
theorem test_constants_are_parameters :
    (seqAfter params 0x0F 1 = 0x10 ∧ seqAfter { params with seqBits := 4 } 0x0F 1 = 0x00) ∧
    (encRead { params with addrLimit := 0x100 } 0 0x00FF = .ok [0x00, 0x02, 0xFF, 0x00] ∧
      encRead { params with addrLimit := 0x100 } 0 0x0100 = .error .ipAddr) ∧
    encStreamRead { params with streamLenMax := 4 } 0 0 5 = .error .ipLen ∧
    decode { params with opFlush := 0x05 } (.frame [0x04, 0x05]) = .ok (.flush 0x04) ∧
    decode { params with opFlush := 0x05 } (.frame [0x04, 0xFF]) = .error (.noSuchOpcode 0xFF) ∧
    (chunkCount params 2049, chunkCount { params with chunk := 4096 } 2049) = (2, 1) := by decide

/-! ### Small states -/

/-- The block after reset, with those parameters. -/
def base : State := State.resetWith params

/-- RBU with a SEQ and outcomes ready. -/
def busWith (seq : Byte) (as : List TAnswer) : State := { base with rbu := { base.rbu with seq := seq, answers := as } }

/-- An RBU that is in the middle of an RB_POLL. -/
def busBusy : State := { base with rbu := { base.rbu with state := .busy (.tick 0x10 1 1 7) } }

/-- ATU with bytes ready on port A, one outcome per request. -/
def atrWith (as : List Bytes) : State := { base with atu := { base.atu with answers := as.map AAnswer.bytes } }

/-- BSU in a sequencing state, with outcomes ready on port C. -/
def uploadAt (st : BsuState) (as : List CAnswer) : State :=
  { base with bsu := { base.bsu with state := st, answers := as } }

/-- BSU with the three bytes `01 02 03` to send in one chunk. -/
def chunkReady (as : List CAnswer) : State :=
  { base with bsu := { base.bsu with state := .sendChunk, answers := as, buf := Memory.ofBytes 0 [1, 2, 3], len := 3 } }

/-- SEQ, LINK_OK, the port events and the results after an outcome that is a next state. -/
def busView : Res State → Option (Byte × Bool × List TEvent × List Result)
  | .next s => some (s.rbu.seq, s.rbu.linkOk, s.rbu.trace, s.rbu.results)
  | _ => none

/-- ATR_CONSUMED, ATR_TDX, ATR_NEEDS_CHECK, the lengths asked for and the results. -/
def atrView : Res State → Option (Nat × Byte × Bool × List Nat × List Result)
  | .next s =>
    some (s.atu.consumed, s.atu.tdx, s.atu.needsCheck, s.atu.trace.map fun e => e.n, s.atu.results)
  | _ => none

/-- BSU_STATE, BSU_CHUNK_IDX, CTRL_OK, the opcodes of the port events and the results. -/
def uploadView : Res State → Option (BsuState × Nat × Bool × List Byte × List Result)
  | .next s =>
    some (s.bsu.state, s.bsu.chunkIdx, s.bsu.ctrlOk,
      s.bsu.trace.map (fun e => match e with | .write op _ _ _ _ _ => op | .read op _ _ _ _ _ => op), s.bsu.results)
  | _ => none

/-! ### The register bus (vectors B1 to B30, programs P1 to P4) -/

theorem test_read_b2_wraps_seq :
    busView (exec (.read 0x55 0x0004) (busWith 0xFF [.send .sent, .recv (.bytes [0x0A, 0x0B, 0x78, 0x56, 0x34, 0x12])])) =
      some (0x00, true, [.send [0xFF, 0x02, 0x04, 0x00] 0 .sent, .recv 6 0 (.bytes [0x0A, 0x0B, 0x78, 0x56, 0x34, 0x12])],
        [.ok (.word 0x12345678)]) := by decide

theorem test_read_b5_timeout :
    busView (exec (.read 0 0x0004) (busWith 0 [.send .sent, .recv .timeout])) =
      some (0x01, false, [.send [0x00, 0x02, 0x04, 0x00] 0 .sent, .recv 6 0 .timeout], [.err .toRecv]) := by decide

/-- Vector B9: a parameter that compares the echo. -/
theorem test_read_b9_echo :
    busView (exec (.read 0 0x0004) { busWith 0 [.send .sent, .recv (.bytes [0x07, 0x02, 0x78, 0x56, 0x34, 0x12])] with
      params := { params with echoRule := .header } }) =
      some (0x01, true, [.send [0x00, 0x02, 0x04, 0x00] 0 .sent, .recv 6 0 (.bytes [0x07, 0x02, 0x78, 0x56, 0x34, 0x12])],
        [.err .peEcho]) := by decide

theorem test_write_p1 :
    busView (exec (.write 0 0x0010 0x123456A7) (busWith 0 [.send .sent, .recv (.bytes [0x00, 0x01])])) =
      some (0x01, true, [.send [0x00, 0x01, 0x10, 0x00, 0xA7, 0x56, 0x34, 0x12] 0 .sent, .recv 2 0 (.bytes [0x00, 0x01])],
        [.ok .none]) := by decide

theorem test_write_f6_address :
    busView (exec (.write 0 0xFFFF 1) (busWith 0 [])) = some (0x00, true, [], [.err .ipAddr]) := by decide

theorem test_batch_p2 :
    busView (exec (.rbWriteBatch [(0x0000, 0x00000001), (0x0004, 0xFFFFFFFF), (0xFFFE, 0x80000000)])
      (busWith 0xFE [.send .sent, .recv (.bytes [0xFE, 0x01, 0xFF, 0x01, 0x00, 0x01])])) =
      some (0x01, true,
        [.send [0xFE, 0x01, 0x00, 0x00, 0x01, 0x00, 0x00, 0x00, 0xFF, 0x01, 0x04, 0x00, 0xFF, 0xFF, 0xFF, 0xFF,
                0x00, 0x01, 0xFE, 0xFF, 0x00, 0x00, 0x00, 0x80] 0 .sent,
         .recv 6 0 (.bytes [0xFE, 0x01, 0xFF, 0x01, 0x00, 0x01])], [.ok .none]) := by decide

theorem test_batch_b14_address :
    busView (exec (.rbWriteBatch [(0x10, 1), (0xFFFF, 2)]) (busWith 0 [])) = some (0x00, true, [], [.err .ipAddr]) := by
  decide

theorem test_streamRead_p3 :
    busView (exec (.streamRead 0 0x0020 4) (busWith 1 [.send .sent, .recv (.bytes [0x01, 0x04, 0xDE, 0xAD, 0xBE, 0xEF])])) =
      some (0x02, true, [.send [0x01, 0x04, 0x20, 0x00, 0x04, 0x00] 0 .sent,
        .recv 6 0 (.bytes [0x01, 0x04, 0xDE, 0xAD, 0xBE, 0xEF])], [.ok (.bytes [0xDE, 0xAD, 0xBE, 0xEF])]) := by decide

theorem test_streamRead_b18_length :
    busView (exec (.streamRead 0 0x0020 0x10000) (busWith 0 [])) = some (0x00, true, [], [.err .ipLen]) := by decide

theorem test_streamWrite_p3 :
    busView (exec (.streamWrite 0 0x0020 [0xDE, 0xAD, 0xBE, 0xEF]) (busWith 0 [.send .sent, .recv (.bytes [0x00, 0x03])])) =
      some (0x01, true, [.send [0x00, 0x03, 0x20, 0x00, 0x04, 0x00, 0xDE, 0xAD, 0xBE, 0xEF] 0 .sent,
        .recv 2 0 (.bytes [0x00, 0x03])], [.ok .none]) := by decide

theorem test_flush_b20_no_reply :
    busView (exec (.flush 0) (busWith 0 [.send .sent])) =
      some (0x01, true, [.send [0x00, 0xFF] 0 .sent], [.ok .none]) := by decide

theorem test_flush_b21_reply :
    busView (exec (.flush 0) { busWith 0 [.send .sent, .recv (.bytes [0x77, 0x88])] with
      params := { params with flushRespLen := 2 } }) =
      some (0x01, true, [.send [0x00, 0xFF] 0 .sent, .recv 2 0 (.bytes [0x77, 0x88])], [.ok .none]) := by decide

theorem test_rmw_b22 :
    busView (exec (.rbRmw 0x10 0xF0 0x50) (busWith 0 [.send .sent, .recv (.bytes [0, 2, 0xA7, 0x56, 0x34, 0x12]),
      .send .sent, .recv (.bytes [1, 1])])) =
      some (0x02, true, [.send [0x00, 0x02, 0x10, 0x00] 0 .sent, .recv 6 0 (.bytes [0, 2, 0xA7, 0x56, 0x34, 0x12]),
        .send [0x01, 0x01, 0x10, 0x00, 0x57, 0x56, 0x34, 0x12] 0 .sent, .recv 2 0 (.bytes [1, 1])], [.ok .none]) := by decide

theorem test_rmw_b26_no_write :
    busView (exec (.rbRmw 0x10 0xF0 0x50) (busWith 0 [.send .sent, .recv .timeout, .send .sent])) =
      some (0x01, false, [.send [0x00, 0x02, 0x10, 0x00] 0 .sent, .recv 6 0 .timeout], [.err .toRecv]) := by decide

/-- Vector X8, matching on the second read. -/
theorem test_poll_x8 :
    busView (exec (.rbPoll 0x0010 1 1) (busWith 0
      [.tick (TickOutcome.continue), .send .sent, .recv (.bytes [0, 2, 0, 0, 0, 0]),
       .tick (TickOutcome.continue), .send .sent, .recv (.bytes [1, 2, 1, 0, 0, 0])])) =
      some (0x02, true,
        [.tick 0 TickOutcome.continue, .send [0x00, 0x02, 0x10, 0x00] 0 .sent, .recv 6 0 (.bytes [0, 2, 0, 0, 0, 0]),
         .tick 0 TickOutcome.continue, .send [0x01, 0x02, 0x10, 0x00] 0 .sent, .recv 6 0 (.bytes [1, 2, 1, 0, 0, 0])],
        [.ok (.bool true)]) := by decide

theorem test_poll_b27_expired :
    busView (exec (.rbPoll 0x10 1 1) (busWith 0 [.tick .expired])) =
      some (0x00, true, [.tick 0 .expired], [.ok (.bool false)]) := by decide

theorem test_reestablish_b11 :
    busView (exec .rbReestablish { base with rbu := { base.rbu with linkOk := false } }) =
      some (0x00, true, [], [.ok .none]) := by decide

/-- R4: the lengths RBU asks for follow VALUE_BITS, ECHO_LEN and ACK_LEN. -/
theorem test_lengths_are_parameters :
    busView (exec (.read 0 4) { busWith 0 [.send .sent, .recv .timeout] with
      params := { params with valueBits := 64, echoLen := 3 } }) =
      some (0x01, false, [.send [0x00, 0x02, 0x04, 0x00] 0 .sent, .recv 11 0 .timeout], [.err .toRecv]) ∧
    busView (exec (.write 0 4 1) { busWith 0 [.send .sent, .recv .timeout] with params := { params with ackLen := 1 } }) =
      some (0x01, false, [.send [0x00, 0x01, 0x04, 0x00, 0x01, 0x00, 0x00, 0x00] 0 .sent, .recv 1 0 .timeout],
        [.err .toRecv]) := by decide

/-! ### The ATR parser (vectors A1 to A18) -/

theorem test_atr_a4 :
    atrView (exec .atrReceive
      (atrWith [[0x3B, 0xE3], [0x00, 0x00, 0x81], [0x31], [0xFE, 0x45], [0x41, 0x42, 0x43], [0xA8]])) =
      some (12, 0x00, true, [2, 3, 1, 2, 3, 1],
        [.ok (.bytes [0x3B, 0xE3, 0x00, 0x00, 0x81, 0x31, 0xFE, 0x45, 0x41, 0x42, 0x43, 0xA8])]) := by decide

/-- Vector A7: the eighth group does not fit, and no request is made for it. -/
theorem test_atr_a7 :
    atrView (exec .atrReceive (atrWith ([0x3B, 0xF0] :: List.replicate 8 [0x00, 0x00, 0x00, 0xF0]))) =
      some (30, 0xF0, false, [2, 4, 4, 4, 4, 4, 4, 4], [.err .peAtrMalformed]) := by decide

/-! ### The bitstream sequencer (vectors S1 to S21, program P6) -/

/-- The environment of a one-chunk upload that succeeds. -/
def uploadAnswers (n : Nat) (status : Bytes) : List CAnswer :=
  [.write (.transferred 0), .write (.transferred n), .read (.bytes status)]

theorem test_provision_p6 :
    (match exec (.bsProvision [0x55, 0x99, 0xAA, 0x66, 0x01, 0x80]) (uploadAt .idle (uploadAnswers 518 [0x01])) with
      | .next s => some (s.bsu.len, s.bsu.reversed, s.bsu.buf.readN 510 8, s.bsu.results)
      | _ => none) =
      some (518, true, some [0x00, 0x00, 0xAA, 0x99, 0x55, 0x66, 0x80, 0x01], [.ok .none]) := by decide +kernel

theorem test_provision_s11_no_marker :
    uploadView (exec (.bsProvision [0x12, 0x34]) base) = some (.idle, 0, true, [], [.err .peSync]) := by decide +kernel

theorem test_ctrlReset :
    uploadView (exec .ctrlReset (uploadAt .resetCmd [.write (.transferred 7)])) = some (.sendChunk, 0, true, [0x31], []) := by
  decide

theorem test_ctrlResetAlt :
    uploadView (exec .ctrlResetAlt { uploadAt .resetCmd [.write .timeout] with
      params := { params with resetOp := .alt } }) = some (.idle, 0, false, [0x60], [.err .toCtrl]) := by decide

theorem test_ctrlSendChunk :
    uploadView (exec .ctrlSendChunk (chunkReady [.write (.transferred 3)])) = some (.status, 1, true, [0x32], []) := by decide

theorem test_ctrlSendChunkAlt :
    uploadView (exec .ctrlSendChunkAlt { chunkReady [.write (.transferred 2)] with
      params := { params with chunkOp := .alt } }) = some (.idle, 0, true, [0x34], [.err .peChunkLen]) := by decide

theorem test_ctrlStatus :
    uploadView (exec .ctrlStatus (uploadAt .status [.read (.bytes [0x00])])) =
      some (.idle, 0, true, [0x30], [.err .peNotConfigured]) := by decide

theorem test_ctrlStatusAlt :
    uploadView (exec .ctrlStatusAlt { uploadAt .status [.read (.bytes [0xFF])] with
      params := { params with statusOp := .alt } }) = some (.idle, 0, true, [0x33], [.ok .none]) := by decide

theorem test_bsReestablish :
    uploadView (exec .bsReestablish { base with bsu := { base.bsu with ctrlOk := false } }) =
      some (.idle, 0, true, [], [.ok .none]) := by decide

/-! ### Steps -/

/-- A word placed where the block takes its next instruction runs right after reset, and waits for its first outcome. -/
theorem test_fetch_read :
    (match step (State.reset.withFetchWord 32 0x00023412) with
      | .next s => some s.rbu.state
      | _ => none) =
      some (.busy (.send { req := [0x00, 0x02, 0x34, 0x12], n := 6, t := 0, after := .value })) := by decide

/-- A placed control opcode is the BSU's next control command; it has a whole request to make, and waits for the outcome. -/
theorem test_fetch_control :
    uploadView (step (State.reset.withFetchWord 8 0x34)) = some (.sendChunk, 0, true, [], []) := by decide +kernel

/-- The placed send-chunk command sends the 513 bytes of the placed upload, and its acknowledgement ends the chunks. -/
theorem test_fetch_control_sends :
    uploadView (step (State.withFetchWord { base with bsu := { base.bsu with answers := [.write (.transferred 513)] } }
      8 0x32)) = some (.status, 1, true, [0x32], []) := by decide +kernel

/-- Program P4, line 2: a refused command is marked, and the next input can follow. -/
theorem test_refused_command_is_marked :
    (match step { base with rbu := { base.rbu with linkOk := false }, inputs := [.command (.host (.write 0 1 5)) 0, .reset] } with
      | .next s => some (s.refused, s.inputs, s.rbu.results)
      | _ => none) = some ([.linkDown], [.reset], []) := by decide

/-- E1: a unit in the middle of a command refuses. -/
theorem test_busy_unit_refuses :
    (match exec (.read 0 1) busBusy with
      | .refused r => some r
      | _ => none) = some (.turnedAway (.busy .rbu)) := by decide

/-! ### Witnesses

One theorem for each clause of each statement that has hypotheses: a concrete state and operands that meet all of the
clause's hypotheses together, at a boundary value where its range has one. `Documented` stands first
where the statement has it as a premise. -/

/-- The invariant holds of the block after reset with the tests' parameters, whatever inputs wait. -/
theorem base_inv (ins : List Input) : ({ base with inputs := ins } : State).Inv := by
  refine ⟨⟨params_documented, ?_⟩, ⟨?_, ?_, ?_⟩, ⟨?_, ?_, ?_, ?_, ?_, ?_⟩, ⟨?_, ?_, ?_, ?_, ?_, ?_, ?_⟩⟩ <;>
    simp [base, params, Params.defaults, State.resetWith, RbuState.ok, Memory.within, Memory.written,
      Atu.stateOk, Bsu.stateOk]

/-- A buffer of `n` zero bytes is canonical, within `n` bytes, and written. -/
theorem zeros_buffer (n : Nat) : (Memory.ofBytes 0 (zeros n)).wf ∧ Memory.within (Memory.ofBytes 0 (zeros n)) n ∧
    Memory.written (Memory.ofBytes 0 (zeros n)) n := by
  refine ⟨Memory.ofBytes_wf 0 _, fun c hc => ?_, fun a ha => ?_⟩
  · have := (Memory.mem_ofBytes hc).2; rw [List.length_replicate] at this; omega
  · rw [Memory.read_ofBytes, if_pos (by omega), List.getElem?_replicate, if_pos (by omega)]; rfl

/-- Every control opcode is placed in a state that meets the invariant. -/
theorem test_placed_control_meets_the_invariant (k : ControlKind) : (base.bsu.placed params k).Inv params := by
  have h := zeros_buffer 513
  have hi : Memory.within (Memory.ofBytes 0 (zeros 513)) (bsuCapacity params) := fun c hc =>
    Nat.lt_of_lt_of_le (h.2.1 c hc) (by decide)
  cases k
  · exact ⟨h.1, hi, by decide, h.2.2, ⟨⟨by decide, by decide⟩, rfl⟩, fun _ => rfl, fun _ h => nomatch h⟩
  · exact ⟨h.1, hi, by decide, h.2.2, ⟨⟨by decide, by decide⟩, by decide⟩, fun _ => rfl, fun _ h => nomatch h⟩
  · exact ⟨h.1, hi, by decide, h.2.2, ⟨⟨by decide, by decide⟩, by decide⟩, fun _ => rfl, fun _ h => nomatch h⟩

theorem witness_WrittenOutWordsDecode : params.Documented := params_documented

theorem witness_EncodersCheckThenLayOut : params.Documented := params_documented

theorem witness_LastChunkIsNoMultipleOfThePacketSize : params.Documented := params_documented

theorem witness_DecodeOfEncodeIsTheInstruction :
    params.Documented ∧
    (Instr.streamWrite 0xFF 0xFFFF [0xAA]).wf params = true ∧
    encode params (.streamWrite 0xFF 0xFFFF [0xAA]) = some (.frame [0xFF, 0x03, 0xFF, 0xFF, 0x01, 0x00, 0xAA]) :=
  ⟨params_documented, by decide⟩

theorem witness_EncodeOfDecodeIsTheCode :
    params.Documented ∧
    decode params (.frame [0xFF, 0x04, 0xFF, 0xFF, 0xFF, 0xFF]) = .ok (.streamRead 0xFF 0xFFFF 0xFFFF) :=
  ⟨params_documented, by decide⟩

theorem witness_ReservedOpcodesSpellNoInstruction :
    params.Documented ∧
    (∀ op ∈ [(0x00 : Byte), 0x05, 0xFE], op ≠ 0x01 ∧ op ≠ 0x02 ∧ op ≠ 0x03 ∧ op ≠ 0x04 ∧ op ≠ 0xFF) ∧
    encode params (.flush 0x00) = some (.frame [0x00, 0xFF]) ∧
    decodeFrame params [0x00, 0xFF, 0x07] = .ok (.flush 0x00, [0x07]) :=
  ⟨params_documented, by decide⟩

theorem witness_RequestLengthFollowsTheOpcode :
    params.Documented ∧
    (Instr.streamWrite 0 0 []).wf params = true ∧ encode params (.streamWrite 0 0 []) = some (.frame [0, 3, 0, 0, 0, 0]) ∧
    ((0x05 : Byte) ≠ 0x01 ∧ (0x05 : Byte) ≠ 0x02 ∧ (0x05 : Byte) ≠ 0x03 ∧ (0x05 : Byte) ≠ 0x04 ∧ (0x05 : Byte) ≠ 0xFF) :=
  ⟨params_documented, by decide⟩

theorem witness_PackingRoundTrips : 0 ≤ 0xFFFF ∧ 0xFFFF ≤ 0xFFFF := by decide

theorem witness_DecodersCheckTheLength :
    params.Documented ∧
    ([0x00, 0x01, 0x02] : Bytes).length ≠ 4 ∧ ([0x00] : Bytes).length ≠ 2 ∧ ([0x00, 0x01] : Bytes).length = 2 ∧
    ([0x03, 0x04, 0xDE] : Bytes).length ≠ 2 + 2 ∧ ([] : Bytes).length = 0 :=
  ⟨params_documented, by decide⟩

theorem witness_WrittenValueReadsBack :
    encWrite params 0xFF 0xFFFE 0x80000000 = .ok [0xFF, 0x01, 0xFE, 0xFF, 0x00, 0x00, 0x00, 0x80] := by decide

theorem witness_BitReversalSwapsTheMarkers :
    params.Documented ∧
    (0 : Nat) < 8 ∧ (7 : Nat) < 8 :=
  ⟨params_documented, by decide⟩

theorem witness_ResetEventAbandonsTheCommands :
    ({ busBusy with inputs := [.reset, .control] } : State).inputs = .reset :: [.control] := rfl

theorem witness_ReadFollowsItsRule :
    (busWith 0 []).params.Documented ∧
    (busWith 0 []).rbuReady ∧ 0xFFFF ≤ 0xFFFF ∧ 0xFFFE < 0xFFFF ∧
    readSpec params 0xFFFE 0 0 [.send .sent, .recv (.bytes [0, 2, 1, 0, 0, 0x80])] =
      some ⟨[.send [0, 2, 0xFE, 0xFF] 0 .sent, .recv 6 0 (.bytes [0, 2, 1, 0, 0, 0x80])], .ok (.word 0x80000001), false, 1, []⟩ :=
  ⟨params_documented, ⟨rfl, rfl⟩, by decide, by decide, by decide⟩

theorem witness_WriteFollowsItsRule :
    (busWith 0xFF []).params.Documented ∧
    (busWith 0xFF []).rbuReady ∧ 0xFFFF ≤ 0xFFFF ∧ 0xFFFE < 0xFFFF ∧
    xferSpec (frameWrite params 0xFF 0xFFFE 1) 2 0 (0xFF + 1) (fun _ => .ok .none) [.send .sent, .recv (.short [7])] =
      some ⟨[.send [0xFF, 1, 0xFE, 0xFF, 1, 0, 0, 0] 0 .sent, .recv 2 0 (.short [7])], .err .peLen, false, 0, []⟩ :=
  ⟨params_documented, ⟨rfl, rfl⟩, by decide, by decide, by decide⟩

theorem witness_BatchFollowsItsRule :
    (busWith 0xFF []).params.Documented ∧
    (busWith 0xFF []).rbuReady ∧ (∃ q ∈ [(0x0010, (1 : Word)), (0xFFFF, 2)], 0xFFFF ≤ q.1) ∧
    (∀ q ∈ [(0x0010, (1 : Word)), (0xFFFE, 2)], q.1 < 0xFFFF) ∧ [(0x0010, (1 : Word)), (0xFFFE, 2)] ≠ [] ∧
    xferSpec (batchRequest params 0xFF [(0x0010, 1), (0xFFFE, 2)]) (2 * 2) 0 (0xFF + BitVec.ofNat 8 2) (fun _ => .ok .none)
        [.send .sent, .recv (.bytes [9, 9, 9, 9])] =
      some ⟨[.send [0xFF, 1, 0x10, 0, 1, 0, 0, 0, 0x00, 1, 0xFE, 0xFF, 2, 0, 0, 0] 0 .sent,
             .recv 4 0 (.bytes [9, 9, 9, 9])], .ok .none, false, 1, []⟩ :=
  ⟨params_documented, ⟨rfl, rfl⟩, by decide, by decide, by decide, by decide⟩

theorem witness_StreamReadFollowsItsRule :
    (busWith 0 []).params.Documented ∧
    (busWith 0 []).rbuReady ∧ 0xFFFF ≤ 0xFFFF ∧ 0xFFFE < 0xFFFF ∧ 0xFFFF < 0x10000 ∧ 0 ≤ 0xFFFF ∧
    xferSpec (frameStreamRead params 0 0xFFFE 0) (0 + 2) 0 (0 + 1)
        (payloadResult params (frameStreamRead params 0 0xFFFE 0)) [.send .sent, .recv (.bytes [0, 4])] =
      some ⟨[.send [0, 4, 0xFE, 0xFF, 0, 0] 0 .sent, .recv 2 0 (.bytes [0, 4])], .ok (.bytes []), false, 1, []⟩ :=
  ⟨params_documented, ⟨rfl, rfl⟩, by decide, by decide, by decide, by decide, by decide⟩

theorem witness_StreamWriteFollowsItsRule :
    (busWith 0 []).params.Documented ∧
    (busWith 0 []).rbuReady ∧ 0xFFFF ≤ 0xFFFF ∧ 0xFFFE < 0xFFFF ∧
    (∃ data : Bytes, 0xFFFF < data.length) ∧ ([0x5A] : Bytes).length ≤ 0xFFFF ∧
    xferSpec (frameStreamWrite params 0 0xFFFE [0x5A]) 2 0 (0 + 1) (fun _ => .ok .none) [.send .timeout] =
      some ⟨[.send [0, 3, 0xFE, 0xFF, 1, 0, 0x5A] 0 .timeout], .err .toSend, true, 1, []⟩ :=
  ⟨params_documented, ⟨rfl, rfl⟩, by decide, by decide, ⟨zeros 0x10000, by rw [List.length_replicate]; decide⟩, by decide, by decide⟩

theorem witness_FlushFollowsItsRule :
    (busWith 0 []).params.Documented ∧
    (busWith 0 []).rbuReady ∧
    xferSpec [0x00, 0xFF] 0 0 (0 + 1) (fun _ => .ok .none) [.send .sent] =
      some ⟨[.send [0, 0xFF] 0 .sent], .ok .none, false, 1, []⟩ :=
  ⟨params_documented, ⟨rfl, rfl⟩, by decide⟩

theorem witness_ReadModifyWriteFollowsItsRule :
    (busWith 0 []).params.Documented ∧
    (busWith 0 []).rbuReady ∧ 0xFFFF ≤ 0xFFFF ∧ 0xFFFE < 0xFFFF ∧
    (rmwSpec params 0xFFFE 0x0F 0xF0 0 0 [.send .sent, .recv (.bytes [0, 2, 0, 0, 0, 0]), .send .transferError]).map
        (fun e => (e.result, e.seq)) = some (.err .teSend, 2) :=
  ⟨params_documented, ⟨rfl, rfl⟩, by decide, by decide, by decide⟩

theorem witness_PollFollowsItsRule :
    (busWith 0 []).params.Documented ∧
    (busWith 0 []).rbuReady ∧ 0xFFFF ≤ 0xFFFF ∧ 0xFFFE < 0xFFFF ∧
    (pollSpec params 0xFFFE 1 3 0 2 0
      [.tick TickOutcome.continue, .send .sent, .recv (.bytes [0, 2, 3, 0, 0, 0]), .tick .expired]).map
        (fun e => (e.result, e.seq)) = some (.ok (.bool false), 1) :=
  ⟨params_documented, ⟨rfl, rfl⟩, by decide, by decide, by decide⟩

/-- The Tick of a poll in progress is answered Expired; then BSU turns that select nothing arrive for ever. -/
def expiringEnv : Environment
  | 0 => .answerT (.tick .expired)
  | _ + 1 => .control

/-- What the block does then. -/
def expiringRun : Nat → State
  | 0 => busBusy
  | _ + 1 => { base with rbu := { base.rbu with trace := [.tick 7 .expired], results := [.ok (.bool false)] } }

/-- R168: an execution with a poll in progress. -/
theorem witness_PollFollowsItsRule_ends :
    Execution expiringEnv expiringRun ∧ (expiringRun 0).rbu.state.polling = true := by
  refine ⟨⟨fun n => ?_, fun n h => ?_⟩, rfl⟩
  · cases n <;> rfl
  · have := h (n + 1) (by omega)
    simp [expiringRun, base, State.resetWith, RbuState.polling] at this

theorem witness_ReestablishSetsLinkOk :
    ({ base with rbu := { base.rbu with linkOk := false } } : State).rbu.state = .idle := rfl

theorem witness_SeqCountsTheFramesBuilt :
    base.params.Documented ∧
    ∃ t, step { base with inputs := [.command (.host (.rbWriteBatch [(1, 1), (2, 2)])) 0] } = .next t ∧
      (∀ rest, [Input.command (.host (.rbWriteBatch [(1, 1), (2, 2)])) 0] ≠ .reset :: rest) :=
  ⟨params_documented, _, rfl, by simp⟩

theorem witness_LinkFallsExactlyOnTimeout :
    base.params.Documented ∧
    isBusCommand (.read 0 4) = true ∧ (busWith 0 [.send .sent, .recv .timeout]).rbuReady ∧
    ∃ t, exec (.read 0 4) (busWith 0 [.send .sent, .recv .timeout]) = .next t ∧ t.rbu.linkOk = false :=
  ⟨params_documented, rfl, ⟨rfl, rfl⟩, _, rfl, rfl⟩

/-- ATU and BSU at rest, at the start of a command, and in the middle of one. -/
theorem witness_OutcomesMayArriveLate :
    ({ base with inputs := [.answerT (.send .sent)] } : State).inputs = .answerT (.send .sent) :: [] ∧
    (({ base with inputs := [.answerA .fail] } : State).inputs = .answerA .fail :: [] ∧ base.atu.Inv base.params) ∧
    (({ base with inputs := [.answerC (.read .timeout)] } : State).inputs = .answerC (.read .timeout) :: [] ∧
      base.bsu.Inv base.params) ∧
    params.Documented ∧ (base.atu.Inv params ∧ ∃ a0 : Atu, base.atu.start = a0.start) ∧
    ((∀ k, (base.bsu.placed params k).Inv params) ∧
      ∃ b0 image t, image.length ≤ params.maxImage ∧ Bsu.load params (zeros 6) 0 base.bsu = Bsu.load params image t b0) :=
  ⟨rfl, ⟨rfl, (base_inv []).atu⟩, ⟨rfl, (base_inv []).bsu⟩, params_documented, ⟨(base_inv []).atu, base.atu, rfl⟩,
    test_placed_control_meets_the_invariant, base.bsu, zeros 6, 0, by decide, rfl⟩

theorem witness_RefusedCommandsChangeNothing :
    isBusCommand .rbReestablish = true ∧ busBusy.rbu.state ≠ .idle ∧
    isBusCommand (.flush 0) = true ∧ Instr.flush 0 ≠ .rbReestablish ∧
    ({ base with rbu := { base.rbu with linkOk := false } } : State).rbu.linkOk = false ∧
    ({ base with atu := { base.atu with state := .expectInitial } } : State).atu.state ≠ .idle ∧
    (uploadAt .status []).bsu.state ≠ .idle ∧
    ({ base with bsu := { base.bsu with ctrlOk := false } } : State).bsu.state = .idle ∧
    ({ base with bsu := { base.bsu with ctrlOk := false } } : State).bsu.ctrlOk = false := by decide

theorem witness_RefusedCommandsChangeNothing_step :
    (Command.host (.flush 0)).instr base.params = .next (.flush 0) ∧
    exec (.flush 0) { busBusy with inputs := [], cmdTimeout := 3 } = .refused (.turnedAway (.busy .rbu)) := ⟨rfl, rfl⟩

theorem witness_ReadyCommandsAreAccepted :
    base.params.Documented ∧
    isBusCommand (.flush 0) = true ∧ base.rbuReady ∧ base.atu.state = .idle ∧ base.bsuReady :=
  ⟨params_documented, rfl, ⟨rfl, rfl⟩, rfl, ⟨rfl, rfl⟩⟩

theorem witness_BusCommandsLeaveTheRest :
    base.params.Documented ∧
    isBusCommand (.write 0 1 2) = true ∧ ∃ t, exec (.write 0 1 2) base = .next t :=
  ⟨params_documented, rfl, _, rfl⟩

theorem witness_AtrReceiveLeavesTheRest :
    base.params.Documented ∧
    ∃ t, exec .atrReceive (atrWith [[0x3B, 0x01], [0x55]]) = .next t ∧ t.atu.consumed = 3 :=
  ⟨params_documented, _, rfl, rfl⟩

theorem witness_BitstreamCommandsLeaveTheRest :
    (∃ t, exec .ctrlSendChunk (chunkReady [.write (.transferred 3)]) = .next t) ∧
    (∃ t, exec .bsReestablish base = .next t) ∧
    (∃ t, exec (.bsProvision [1, 2, 3, 4, 5, 6, 7]) base = .next t) := ⟨⟨_, rfl⟩, ⟨_, rfl⟩, ⟨_, rfl⟩⟩

theorem witness_CausesPerCommand :
    base.params.Documented ∧
    ∃ t, exec (.streamRead 0 0 0x10000) base = .next t ∧
      resultsOf (.streamRead 0 0 0x10000) t = resultsOf (.streamRead 0 0 0x10000) base ++ [.err .ipLen] :=
  ⟨params_documented, _, rfl, rfl⟩

theorem witness_AtrAcceptance : base.atu.state = .idle ∧ base.atu.answers = [] := ⟨rfl, rfl⟩

/-- ATU in a sequencing state, after `n` bytes. -/
def atuAt (st : AtuState) (n : Nat) (k : BitVec 4) (tdx : Byte) (check : Bool) (as : List AAnswer) : Atu :=
  { base.atu with state := st, buf := Memory.ofBytes 0 (List.replicate n 0x41), consumed := n, k := k, tdx := tdx
                  needsCheck := check, answers := as }

theorem witness_AtrInitialState :
    params.Documented ∧
    (∀ as, (atuAt .expectInitial 0 0 0 false as).state = .expectInitial ∧
      (atuAt .expectInitial 0 0 0 false as).consumed = 0 ∧ (atuAt .expectInitial 0 0 0 false as).answers = as) ∧
    (0x3F : Byte) ≠ 0x3B :=
  ⟨params_documented, fun _ => ⟨rfl, rfl, rfl⟩, by decide⟩

/-- The clauses in order: a chain that ends, a group of 4 with 3 bytes left, one that fits exactly, and the same with its
bytes. -/
theorem witness_AtrInterfaceGroups :
    params.Documented ∧
    (atuAt .expectInterfaceChain 32 0 0x0F false []).consumed ≤ 32 ∧ popcount4 ((0x0F : Byte).extractLsb' 4 4) = 0 ∧
    (32 - (atuAt .expectInterfaceChain 29 0 0xF0 false []).consumed < 4 ∧ 4 = popcount4 ((0xF0 : Byte).extractLsb' 4 4)) ∧
    (1 ≤ 4 ∧ 4 ≤ 32 - (atuAt .expectInterfaceChain 28 0 0xF0 false [.fail]).consumed ∧
      (atuAt .expectInterfaceChain 28 0 0xF0 false [.fail]).answers = .fail :: []) ∧
    ((([0, 0, 0] : Bytes) ++ [0x01]).length = 4 ∧
      (atuAt .expectInterfaceChain 28 0 0xF0 false [.bytes [0, 0, 0, 1]]).answers = .bytes ([0, 0, 0] ++ [0x01]) :: []) :=
  ⟨params_documented, by decide⟩

theorem witness_AtrHistoricalBytes :
    params.Documented ∧
    (atuAt .expectHistorical 2 0 0 false []).k = 0 ∧
    (32 - (atuAt .expectHistorical 18 15 0 false []).consumed < (atuAt .expectHistorical 18 15 0 false []).k.toNat) ∧
    ((atuAt .expectHistorical 17 15 0 false [.fail]).k ≠ 0 ∧
      (atuAt .expectHistorical 17 15 0 false [.fail]).k.toNat ≤ 32 - (atuAt .expectHistorical 17 15 0 false [.fail]).consumed) ∧
    (List.replicate 15 (0x41 : Byte)).length = (atuAt .expectHistorical 17 15 0 false []).k.toNat :=
  ⟨params_documented, by decide⟩

theorem witness_AtrCheckByteAndEnd :
    params.Documented ∧
    (atuAt .expectCheckByte 2 0 0 false []).buf.readN 0 2 = some [0x41, 0x41] ∧
    (atuAt .expectCheckByte 2 0 0 false []).needsCheck = false ∧
    ((atuAt .expectCheckByte 32 0 0 true []).buf.readN 0 32 = some (List.replicate 32 0x41) ∧
      (atuAt .expectCheckByte 32 0 0 true []).consumed = 32) ∧
    ((atuAt .expectCheckByte 31 0 0 true [.fail]).buf.readN 0 31 = some (List.replicate 31 0x41) ∧
      (atuAt .expectCheckByte 31 0 0 true [.fail]).needsCheck = true ∧
      (atuAt .expectCheckByte 31 0 0 true [.fail]).consumed < 32) :=
  ⟨params_documented, by decide⟩

/-- Vector A14: 32 bytes, the maximum. -/
theorem witness_AtrOfAnyLayoutIsReturned :
    base.params.Documented ∧
    let gs : List Bytes := [[0, 0, 0, 0xF0], [0, 0, 0, 0xF1], [0, 0, 0, 0x30], [0, 0]]
    let hist : Bytes := List.replicate 15 0x41
    groupsFrom 0xFF gs ∧ hist.length = ((0xFF : Byte).extractLsb' 0 4).toNat ∧
    ([0x5C] : Bytes).length = (if checkDeclared 0xFF gs then 1 else 0) ∧
    ([0x3B, 0xFF] ++ gs.flatten ++ hist ++ [0x5C]).length ≤ 32 ∧
    (atrWith (atrReceives params 0xFF gs hist [0x5C])).atu.answers =
      (atrReceives params 0xFF gs hist [0x5C]).map AAnswer.bytes ++ [] := by
  refine ⟨params_documented, ?_, by decide, by decide, by decide, by rw [List.append_nil]; rfl⟩
  simp only [groupsFrom]
  decide

theorem witness_AtrNeverRequestsMoreThanTheBuffer :
    base.params.Documented ∧
    ∃ t, exec .atrReceive (atrWith ([0x3B, 0xF0] :: List.replicate 8 [0x00, 0x00, 0x00, 0xF0])) = .next t :=
  ⟨params_documented, _, rfl⟩

theorem witness_LoadCopiesTheImage :
    params.Documented ∧
    params.maxImage < (zeros 7).length ∧ (zeros 6).length ≤ params.maxImage :=
  ⟨params_documented, by decide⟩

theorem witness_MarkerSearchFindsTheFirst : params.syncN ≠ [] ∧ params.syncR ≠ [] := by decide

/-- The marker alone in a small buffer. -/
def detectAt (bytes : Bytes) : Bsu := { base.bsu with state := .detect, buf := Memory.ofBytes 0 bytes, len := bytes.length }

/-- The clauses in order: no marker; the reversed one alone, and at a lower offset than the normal one; the normal one
alone, and at a lower offset. -/
theorem witness_DetectDecidesTheBitOrder :
    params.Documented ∧
    ((detectAt [1, 2]).buf.readN 0 2 = some [1, 2] ∧ (detectAt [1, 2]).len ≤ bsuCapacity params ∧
      findMarker [0xAA, 0x99, 0x55, 0x66] 0 [1, 2] = none ∧ findMarker [0x55, 0x99, 0xAA, 0x66] 0 [1, 2] = none) ∧
    (findMarker [0x55, 0x99, 0xAA, 0x66] 0 [0x55, 0x99, 0xAA, 0x66] = some 0 ∧
      findMarker [0xAA, 0x99, 0x55, 0x66] 0 [0x55, 0x99, 0xAA, 0x66] = none) ∧
    (findMarker [0x55, 0x99, 0xAA, 0x66] 0 [0x55, 0x99, 0xAA, 0x66, 0xAA, 0x99, 0x55, 0x66] = some 0 ∧
      findMarker [0xAA, 0x99, 0x55, 0x66] 0 [0x55, 0x99, 0xAA, 0x66, 0xAA, 0x99, 0x55, 0x66] = some 4) ∧
    (findMarker [0xAA, 0x99, 0x55, 0x66] 0 [0xAA, 0x99, 0x55, 0x66, 0x55, 0x99, 0xAA, 0x66] = some 0 ∧
      findMarker [0x55, 0x99, 0xAA, 0x66] 0 [0xAA, 0x99, 0x55, 0x66, 0x55, 0x99, 0xAA, 0x66] = some 4) :=
  ⟨params_documented, by decide⟩

theorem witness_PadAppendsOneZeroByte :
    params.Documented ∧
    ({ base.bsu with len := 512 } : Bsu).len < bsuCapacity params ∧ 512 % 64 = 0 ∧
    ({ base.bsu with len := 518 } : Bsu).len < bsuCapacity params ∧ 518 % 64 ≠ 0 :=
  ⟨params_documented, by decide⟩

theorem witness_ControlResetFollowsItsRule :
    (∀ as, (uploadAt .resetCmd as).bsu.state = .resetCmd ∧ (uploadAt .resetCmd as).params.resetOp = .main ∧
      (uploadAt .resetCmd as).bsu.answers = as) ∧
    ({ uploadAt .resetCmd [] with params := { params with resetOp := .alt } } : State).params.resetOp = .alt :=
  ⟨fun _ => ⟨rfl, rfl, rfl⟩, rfl⟩

theorem witness_ControlSendChunkFollowsItsRule :
    (∀ as, (chunkReady as).bsu.state = .sendChunk ∧ (chunkReady as).params.chunkOp = .main ∧
      (chunkReady as).bsu.answers = as) ∧
    (chunkReady []).bsu.chunkIdx < chunkCount params (chunkReady []).bsu.len ∧
    (chunkReady []).bsu.buf.readN ((chunkReady []).bsu.chunkIdx * params.chunk)
      (chunkLen params (chunkReady []).bsu.len (chunkReady []).bsu.chunkIdx) = some [1, 2, 3] ∧ 2 ≠ ([1, 2, 3] : Bytes).length :=
  ⟨fun _ => ⟨rfl, rfl, rfl⟩, by decide, by decide, by decide⟩

theorem witness_ControlStatusFollowsItsRule :
    (∀ as, (uploadAt .status as).bsu.state = .status ∧ (uploadAt .status as).params.statusOp = .main ∧
      (uploadAt .status as).bsu.answers = as) ∧
    ([] : Bytes).length + 1 ≤ (uploadAt .status []).params.statusLen := ⟨fun _ => ⟨rfl, rfl, rfl⟩, by decide⟩

theorem witness_ChunksPartitionTheBuffer :
    params.Documented ∧
    ([0x00] : Bytes) ≠ [] ∧ 0 < chunkCount params ([0x00] : Bytes).length :=
  ⟨params_documented, by decide⟩

/-- Vector S1, to its success; and its image, at the length limit of a MAX_IMAGE of 4. -/
theorem witness_ProvisionUploadsTheImage :
    base.params.Documented ∧
    base.bsuReady ∧ ([0x55, 0x99, 0xAA, 0x66] : Bytes).length ≤ ({ params with maxImage := 4 } : Params).maxImage ∧
    syncMissing params [0x55, 0x99, 0xAA, 0x66] = false ∧
    (uploadSpec params 0 (chunksOf params (uploadBytes params [0x55, 0x99, 0xAA, 0x66])) (uploadAnswers 516 [0x01])).map
      (fun e => (e.sent, e.result, e.late)) = some (1, .ok .none, false) :=
  ⟨params_documented, ⟨rfl, rfl⟩, by decide, by decide +kernel, by decide +kernel⟩

theorem witness_ProvisionRejectsTheImage :
    base.params.Documented ∧
    base.bsuReady ∧ params.maxImage < (zeros 7).length ∧
    ([] : Bytes).length ≤ params.maxImage ∧ syncMissing params [] = true :=
  ⟨params_documented, ⟨rfl, rfl⟩, by decide, by decide, by decide +kernel⟩

theorem witness_BsReestablishSetsCtrlOk :
    ({ base with bsu := { base.bsu with ctrlOk := false } } : State).bsu.state = .idle := rfl

theorem witness_ChannelFallsExactlyOnTimeout :
    base.params.Documented ∧
    base.bsuReady ∧ ∃ t, exec (.bsProvision [1, 2, 3, 4, 5, 6, 7]) base = .next t :=
  ⟨params_documented, ⟨rfl, rfl⟩, _, rfl⟩

theorem witness_StepKeepsTheInvariant :
    ({ base with inputs := [.command (.host .atrReceive) 0] } : State).Inv ∧
    ∃ t, step { base with inputs := [.command (.host .atrReceive) 0] } = .next t := ⟨base_inv _, _, rfl⟩

theorem witness_NoStepReadsBeforeWriting :
    ({ base with inputs := [.command (.code [0x00, 0x02, 0x34, 0x12]) 0] } : State).Inv := base_inv _

theorem witness_UnitsShareNoState :
    isBusCommand (.read 0 4) = true ∧ base.rbu = (uploadAt .status []).rbu ∧ base.params = (uploadAt .status []).params ∧
    base.cmdTimeout = (uploadAt .status []).cmdTimeout ∧ (∃ t, exec (.read 0 4) base = .next t) ∧
    exec (.read 0 4) busBusy = .refused (.turnedAway (.busy .rbu)) := ⟨rfl, rfl, rfl, rfl, ⟨_, rfl⟩, rfl⟩

/-- A chunk to send from a buffer that nothing has written. -/
def sendsUnwritten (s : State) : State := { s with bsu := { s.bsu with state := .sendChunk, len := 1 } }

/-- The units of the other two: each beside a state whose RBU differs. -/
theorem witness_UnitsShareNoState_atu :
    base.atu = busBusy.atu ∧ base.params = busBusy.params ∧ (∃ t, exec .atrReceive base = .next t) ∧
    (∀ s : State, s = { base with atu := { base.atu with state := .expectInitial } } →
      exec .atrReceive s = .refused (.turnedAway (.busy .atu))) :=
  ⟨rfl, rfl, ⟨_, rfl⟩, fun _ h => by rw [h]; rfl⟩

/-- See the one before. The fault is an upload whose buffer byte was never written: no run reaches it (R40). -/
theorem witness_UnitsShareNoState_bsu :
    isUploadCommand .ctrlReset = true ∧ isUploadCommand (.bsProvision [1]) = true ∧ base.bsu = busBusy.bsu ∧
    base.params = busBusy.params ∧ base.cmdTimeout = busBusy.cmdTimeout ∧
    (∃ t, exec (.bsProvision [1, 2, 3, 4, 5, 6, 7]) base = .next t) ∧
    exec .ctrlReset base = .refused .controlNotSelected ∧
    exec .ctrlSendChunk (sendsUnwritten base) = .fault .unwrittenByte :=
  ⟨rfl, rfl, rfl, rfl, rfl, ⟨_, rfl⟩, rfl, rfl⟩

theorem witness_ParametersAndLogsArePermanent :
    ∃ t, step { base with inputs := [.command (.code [0x00, 0x02, 0x34, 0x12]) 0] } = .next t := ⟨_, rfl⟩

theorem witness_StepRunsTheCommand :
    decode params (.frame [0x00, 0x02, 0x34, 0x12]) = .ok (.read 0x00 0x1234) ∧
    ({ base with inputs := [.command (.code [0x00, 0x02, 0x34, 0x12]) 5] } : State).inputs =
      .command (.code [0x00, 0x02, 0x34, 0x12]) 5 :: [] ∧
    ({ base with inputs := [.command (.host .atrReceive) 5] } : State).inputs = .command (.host .atrReceive) 5 :: [] ∧
    isControl .atrReceive = false := ⟨by decide, rfl, rfl, rfl⟩

theorem witness_StepRunsTheControlCommand :
    ({ uploadAt .status [] with inputs := [.control] } : State).inputs = .control :: [] ∧
    (uploadAt .resetCmd []).bsu.selected = some .reset ∧ (uploadAt .sendChunk []).bsu.selected = some .sendChunk ∧
    (uploadAt .status []).bsu.selected = some .status ∧ base.bsu.selected = none := ⟨rfl, rfl, rfl, rfl, rfl⟩

end Sys2Proof.Tests
end

section
/-! The scope of the block (00_scope.md): each command is an operation of its own unit, put back into the state (R1,
R151); what the commands of each unit leave unchanged (R27, R44, R58, R133, R134); the constants of R4 after reset. -/

namespace Sys2Proof.Machine

/-! ### A command as an operation of its unit -/

/-- RB_REESTABLISH on RBU alone (R101). -/
def Rbu.reestablish (r : Rbu) : Res Rbu :=
  match r.state with
  | .busy _ => .refused (.turnedAway (.busy .rbu))
  | .idle => .next (r.relink.deliver (.ok .none))

/-- A bus command on RBU alone (R93 to R101, R103). -/
def busMeaning (i : Instr) (p : Params) (t : Timeout) : Rbu → Res Rbu :=
  if i = .rbReestablish then Rbu.reestablish else Rbu.accept p (busStart i p t)

/-- ATR_RECEIVE on ATU alone (R107, R108). -/
def Atu.receiveAtr (p : Params) (a : Atu) : Res Atu :=
  match a.state with
  | .idle => a.start.advance p
  | _ => .refused (.turnedAway (.busy .atu))

/-- BS_PROVISION on BSU alone (R121). -/
def Bsu.provision (image : Bytes) (p : Params) (t : Timeout) (b : Bsu) : Res Bsu :=
  match b.state with
  | .idle => if b.ctrlOk then (b.load p image t).advance p else .refused (.turnedAway .controlDown)
  | _ => .refused (.turnedAway (.busy .bsu))

/-- BS_REESTABLISH on BSU alone (R134). -/
def Bsu.reestablish (b : Bsu) : Res Bsu :=
  match b.state with
  | .idle => .next (b.relink.deliver (.ok .none))
  | _ => .refused (.turnedAway (.busy .bsu))

theorem exec_rbReestablish (s : State) : exec .rbReestablish s = s.onRbu s.rbu.reestablish := by
  cases hs : s.rbu.state <;> simp only [exec, execRbReestablish, Rbu.reestablish, hs] <;> rfl

theorem exec_eq_busMeaning (i : Instr) (s : State) (h : isBusCommand i = true) :
    exec i s = s.onRbu (busMeaning i s.params s.cmdTimeout s.rbu) := by
  unfold busMeaning
  split
  · rename_i hi; subst hi; exact exec_rbReestablish s
  · rename_i hi; exact exec_bus i s h hi

theorem exec_atrReceive (s : State) : exec .atrReceive s = s.onAtu (s.atu.receiveAtr s.params) := by
  cases hs : s.atu.state <;> simp only [exec, execAtrReceive, Atu.receiveAtr, hs] <;> rfl

theorem exec_bsProvision (image : Bytes) (s : State) :
    exec (.bsProvision image) s = s.onBsu (s.bsu.provision image s.params s.cmdTimeout) := by
  cases hs : s.bsu.state <;> simp only [exec, execBsProvision, Bsu.provision, hs]
  case idle => cases s.bsu.ctrlOk <;> rfl
  all_goals rfl

theorem exec_bsReestablish (s : State) : exec .bsReestablish s = s.onBsu s.bsu.reestablish := by
  cases hs : s.bsu.state <;> simp only [exec, execBsReestablish, Bsu.reestablish, hs] <;> rfl

/-- The control commands are the six spellings of a kind and a variant (R72). -/
theorem isControl_eq_controlInstr {i : Instr} (h : isControl i = true) : ∃ k v, i = controlInstr k v := by
  cases i <;> simp only [isControl, Bool.false_eq_true] at h
  case ctrlReset => exact ⟨.reset, .main, rfl⟩
  case ctrlResetAlt => exact ⟨.reset, .alt, rfl⟩
  case ctrlSendChunk => exact ⟨.sendChunk, .main, rfl⟩
  case ctrlSendChunkAlt => exact ⟨.sendChunk, .alt, rfl⟩
  case ctrlStatus => exact ⟨.status, .main, rfl⟩
  case ctrlStatusAlt => exact ⟨.status, .alt, rfl⟩

/-- The three sorts of command that BSU has (R21, R72). -/
theorem isUploadCommand_cases {i : Instr} (h : isUploadCommand i = true) :
    (∃ k v, i = controlInstr k v) ∨ (∃ image, i = .bsProvision image) ∨ i = .bsReestablish := by
  by_cases hc : isControl i = true
  · exact .inl (isControl_eq_controlInstr hc)
  · cases i <;> simp [isUploadCommand, isControl] at h hc ⊢

/-- Every command of BSU is an operation of BSU, its parameters and its timeout. -/
theorem exec_upload {i : Instr} (h : isUploadCommand i = true) :
    ∃ f : Params → Timeout → Bsu → Res Bsu, ∀ s, exec i s = s.onBsu (f s.params s.cmdTimeout s.bsu) := by
  rcases isUploadCommand_cases h with ⟨k, v, rfl⟩ | ⟨image, rfl⟩ | rfl
  · exact ⟨fun p _ b => b.control p k v, exec_control k v⟩
  · exact ⟨fun p t b => b.provision image p t, exec_bsProvision image⟩
  · exact ⟨fun _ _ b => b.reestablish, exec_bsReestablish⟩

/-! ### One outcome put into two states -/

/-- The one outcome `o` put into two states by `f` and `f'`: both go on, to related states, or both stop alike. -/
theorem andThen_next_related {σ τ : Type} (o : Res σ) {f f' : σ → τ} {P : τ → τ → Prop} (h : ∀ x, P (f x) (f' x)) :
    (∀ t, andThen o (fun x => .next (f x)) = .next t → ∃ t', andThen o (fun x => .next (f' x)) = .next t' ∧ P t t') ∧
    (∀ r, andThen o (fun x => .next (f x)) = .refused r → andThen o (fun x => .next (f' x)) = .refused r) ∧
    (∀ e, andThen o (fun x => .next (f x)) = .fault e → andThen o (fun x => .next (f' x)) = .fault e) := by
  cases o with
  | next x => exact ⟨fun t ht => by cases ht; exact ⟨_, rfl, h x⟩, nofun, nofun⟩
  | refused r => exact ⟨nofun, fun _ hr => by cases hr; rfl, nofun⟩
  | fault e => exact ⟨nofun, nofun, fun _ he => by cases he; rfl⟩

/-- Settles O56: each command is one operation of its unit, and its outcome is put into either state. -/
theorem unitsShareNoState : Obligations.UnitsShareNoState := by
  refine ⟨fun i s s' hi hu hp ht => ?_, fun s s' hu hp => ?_, fun i s s' hi hu hp ht => ?_⟩
  · rw [exec_eq_busMeaning i s hi, exec_eq_busMeaning i s' hi, hu, hp, ht]
    exact andThen_next_related (P := fun t t' : State => t'.rbu = t.rbu ∧ t'.atu = s'.atu ∧ t'.bsu = s'.bsu) _
      fun _ => ⟨rfl, rfl, rfl⟩
  · rw [exec_atrReceive, exec_atrReceive, hu, hp]
    exact andThen_next_related (P := fun t t' : State => t'.atu = t.atu ∧ t'.rbu = s'.rbu ∧ t'.bsu = s'.bsu) _
      fun _ => ⟨rfl, rfl, rfl⟩
  · obtain ⟨f, hf⟩ := exec_upload hi
    rw [hf s, hf s', hu, hp, ht]
    exact andThen_next_related (P := fun t t' : State => t'.bsu = t.bsu ∧ t'.rbu = s'.rbu ∧ t'.atu = s'.atu) _
      fun _ => ⟨rfl, rfl, rfl⟩

/-! ### Frames -/

/-- A log that stays, or gains one entry, gains at most one. -/
theorem appends_at_most_one {α : Type} {l l' : List α} (h : l' = l ∨ ∃ v, l' = l ++ [v]) :
    ∃ vs, l' = l ++ vs ∧ vs.length ≤ 1 := by
  rcases h with h | ⟨v, h⟩
  · exact ⟨[], by simp [h], by simp⟩
  · exact ⟨[v], h, le_rfl⟩

/-- What a bus command does to the answers, the trace and the results of RBU (R15, R16). -/
theorem bus_logs {i : Instr} {s t : State} [s.params.Documented] (hi : isBusCommand i = true) (h : exec i s = .next t) :
    (∃ used, s.rbu.answers = used ++ t.rbu.answers) ∧ (∃ es, t.rbu.trace = s.rbu.trace ++ es) ∧
    ∃ vs, t.rbu.results = s.rbu.results ++ vs ∧ vs.length ≤ 1 := by
  obtain ⟨-, -, ⟨-, hr⟩ | ⟨-, -, hs⟩⟩ := bus_next i s t hi h
  · rw [hr]; exact ⟨⟨[], rfl⟩, ⟨[], by simp⟩, appends_at_most_one (.inr ⟨_, rfl⟩)⟩
  · obtain ⟨es, hes, -⟩ := hs.events
    refine ⟨hs.used, ⟨es, hes⟩, appends_at_most_one ?_⟩
    rcases hs.results with ⟨-, v, hv, -⟩ | ⟨-, hv⟩
    · exact .inr ⟨v, hv⟩
    · exact .inl hv

/-- Settles O29: a bus command puts a new RBU into the state, whose logs `bus_logs` describes. -/
theorem busCommandsLeaveTheRest : Obligations.BusCommandsLeaveTheRest := by
  intro i s t _ hi h
  obtain ⟨-, ht, -⟩ := bus_next i s t hi h
  exact ⟨ht, fun a => by rw [ht]; exact ⟨rfl, rfl⟩, bus_logs hi h⟩

/-- Settles O30: the invariant `Atu.Since` of a command in progress, at its end. -/
theorem atrReceiveLeavesTheRest : Obligations.AtrReceiveLeavesTheRest := by
  intro s t _ h
  obtain ⟨-, ht, hs, -⟩ := atr_next s t h
  obtain ⟨es, hes, -⟩ := hs.events
  refine ⟨ht, hs.keep, fun a => by rw [ht], hs.used, ⟨es, hes⟩, appends_at_most_one ?_⟩
  rcases hs.results with ⟨-, hv⟩ | ⟨-, v, hv, -⟩
  · exact .inl hv
  · exact .inr ⟨v, hv⟩

/-- A control command or BS_REESTABLISH moves BSU alone, and there neither the buffer nor what says how it was loaded
(R58, R133, R134). -/
theorem control_or_reestablish_frame {i : Instr} {s t : State} (hi : isControl i = true ∨ i = .bsReestablish)
    (h : exec i s = .next t) :
    t = { s with bsu := t.bsu } ∧ t.bsu.buf = s.bsu.buf ∧ t.bsu.len = s.bsu.len ∧ t.bsu.reversed = s.bsu.reversed ∧
    t.bsu.padded = s.bsu.padded := by
  rcases hi with hi | rfl
  · obtain ⟨k, -, -, ht, hk, -, hstep⟩ := control_next i s t hi h
    obtain ⟨hbuf, hlen, hrev, hpad, -⟩ := Bsu.control_step_inv _ _ _ k hk hstep
    exact ⟨ht, hbuf, hlen, hrev, hpad⟩
  · obtain ⟨-, rfl⟩ := bsReestablish_inv s t h
    exact ⟨rfl, rfl, rfl, rfl, rfl⟩

/-- Settles O31, by the sort of command. -/
theorem bitstreamCommandsLeaveTheRest : Obligations.BitstreamCommandsLeaveTheRest := by
  intro i s t h
  refine ⟨fun hi => ?_, ?_⟩
  · obtain ⟨ht, hbuf, hlen, hrev, hpad⟩ := control_or_reestablish_frame hi h
    refine ⟨ht, by rw [hlen, hrev, hpad], ?_, fun a => ⟨by rw [hbuf], by rw [ht]⟩⟩
    rintro rfl
    obtain ⟨-, rfl⟩ := bsReestablish_inv s t h
    rfl
  · rintro image rfl
    obtain ⟨-, ht⟩ := provision_inv image s t h
    exact ⟨ht, fun a => by rw [ht]⟩

/-! ### The constants after reset -/

/-- Settles O60: `Params.defaults_documented` for the document's values; the other fields have the spec's defaults
(D10, D22, D24). -/
theorem resetHasTheDocumentedConstants : Obligations.ResetHasTheDocumentedConstants :=
  ⟨Params.defaults_documented, rfl, rfl, rfl, rfl, rfl, rfl, rfl, rfl, fun _ _ => rfl, rfl, rfl⟩

end Sys2Proof.Machine
end

section
/-! The state of the block (10_state.md): reset (R39, R157), refusal (R22, R24, R37), what a ready unit does with a
command (R15), how an outcome reaches its unit (R16), the logs that only grow, and the invariant that every step keeps
(R25 to R33, R40). -/

namespace Sys2Proof.Machine

variable {p : Params}

/-! ### Reset -/

/-- Settles O12: each value stands in `State.resetWith`. -/
theorem resetLeavesTheSpecValues : Obligations.ResetLeavesTheSpecValues :=
  ⟨rfl, fun _ => ⟨rfl, rfl, rfl, rfl, rfl, rfl, rfl, rfl, rfl, rfl, rfl, rfl, fun _ => ⟨rfl, rfl⟩⟩⟩

theorem Rbu.resetRegs_inv {r : Rbu} (h : ∀ e ∈ r.trace, e.legal p) : (r.resetRegs p).Inv p :=
  ⟨trivial, fun hid => absurd rfl hid, h⟩

theorem Atu.resetRegs_inv {a : Atu} (h : ∀ e ∈ a.trace, e.legal p) : a.resetRegs.Inv p :=
  ⟨.nil, nofun, Nat.zero_le _, nofun, trivial, h⟩

theorem Bsu.resetRegs_inv {b : Bsu} (h : ∀ e ∈ b.trace, e.legal p) : b.resetRegs.Inv p :=
  ⟨.nil, nofun, Nat.zero_le _, nofun, trivial, fun _ => rfl, h⟩

/-- Settles O13: at reset each unit is what the reset event makes of it, and no event has been made. -/
theorem resetMeetsTheInvariant : Obligations.ResetMeetsTheInvariant where
  params := ⟨Params.defaults_documented, le_rfl⟩
  rbu := Rbu.resetRegs_inv (r := State.reset.rbu) nofun
  atu := Atu.resetRegs_inv (a := State.reset.atu) nofun
  bsu := Bsu.resetRegs_inv (b := State.reset.bsu) nofun

/-! ### Refused commands -/

theorem busMeaning_busy (i : Instr) (p : Params) (t : Timeout) {r : Rbu} (h : r.state ≠ .idle) :
    busMeaning i p t r = .refused (.turnedAway (.busy .rbu)) := by
  cases hs : r.state with
  | idle => exact absurd hs h
  | busy w => unfold busMeaning; split <;> simp only [Rbu.reestablish, Rbu.accept, hs]

theorem busMeaning_linkDown {i : Instr} (p : Params) (t : Timeout) {r : Rbu} (hi : i ≠ .rbReestablish)
    (h : r.state = .idle) (hl : r.linkOk = false) : busMeaning i p t r = .refused (.turnedAway .linkDown) := by
  simp [busMeaning, hi, Rbu.accept, h, hl]

theorem Atu.receiveAtr_busy (p : Params) {a : Atu} (h : a.state ≠ .idle) :
    a.receiveAtr p = .refused (.turnedAway (.busy .atu)) := by
  unfold Atu.receiveAtr; split
  · exact absurd ‹_› h
  · rfl

theorem Bsu.provision_busy (image : Bytes) (p : Params) (t : Timeout) {b : Bsu} (h : b.state ≠ .idle) :
    b.provision image p t = .refused (.turnedAway (.busy .bsu)) := by
  unfold Bsu.provision; split
  · exact absurd ‹_› h
  · rfl

theorem Bsu.provision_controlDown (image : Bytes) (p : Params) (t : Timeout) {b : Bsu} (h : b.state = .idle)
    (hc : b.ctrlOk = false) : b.provision image p t = .refused (.turnedAway .controlDown) := by
  simp [Bsu.provision, h, hc]

theorem Bsu.reestablish_busy {b : Bsu} (h : b.state ≠ .idle) :
    b.reestablish = .refused (.turnedAway (.busy .bsu)) := by
  unfold Bsu.reestablish; split
  · exact absurd ‹_› h
  · rfl

/-- A step on a command runs its instruction, around which it marks a refusal (R15, log 14). -/
theorem step_command {s : State} {c : Command} {t : Timeout} {rest : List Input} {i : Instr}
    (h : s.inputs = .command c t :: rest) (hi : c.instr s.params = .next i) :
    step s = markRefused { s with inputs := rest } (exec i { s with inputs := rest, cmdTimeout := t }) := by
  simp only [step, h, State.take, State.issue, hi, andThen]

/-- Settles O27: the refusals of each unit's operations, and the mark a step makes of one. -/
theorem refusedCommandsChangeNothing : Obligations.RefusedCommandsChangeNothing := by
  intro i s
  refine ⟨fun hi h => ?_, fun hi hne h hl => ?_, fun h => ?_, fun image h => ?_, fun image h hc => ?_, fun h => ?_,
    fun c t rest w hin hc hx => ?_⟩
  · rw [exec_eq_busMeaning i s hi, busMeaning_busy i _ _ h]; rfl
  · rw [exec_eq_busMeaning i s hi, busMeaning_linkDown _ _ hne h hl]; rfl
  · rw [exec_atrReceive, Atu.receiveAtr_busy _ h]; rfl
  · rw [exec_bsProvision, Bsu.provision_busy image _ _ h]; rfl
  · rw [exec_bsProvision, Bsu.provision_controlDown image _ _ h hc]; rfl
  · rw [exec_bsReestablish, Bsu.reestablish_busy h]; rfl
  · rw [step_command hin hc, hx]; rfl

/-! ### Commands of a ready unit -/

/-- A bus command of a ready RBU goes on (R103). -/
theorem bus_ready {i : Instr} {s : State} (hi : isBusCommand i = true) (h : s.rbuReady) : ∃ t, exec i s = .next t := by
  rw [exec_eq_busMeaning i s hi]
  unfold busMeaning
  split
  · simp only [Rbu.reestablish, h.1]; exact ⟨_, rfl⟩
  · rw [Rbu.accept_next _ _ _ h.1 h.2]; exact ⟨_, rfl⟩

/-- ATR_RECEIVE of an idle ATU goes on (R108). -/
theorem atr_ready {s : State} [s.params.Documented] (h : s.atu.state = .idle) : ∃ t, exec .atrReceive s = .next t := by
  obtain ⟨a, ha, -⟩ := Atu.since_run _ _ (Atu.since_start s.params s.atu) (Atu.turns_le _)
  simp only [exec_atrReceive, Atu.receiveAtr, h, Atu.advance, ha]
  exact ⟨_, rfl⟩

/-- Settles O28: the accepted command's `Since` says what became of the results. -/
theorem readyCommandsAreAccepted : Obligations.ReadyCommandsAreAccepted := by
  refine ⟨fun i s _ hi h => ?_, fun s _ h => ?_, fun image s _ h => ?_⟩
  · obtain ⟨t, ht⟩ := bus_ready hi h
    refine ⟨t, ht, ?_⟩
    obtain ⟨-, -, ⟨-, hr⟩ | ⟨-, -, hs⟩⟩ := bus_next i s t hi ht
    · rw [hr]; exact .inl ⟨h.1, _, rfl⟩
    · exact hs.results.imp_left fun ⟨hid, v, hv, _⟩ => ⟨hid, v, hv⟩
  · obtain ⟨t, ht⟩ := atr_ready h
    obtain ⟨-, -, hs, -⟩ := atr_next s t ht
    exact ⟨t, ht, (hs.results.imp_right fun ⟨hid, v, hv, _⟩ => ⟨hid, v, hv⟩).symm⟩
  · obtain ⟨t, ht, -, ⟨-, hb⟩ | ⟨hl, hs, -⟩⟩ := provision_next image s h
    · exact ⟨t, ht, .inl (by rw [hb]; exact ⟨h.1, _, rfl⟩)⟩
    · refine ⟨t, ht, ?_⟩
      have hr := hs.results
      rw [Bsu.load_eq _ _ _ _ hl] at hr
      exact (hr.imp_right fun ⟨hid, v, hv, _⟩ => ⟨hid, v, hv⟩).symm

/-- Settles O53: `Bsu.Since` from the loaded image on; an image that is too long makes no event. -/
theorem channelFallsExactlyOnTimeout : Obligations.ChannelFallsExactlyOnTimeout := by
  intro image s t _ h hx
  obtain ⟨t', hx', -, hb⟩ := provision_next image s h
  cases hx.symm.trans hx'
  rcases hb with ⟨-, hb⟩ | ⟨hl, hs, -⟩
  · exact ⟨[], by simp [hb], by simp [hb, h.2]⟩
  · obtain ⟨es, htr, -, hok⟩ := hs.events
    rw [Bsu.load_eq _ _ _ _ hl] at htr hok
    exact ⟨es, htr, by simp [hok, h.2]⟩

/-! ### Outcomes that arrive late -/

/-- RBU with no outcome ready stays where it is. -/
theorem Rbu.step_of_no_answers (p : Params) {r : Rbu} (h : r.answers = []) : r.step p = r := by
  rcases r.step_cases p with ⟨hr, -⟩ | ⟨e, rest, -, ⟨a, ha⟩, -⟩
  · exact hr
  · rw [h] at ha; cases ha

/-- RBU with one more outcome behind the others. -/
def Rbu.push (o : TAnswer) (r : Rbu) : Rbu := r.withAnswers (r.answers ++ [o])

/-- A step changes nothing, or it takes one outcome and is the same step with one more behind the others. -/
theorem Rbu.step_push (p : Params) (o : TAnswer) (r : Rbu) :
    r.step p = r ∨ ((r.step p).answers.length < r.answers.length ∧ (r.push o).step p = (r.step p).push o) := by
  cases ha : r.answers with
  | nil => exact .inl (Rbu.step_of_no_answers p ha)
  | cons a as =>
    rcases Rbu.step_append p r a as [o] ha with ⟨h, -⟩ | ⟨h1, h2⟩
    · exact .inl h
    · exact .inr ⟨by simp [h1], by rw [Rbu.push, Rbu.push, ha, h1]; exact h2⟩

/-- R16 for RBU: an outcome that arrives after the others were used leads to the state it leads to when it was ready
beforehand. -/
theorem Rbu.advance_push (p : Params) (o : TAnswer) (r : Rbu) :
    (r.push o).advance p = (r.advance p).receiveAnswer p o := by
  obtain ⟨y, h1, h2⟩ := run_late (step := fun r => .next (Rbu.step p r)) (run := fun n r => .next (Rbu.run p n r))
    (push := Rbu.push o) (turns := fun r => r.answers.length) (good := fun _ => True) (fun _ => rfl) (fun _ _ => rfl)
    (fun r _ => ⟨_, rfl, trivial, (Rbu.step_push p o r).imp_right And.left⟩) (fun _ _ => trivial)
    (fun r r' _ hr hne => by
      cases hr; rw [((Rbu.step_push p o r).resolve_left hne).2]) r trivial
  have hy : r.advance p = y := Host.Outcome.next.inj (h1 _ le_rfl)
  rw [hy]
  exact Host.Outcome.next.inj (h2 _ _ le_rfl le_rfl)

theorem Atu.running_of_inv {a : Atu} (h : a.Inv p) : a.running p :=
  or_iff_not_imp_left.mpr fun hid => ⟨a, Atu.since_refl h hid⟩

theorem Bsu.running_of_inv {b : Bsu} (h : b.Inv p) : b.running p :=
  or_iff_not_imp_left.mpr fun hid => ⟨b, Bsu.since_refl h hid⟩

/-- Settles O26: an outcome is handed to its unit; late and ready ones agree by `advance_push` of each unit. -/
theorem outcomesMayArriveLate : Obligations.OutcomesMayArriveLate := by
  refine ⟨fun s rest o h => ?_, fun s rest o h _ hinv => ?_, fun s rest o h _ hinv => ?_,
    fun p r o => Rbu.advance_push p o r, fun p a o _ h => ?_, fun p b o _ h => ?_⟩
  · simp only [step, h, State.take]
  · obtain ⟨a, ha, -⟩ := Atu.receive_inv hinv o
    exact ⟨a, ha, by simp only [step, h, State.take, ha]; rfl⟩
  · obtain ⟨b, hb, -⟩ := Bsu.receive_inv hinv o
    exact ⟨b, hb, by simp only [step, h, State.take, hb]; rfl⟩
  · refine Atu.advance_push o ?_
    rcases h with h | ⟨a0, rfl⟩
    · exact Atu.running_of_inv h
    · exact .inr ⟨_, Atu.since_start p a0⟩
  · refine Bsu.advance_push o ?_
    rcases h with h | ⟨b0, image, t, hl, rfl⟩
    · exact Bsu.running_of_inv h
    · exact .inr ⟨_, Bsu.since_load p image t b0 hl⟩

/-! ### Parameters and logs -/

/-- The instructions, by the unit whose operation they are (R21). -/
theorem instr_unit_cases (i : Instr) : isBusCommand i = true ∨ i = .atrReceive ∨ isUploadCommand i = true := by
  cases i <;> simp [isBusCommand, isUploadCommand, isControl]

/-- The parameters are unchanged, and each trace and result list is extended at its end or unchanged. -/
structure State.Grows (s t : State) : Prop where
  params : t.params = s.params
  rbu : s.rbu.trace <+: t.rbu.trace ∧ s.rbu.results <+: t.rbu.results
  atu : s.atu.trace <+: t.atu.trace ∧ s.atu.results <+: t.atu.results
  bsu : s.bsu.trace <+: t.bsu.trace ∧ s.bsu.results <+: t.bsu.results

theorem State.grows_refl (s : State) : s.Grows s :=
  ⟨rfl, ⟨List.prefix_rfl, List.prefix_rfl⟩, ⟨List.prefix_rfl, List.prefix_rfl⟩, ⟨List.prefix_rfl, List.prefix_rfl⟩⟩

theorem State.Grows.withRbu {s t : State} (h : s.Grows t) {r : Rbu}
    (hr : s.rbu.trace <+: r.trace ∧ s.rbu.results <+: r.results) : s.Grows { t with rbu := r } :=
  ⟨h.params, hr, h.atu, h.bsu⟩

theorem State.Grows.withAtu {s t : State} (h : s.Grows t) {a : Atu}
    (ha : s.atu.trace <+: a.trace ∧ s.atu.results <+: a.results) : s.Grows { t with atu := a } :=
  ⟨h.params, h.rbu, ha, h.bsu⟩

theorem State.Grows.withBsu {s t : State} (h : s.Grows t) {b : Bsu}
    (hb : s.bsu.trace <+: b.trace ∧ s.bsu.results <+: b.results) : s.Grows { t with bsu := b } :=
  ⟨h.params, h.rbu, h.atu, hb⟩

theorem busMeaning_grows {i : Instr} {t : Timeout} {r r' : Rbu} (hi : isBusCommand i = true)
    (h : busMeaning i p t r = .next r') : r.trace <+: r'.trace ∧ r.results <+: r'.results := by
  unfold busMeaning at h
  split at h
  · unfold Rbu.reestablish at h
    split at h <;> cases h
    exact ⟨List.prefix_rfl, List.prefix_append _ _⟩
  · unfold Rbu.accept at h
    split at h
    · cases h
    · split at h <;> cases h
      have hs := grows_busStart i p t r hi
      have hr := Rbu.grows_run p (busStart i p t r).answers.length (busStart i p t r)
      exact ⟨hs.1.trans hr.1, hs.2.trans hr.2⟩

theorem Atu.receiveAtr_grows {a a' : Atu} (h : a.receiveAtr p = .next a') :
    a.trace <+: a'.trace ∧ a.results <+: a'.results := by
  unfold Atu.receiveAtr at h
  split at h
  · exact Atu.grows_run (a := a.start) _ h
  · cases h

theorem Bsu.load_grows (p : Params) (image : Bytes) (t : Timeout) (b : Bsu) :
    b.trace <+: (b.load p image t).trace ∧ b.results <+: (b.load p image t).results := by
  unfold Bsu.load; split <;> simp

theorem Bsu.provision_grows {image : Bytes} {t : Timeout} {b b' : Bsu} (h : b.provision image p t = .next b') :
    b.trace <+: b'.trace ∧ b.results <+: b'.results := by
  unfold Bsu.provision at h
  split at h
  · split at h
    · have hl := Bsu.load_grows p image t b
      have hr := Bsu.grows_run _ h
      exact ⟨hl.1.trans hr.1, hl.2.trans hr.2⟩
    · cases h
  · cases h

/-- Whatever an instruction does, the parameters stay and the logs only grow (R16, R38). -/
theorem exec_grows {i : Instr} {s t : State} (h : exec i s = .next t) : s.Grows t := by
  rcases instr_unit_cases i with hi | rfl | hi
  · rw [exec_eq_busMeaning i s hi] at h
    obtain ⟨r, hr, h⟩ := andThen_eq_next h
    cases h
    exact s.grows_refl.withRbu (busMeaning_grows hi hr)
  · rw [exec_atrReceive] at h
    obtain ⟨a, ha, h⟩ := andThen_eq_next h
    cases h
    exact s.grows_refl.withAtu (Atu.receiveAtr_grows ha)
  · rcases isUploadCommand_cases hi with ⟨k, v, rfl⟩ | ⟨image, rfl⟩ | rfl
    · rw [exec_control] at h
      obtain ⟨b, hb, h⟩ := andThen_eq_next h
      cases h
      obtain ⟨-, -, hb⟩ := Bsu.control_inv _ _ _ _ _ hb
      exact s.grows_refl.withBsu (Bsu.grows_step hb)
    · rw [exec_bsProvision] at h
      obtain ⟨b, hb, h⟩ := andThen_eq_next h
      cases h
      exact s.grows_refl.withBsu (Bsu.provision_grows hb)
    · obtain ⟨-, rfl⟩ := bsReestablish_inv s t h
      exact s.grows_refl.withBsu ⟨List.prefix_rfl, List.prefix_append _ _⟩

/-- Whatever a step does, the parameters stay and the logs only grow (R16, R38). Taking the input and marking a refusal
touch no log. -/
theorem step_grows {s t : State} (h : step s = .next t) : s.Grows t := by
  have hs : ∀ rest rf, s.Grows { s with inputs := rest, refused := rf } := fun _ _ => { s.grows_refl with }
  have hx : ∀ {i rest tm}, exec i { s with inputs := rest, cmdTimeout := tm } = .next t → s.Grows t :=
    fun h => { exec_grows h with }
  rcases step_inv s t h with ⟨-, rfl⟩ | ⟨x, rest, -, ⟨c, tm, -, ⟨i, h⟩ | ⟨w, rfl⟩⟩ | ⟨-, rfl | ⟨i, h⟩⟩ |
    ⟨o, -, rfl⟩ | ⟨o, a, -, ha, rfl⟩ | ⟨o, b, -, hb, rfl⟩ | ⟨-, rfl⟩⟩
  · exact State.grows_refl _
  · exact hx h
  · exact hs _ _
  · exact hs _ _
  · exact hx h
  · exact (hs rest _).withRbu (Rbu.grows_run s.params _ { s.rbu with answers := s.rbu.answers ++ [o] })
  · exact (hs rest _).withAtu (Atu.grows_run (a := { s.atu with answers := s.atu.answers ++ [o] }) _ ha)
  · exact (hs rest _).withBsu (Bsu.grows_run (b := { s.bsu with answers := s.bsu.answers ++ [o] }) _ hb)
  · exact { s.grows_refl with }

/-- Settles O57, by the cases of a step. -/
theorem parametersAndLogsArePermanent : Obligations.ParametersAndLogsArePermanent := by
  intro s t h
  obtain ⟨hp, ⟨htr, hrr⟩, ⟨hta, hra⟩, ⟨htb, hrb⟩⟩ := step_grows h
  exact ⟨hp, htr, hta, htb, hrr, hra, hrb⟩

/-! ### The invariant -/

/-- The outcome is no fault, and a next state has the property; a refusal is allowed (R22, R40). -/
def safely {σ : Type} (P : σ → Prop) : Res σ → Prop
  | .next x => P x
  | .fault _ => False
  | .refused _ => True

theorem safely_andThen {σ τ : Type} {P : σ → Prop} {Q : τ → Prop} {o : Res σ} {f : σ → Res τ} (ho : safely P o)
    (hf : ∀ x, P x → safely Q (f x)) : safely Q (andThen o f) := by
  cases o with
  | next x => exact hf x ho
  | fault _ => exact ho
  | refused _ => trivial

/-- Marking a refusal leaves the block as it was, so it keeps the invariant. -/
theorem safely_markRefused {s : State} (h : s.Inv) {o : Res State} (ho : safely State.Inv o) :
    safely State.Inv (markRefused s o) := by
  cases o with
  | next t => exact ho
  | fault _ => exact ho
  | refused r =>
    cases r with
    | turnedAway w => exact inv_congr h s.inputs s.cmdTimeout (s.refused ++ [w])
    | _ => trivial

theorem Command.instr_safely (p : Params) (c : Command) : safely (fun _ => True) (c.instr p) := by
  unfold Command.instr
  split <;> split <;> trivial

theorem Rbu.receiveAnswer_inv [p.Documented] {r : Rbu} (h : r.Inv p) (o : TAnswer) : (r.receiveAnswer p o).Inv p :=
  Rbu.inv_run p _ _ ⟨h.state, h.link, h.trace⟩

theorem busStart_inv [p.Documented] {i : Instr} (t : Timeout) {r : Rbu} (hi : isBusCommand i = true)
    (hne : i ≠ .rbReestablish) (hl : r.linkOk = true) (h : r.Inv p) : (busStart i p t r).Inv p := by
  rcases start_effect i p t r hi hne with ⟨v, hs, -⟩ | ⟨n, st, hs, -, -, hok, -⟩ <;> rw [hs]
  · exact ⟨trivial, fun hid => absurd rfl hid, h.trace⟩
  · exact ⟨hok, fun _ => hl, h.trace⟩

theorem busMeaning_safely [p.Documented] {i : Instr} (t : Timeout) {r : Rbu} (hi : isBusCommand i = true)
    (h : r.Inv p) : safely (Rbu.Inv p) (busMeaning i p t r) := by
  unfold busMeaning
  split
  · unfold Rbu.reestablish; split
    · trivial
    · exact ⟨trivial, fun hid => absurd rfl hid, h.trace⟩
  · rename_i hne
    unfold Rbu.accept; split
    · trivial
    · split
      · rename_i hl; exact Rbu.inv_run _ _ _ (busStart_inv t hi hne hl h)
      · trivial

theorem Atu.receiveAtr_safely [p.Documented] {a : Atu} (h : a.Inv p) : safely (Atu.Inv p) (a.receiveAtr p) := by
  unfold Atu.receiveAtr
  split
  · obtain ⟨a', ha, hs, hok⟩ := Atu.since_run _ _ (Atu.since_start p a) (Atu.turns_le _)
    rw [Atu.advance, ha]
    exact Atu.inv_of_since hs hok h.wf h.within h.trace
  · trivial

theorem Bsu.raise_inv {b : Bsu} (e : Subcause) (h : b.Inv p) : (b.raise e).Inv p :=
  ⟨h.wf, h.within, h.bound, h.written, trivial, fun hid => absurd rfl hid, h.trace⟩

/-- An upload that begins goes on to its result or to a request it waits on; an image that is too long ends it. -/
theorem Bsu.load_advance_safely [p.Documented] (image : Bytes) (t : Timeout) {b : Bsu} (hc : b.ctrlOk = true)
    (h : b.Inv p) : safely (Bsu.Inv p) ((b.load p image t).advance p) := by
  by_cases hl : image.length ≤ p.maxImage
  · obtain ⟨b', hb, hs, hok⟩ := Bsu.since_run _ _ (Bsu.since_load p image t b hl) (Bsu.turns_le _)
    rw [Bsu.advance, hb]
    rw [Bsu.load_eq _ _ _ _ hl] at hs
    exact Bsu.inv_of_since hs hok hc h.trace
  · have he : b.load p image t = b.raise .ipLen := if_pos (by omega)
    rw [he, Bsu.advance, Bsu.run_idle _ _ _ rfl]
    exact Bsu.raise_inv _ h

theorem Bsu.provision_safely [p.Documented] (image : Bytes) (t : Timeout) {b : Bsu} (h : b.Inv p) :
    safely (Bsu.Inv p) (b.provision image p t) := by
  unfold Bsu.provision
  split
  · split
    · rename_i hc; exact Bsu.load_advance_safely image t hc h
    · trivial
  · trivial

theorem Bsu.reestablish_safely {b : Bsu} (h : b.Inv p) : safely (Bsu.Inv p) b.reestablish := by
  unfold Bsu.reestablish
  split
  · exact ⟨h.wf, h.within, h.bound, h.written, trivial, fun _ => rfl, h.trace⟩
  · trivial

theorem Bsu.step_safely [p.Documented] {b : Bsu} (h : b.Inv p) : safely (Bsu.Inv p) (b.step p) := by
  by_cases hid : b.state = .idle
  · simp only [Bsu.step, hid]; exact h
  · obtain ⟨b', hb, hs, hok⟩ := Bsu.since_step (Bsu.since_refl h hid) hid
    rw [hb]
    have hok' : b'.stateOk p := by
      rcases hok with ⟨rfl, hok⟩ | ⟨-, hok⟩
      · exact hok
      · exact hok h.state
    exact Bsu.inv_of_since hs hok' (h.channel hid) h.trace

theorem Bsu.control_safely [p.Documented] (k : ControlKind) (v : OpVariant) {b : Bsu} (h : b.Inv p) :
    safely (Bsu.Inv p) (b.control p k v) := by
  unfold Bsu.control
  split
  · exact Bsu.step_safely h
  · trivial

theorem State.Inv.onRbu {s : State} (h : s.Inv) {o : Res Rbu} (ho : safely (Rbu.Inv s.params) o) :
    safely State.Inv (s.onRbu o) :=
  safely_andThen ho fun _ hr => ⟨h.params, hr, h.atu, h.bsu⟩

theorem State.Inv.onAtu {s : State} (h : s.Inv) {o : Res Atu} (ho : safely (Atu.Inv s.params) o) :
    safely State.Inv (s.onAtu o) :=
  safely_andThen ho fun _ ha => ⟨h.params, h.rbu, ha, h.bsu⟩

theorem State.Inv.onBsu {s : State} (h : s.Inv) {o : Res Bsu} (ho : safely (Bsu.Inv s.params) o) :
    safely State.Inv (s.onBsu o) :=
  safely_andThen ho fun _ hb => ⟨h.params, h.rbu, h.atu, hb⟩

/-- No instruction faults from a state that meets the invariant, and each keeps it. -/
theorem exec_safely (i : Instr) {s : State} (h : s.Inv) : safely State.Inv (exec i s) := by
  have := h.params.1
  rcases instr_unit_cases i with hi | rfl | hi
  · rw [exec_eq_busMeaning i s hi]; exact h.onRbu (busMeaning_safely _ hi h.rbu)
  · rw [exec_atrReceive]; exact h.onAtu (Atu.receiveAtr_safely h.atu)
  · rcases isUploadCommand_cases hi with ⟨k, v, rfl⟩ | ⟨image, rfl⟩ | rfl
    · rw [exec_control]; exact h.onBsu (Bsu.control_safely k v h.bsu)
    · rw [exec_bsProvision]; exact h.onBsu (Bsu.provision_safely image _ h.bsu)
    · rw [exec_bsReestablish]; exact h.onBsu (Bsu.reestablish_safely h.bsu)

theorem State.takeControl_safely {s : State} (h : s.Inv) : safely State.Inv s.takeControl := by
  unfold State.takeControl
  split
  · exact h
  · split
    · exact exec_safely _ h
    · trivial

/-- No input makes a state that meets the invariant fault, and each keeps it. -/
theorem State.take_safely (x : Input) {s : State} (h : s.Inv) : safely State.Inv (s.take x) := by
  have := h.params.1
  cases x with
  | command c t =>
    exact safely_markRefused h (safely_andThen (Command.instr_safely s.params c)
      fun i _ => exec_safely i (inv_congr h s.inputs t s.refused))
  | control => exact State.takeControl_safely h
  | answerT o => exact ⟨h.params, Rbu.receiveAnswer_inv h.rbu o, h.atu, h.bsu⟩
  | answerA o =>
    obtain ⟨a, ha, hinv⟩ := Atu.receive_inv h.atu o
    exact h.onAtu (by rw [ha]; exact hinv)
  | answerC o =>
    obtain ⟨b, hb, hinv⟩ := Bsu.receive_inv h.bsu o
    exact h.onBsu (by rw [hb]; exact hinv)
  | reset =>
    exact ⟨h.params, Rbu.resetRegs_inv h.rbu.trace, Atu.resetRegs_inv h.atu.trace, Bsu.resetRegs_inv h.bsu.trace⟩

/-- No step faults from a state that meets the invariant, and each keeps it. -/
theorem step_safely {s : State} (h : s.Inv) : safely State.Inv (step s) := by
  unfold step
  split
  · exact h
  · rename_i x rest _
    exact State.take_safely x (inv_congr h rest s.cmdTimeout s.refused)

/-- Settles O54: `step_safely` at a next state. -/
theorem stepKeepsTheInvariant : Obligations.StepKeepsTheInvariant := by
  intro s t h ht
  have hs := step_safely h
  rw [ht] at hs
  exact hs

/-- Settles O55: `step_safely` at a fault. -/
theorem noStepReadsBeforeWriting : Obligations.NoStepReadsBeforeWriting := by
  intro s f h hf
  have hs := step_safely h
  rw [hf] at hs
  exact hs

end Sys2Proof.Machine
end

section
/-! Encodings (30_encoding.md): an instruction and its code determine each other (R59 to R66, R71, R72), the reserved
opcodes (R70), the length of a request (R67), byte order (R60, R61), the reply decoders (R88 to R90) and the bit order
of a byte (R7, R76). -/

namespace Sys2Proof

open Sys2Proof.Machine

variable {p : Params}

/-! ### Control opcodes -/

/-- A control opcode byte selects exactly the kind and variant that it is the byte of (R72). -/
theorem controlOf_eq_some_iff {op : Byte} {k : ControlKind} {v : OpVariant} :
    controlOf op = some (k, v) ↔ op = controlByte k v := by
  constructor
  · intro h
    unfold controlOf at h
    split_ifs at h with h1 h2 h3 h4 h5 h6 <;> cases h <;> assumption
  · rintro rfl
    cases k <;> cases v <;> rfl

theorem decode_control_eq_ok_iff {op : Byte} {i : Instr} :
    decode p (.control op) = .ok i ↔ ∃ k v, op = controlByte k v ∧ i = controlInstr k v := by
  constructor
  · intro h
    simp only [decode] at h
    split at h <;> cases h
    rename_i k v hc
    exact ⟨k, v, controlOf_eq_some_iff.mp hc, rfl⟩
  · rintro ⟨k, v, rfl, rfl⟩
    exact decode_controlByte k v

@[simp] theorem encode_controlInstr (p : Params) (k : ControlKind) (v : OpVariant) :
    encode p (controlInstr k v) = some (.control (controlByte k v)) := by
  cases k <;> cases v <;> rfl

@[simp] theorem wf_controlInstr (p : Params) (k : ControlKind) (v : OpVariant) : (controlInstr k v).wf p = true := by
  cases k <;> cases v <;> rfl

/-- Only the control commands are written as a control opcode (R72, R79). -/
theorem encode_eq_control {i : Instr} {op : Byte} (h : encode p i = some (.control op)) :
    ∃ k v, op = controlByte k v ∧ i = controlInstr k v := by
  have hc : isControl i = true := by cases i <;> cases h <;> rfl
  obtain ⟨k, v, rfl⟩ := isControl_eq_controlInstr hc
  rw [encode_controlInstr] at h
  cases h
  exact ⟨k, v, rfl, rfl⟩

/-! ### Frames -/

/-- A code is a whole frame if nothing is left after it (R67). -/
theorem decode_frame_eq_ok_iff {b : Bytes} {i : Instr} :
    decode p (.frame b) = .ok i ↔ decodeFrame p b = .ok (i, []) := by
  simp only [decode]
  rcases decodeFrame p b with e | ⟨j, _ | ⟨x, xs⟩⟩ <;> simp

/-- The frame of a well-formed instruction, in front of any bytes, decodes to it and leaves them (R59, R67). -/
theorem decodeFrame_encode [p.Documented] {i : Instr} {f : Bytes} (hwf : i.wf p = true)
    (h : encode p i = some (.frame f)) (rest : Bytes) : decodeFrame p (f ++ rest) = .ok (i, rest) := by
  cases i <;> cases h <;> simp only [Instr.wf, Bool.and_eq_true, addrFits_iff, lenFits_iff] at hwf
  case write s a v => exact decodeFrame_write p s a v hwf rest
  case read s a => exact decodeFrame_read p s a hwf rest
  case streamWrite s a d => exact decodeFrame_streamWrite p s a d hwf.1 hwf.2 rest
  case streamRead s a n => exact decodeFrame_streamRead p s a n hwf.1 hwf.2 rest
  case flush s => exact decodeFrame_flush p s rest

/-- Settles O2: a frame by `decodeFrame_encode`, with nothing after it; a control opcode by the table of R72. -/
theorem decodeOfEncodeIsTheInstruction : Obligations.DecodeOfEncodeIsTheInstruction := by
  intro p i c _ hwf h
  cases c with
  | frame f =>
    have hd := decodeFrame_encode hwf h []
    rw [List.append_nil] at hd
    exact decode_frame_eq_ok_iff.mpr hd
  | control op => exact decode_control_eq_ok_iff.mpr (encode_eq_control h)

/-- Settles O3: a frame by `decodeFrame_inv`, with nothing after it; a control opcode by the table of R72. -/
theorem encodeOfDecodeIsTheCode : Obligations.EncodeOfDecodeIsTheCode := by
  intro p c i _ h
  cases c with
  | frame b =>
    obtain ⟨hwf, f, hf, hb⟩ := decodeFrame_inv b [] i (decode_frame_eq_ok_iff.mp h)
    rw [hb, List.append_nil]
    exact ⟨hwf, hf⟩
  | control op =>
    obtain ⟨k, v, rfl, rfl⟩ := decode_control_eq_ok_iff.mp h
    exact ⟨wf_controlInstr p k v, encode_controlInstr p k v⟩

/-- Settles O1: the decoder, run on each word of X10. -/
theorem writtenOutWordsDecode : Obligations.WrittenOutWordsDecode := by
  intro p _
  refine ⟨?_, ?_, ?_, ?_, ?_, rfl, rfl, rfl, rfl, rfl, rfl⟩ <;>
    simp [decode, decodeFrame, decodeRead, decodeWrite, decodeStreamWrite, decodeStreamRead, fromLe16, fromLe32]

/-! ### The opcode byte and the seq byte -/

theorem decodeFrame_reserved [p.Documented] {seq op : Byte} {rest : Bytes} (h1 : op ≠ 0x01) (h2 : op ≠ 0x02)
    (h3 : op ≠ 0x03) (h4 : op ≠ 0x04) (hF : op ≠ 0xFF) :
    decodeFrame p (seq :: op :: rest) = .error (.noSuchOpcode op) := by
  simp only [decodeFrame, Params.opWrite_doc, Params.opRead_doc, Params.opStreamWrite_doc, Params.opStreamRead_doc,
    Params.opFlush_doc, if_neg h1, if_neg h2, if_neg h3, if_neg h4, if_neg hF]

theorem encode_opcode [p.Documented] {i : Instr} {b : Bytes} (h : encode p i = some (.frame b)) :
    b[1]? = some 0x01 ∨ b[1]? = some 0x02 ∨ b[1]? = some 0x03 ∨ b[1]? = some 0x04 ∨ b[1]? = some 0xFF := by
  cases i <;> cases h
  case write => simp [frameWrite]
  case read => simp [frameRead]
  case streamWrite => simp [frameStreamWrite]
  case streamRead => simp [frameStreamRead]
  case flush => simp [frameFlush]

/-- The instruction with another seq byte in its frame (R152). -/
def Instr.withSeq (q : Byte) : Instr → Instr
  | .write _ a v => .write q a v
  | .read _ a => .read q a
  | .streamWrite _ a d => .streamWrite q a d
  | .streamRead _ a n => .streamRead q a n
  | .flush _ => .flush q
  | i => i

theorem Instr.withSeq_wf (p : Params) (q : Byte) (i : Instr) : (i.withSeq q).wf p = i.wf p := by cases i <;> rfl

/-- The seq byte is the frame's first, and no other byte depends on it (R59). -/
theorem encode_withSeq {i : Instr} {f : Bytes} (q : Byte) (h : encode p i = some (.frame f)) :
    encode p (i.withSeq q) = some (.frame (q :: f.tail)) := by
  cases i <;> cases h <;> rfl

/-- A frame is read with every seq byte, and the bytes after it are left alike (R70). -/
theorem decodeFrame_withSeq [p.Documented] {seq op : Byte} {rest tail : Bytes} {i : Instr} (q : Byte)
    (h : decodeFrame p (seq :: op :: rest) = .ok (i, tail)) :
    decodeFrame p (q :: op :: rest) = .ok (i.withSeq q, tail) := by
  obtain ⟨hwf, f, hf, hb⟩ := decodeFrame_inv _ _ _ h
  have hne : f ≠ [] := by
    rintro rfl
    rcases encode_opcode hf with h | h | h | h | h <;> cases h
  obtain ⟨x, f, rfl⟩ := List.exists_cons_of_ne_nil hne
  have hb' : q :: op :: rest = (q :: f) ++ tail := by simpa using (List.cons.inj hb).2
  rw [hb']
  exact decodeFrame_encode (by rw [Instr.withSeq_wf]; exact hwf) (encode_withSeq q hf) tail

/-- Settles O4: the decoder's last branch, the encoder's layouts, and `decodeFrame_withSeq`. -/
theorem reservedOpcodesSpellNoInstruction : Obligations.ReservedOpcodesSpellNoInstruction := by
  intro p _
  refine ⟨fun seq op rest h1 h2 h3 h4 hF => ?_, fun i b h => encode_opcode h, fun _ seq' _ _ _ i h =>
    ⟨i.withSeq seq', decodeFrame_withSeq seq' h⟩⟩
  have hd := decodeFrame_reserved (p := p) (seq := seq) (rest := rest) h1 h2 h3 h4 hF
  exact ⟨hd, by simp only [Command.instr, decode, hd]⟩

/-- `reqLen` of a frame followed by anything, by the five layouts (R67). -/
theorem reqLen_encode [p.Documented] {i : Instr} {b : Bytes} (hwf : i.wf p = true) (h : encode p i = some (.frame b))
    (tail : Bytes) : reqLen p (b ++ tail) = some b.length := by
  cases i <;> cases h
  case write => simp [reqLen, frameWrite, le16, le32]
  case read => simp [reqLen, frameRead, le16]
  case streamWrite s a d =>
    simp only [Instr.wf, Bool.and_eq_true, lenFits_iff] at hwf
    have hn := fromLe16_le16 d.length hwf.2
    have hl : (frameStreamWrite p s a d).length = 6 + d.length := by
      simp only [frameStreamWrite, le16, List.length_append, List.length_cons, List.length_nil, Nat.reduceAdd]
    rw [hl]
    simp [reqLen, frameStreamWrite, le16, hn]
  case streamRead => simp [reqLen, frameStreamRead, le16]
  case flush => simp [reqLen, frameFlush]

/-- Settles O5: `reqLen_encode`, and the last branch of `reqLen`. -/
theorem requestLengthFollowsTheOpcode : Obligations.RequestLengthFollowsTheOpcode := by
  intro p _
  refine ⟨fun i b tail hwf h => reqLen_encode hwf h tail, fun seq op rest h1 h2 h3 h4 hF => ?_⟩
  simp only [reqLen, Params.opWrite_doc, Params.opRead_doc, Params.opStreamWrite_doc, Params.opStreamRead_doc,
    Params.opFlush_doc, if_neg h1, if_neg h2, if_neg h3, if_neg h4, if_neg hF]

/-! ### Byte order, the reply decoders, and the bit order of a byte -/

/-- The weighted sum of four bytes fits a word (R61). -/
theorem fromLe32_toNat (b0 b1 b2 b3 : Byte) :
    (fromLe32 b0 b1 b2 b3).toNat = b0.toNat + 2 ^ 8 * b1.toNat + 2 ^ 16 * b2.toNat + 2 ^ 24 * b3.toNat := by
  have := b0.isLt; have := b1.isLt; have := b2.isLt; have := b3.isLt
  rw [fromLe32, BitVec.toNat_ofNat, Nat.mod_eq_of_lt (by omega)]

/-- Settles O6: the bytes stand in the definitions; `fromLe16_le16`, `fromLe32_le32` and `fromLe32_toNat` are the
inverse. -/
theorem packingRoundTrips : Obligations.PackingRoundTrips := by
  refine ⟨fun x hx => ⟨_, _, rfl, ?_, ?_, fromLe16_le16 x (by omega)⟩, fun _ _ => rfl,
    fun x => ⟨_, _, _, _, rfl, rfl, rfl, rfl, rfl, fromLe32_le32 x⟩, fromLe32_toNat⟩
  · simp
  · simp only [BitVec.toNat_ofNat]; omega

theorem decReadResponse_of_length_ne {b : Bytes} (h : b.length ≠ 4) : decReadResponse b = .error .peLen := by
  unfold decReadResponse
  split
  · exact absurd rfl h
  · rfl

/-- Settles O8: each decoder's test of the length, either way. -/
theorem decodersCheckTheLength : Obligations.DecodersCheckTheLength := by
  intro p b n _
  refine ⟨decReadResponse_of_length_ne, fun _ _ _ _ => rfl, fun h => ?_, fun h => ?_, fun h => ?_,
    fun e0 e1 payload h => ?_⟩
  · simp [decWriteAck, h]
  · simp [decWriteAck, h]
  · simp [decStreamReadReply, h]
  · simp [decStreamReadReply, h]

/-- The sum that `bitrev8` writes out, as a number given bit by bit, the lowest one outermost (R7). -/
theorem bitrev8_eq_bits (x : Byte) :
    bitrev8 x = BitVec.ofNat 8 (Nat.bit (x.getLsbD 7) (Nat.bit (x.getLsbD 6) (Nat.bit (x.getLsbD 5)
      (Nat.bit (x.getLsbD 4) (Nat.bit (x.getLsbD 3) (Nat.bit (x.getLsbD 2) (Nat.bit (x.getLsbD 1)
      (Nat.bit (x.getLsbD 0) 0)))))))) := by
  simp only [bitrev8, Nat.bit_val]
  congr 1
  omega

theorem bitrev8_getLsbD (x : Byte) {i : Nat} (h : i < 8) : (bitrev8 x).getLsbD i = x.getLsbD (7 - i) := by
  rw [bitrev8_eq_bits]
  rw [BitVec.getLsbD_ofNat, decide_eq_true h, Bool.true_and]
  interval_cases i <;> simp only [Nat.testBit_bit_succ, Nat.testBit_bit_zero]

/-- Settles O10: `bitrev8_getLsbD` for every byte; the eight bytes of the markers are computed. -/
theorem bitReversalSwapsTheMarkers : Obligations.BitReversalSwapsTheMarkers := by
  refine ⟨fun x i => bitrev8_getLsbD x, fun p hp => ?_⟩
  rw [hp.syncN, hp.syncR]
  exact ⟨rfl, rfl, by decide, by decide⟩

end Sys2Proof
end

section
/-! The ATR parser (42_atr_parser.md): an ATR given by its parts is received part by part (R74, R107 to R116, R119). -/

namespace Sys2Proof.Machine

variable {p : Params}

/-! ### Parts received one after another -/

/-- ATU after it received and stored the parts, one request each. -/
def Atu.took (parts : List Bytes) (rest : List AAnswer) (a : Atu) : Atu :=
  { a with answers := rest, trace := a.trace ++ parts.map fun b => ⟨b.length, .bytes b⟩
           buf := a.buf.writeN a.consumed parts.flatten, consumed := a.consumed + parts.flatten.length }

theorem Atu.took_took (xs ys : List Bytes) (r rest : List AAnswer) (a : Atu) :
    (a.took xs r).took ys rest = a.took (xs ++ ys) rest := by
  simp only [Atu.took, Memory.writeN_append, List.flatten_append, List.map_append, List.append_assoc,
    List.length_append, Nat.add_assoc]

/-- The receives of the historical bytes, or of the check byte: an empty part makes no request (R113, R115). -/
def partReceives (b : Bytes) : List Bytes := if b.isEmpty then [] else [b]

@[simp] theorem partReceives_flatten (b : Bytes) : (partReceives b).flatten = b := by cases b <;> simp [partReceives]

theorem partReceives_map {α : Type} (b : Bytes) (f : Bytes → α) :
    (partReceives b).map f = if b.isEmpty then [] else [f b] := by
  unfold partReceives; split <;> rfl

theorem atrReceives_eq (p : Params) (t0 : Byte) (gs : List Bytes) (hist check : Bytes) :
    atrReceives p t0 gs hist check = [[p.atrTs, t0]] ++ gs ++ partReceives hist ++ partReceives check := by
  have h := filter_nonempty_pair hist check id
  rw [List.map_id] at h
  simp [atrReceives, h, partReceives]

theorem atrReceives_flatten (p : Params) (t0 : Byte) (gs : List Bytes) (hist check : Bytes) :
    (atrReceives p t0 gs hist check).flatten = [p.atrTs, t0] ++ gs.flatten ++ hist ++ check := by
  simp [atrReceives_eq]

/-! ### The turns of the loop -/

/-- The first two bytes, with the right TS (R109). -/
theorem Atu.initial_took (a : Atu) (t0 : Byte) (rest : List AAnswer) (hs : a.state = .expectInitial)
    (hr : a.consumed + 2 ≤ p.atrMax) (ha : a.answers = .bytes [p.atrTs, t0] :: rest) :
    a.step p = .next { a.took [[p.atrTs, t0]] rest with
      state := .expectInterfaceChain, k := lowNibble t0, tdx := t0 } := by
  simp only [Atu.step, hs, Atu.initial, Atu.receive, ha]
  rw [if_pos (show AAnswer.allowed 2 (.bytes [p.atrTs, t0]) = true from rfl), Atu.append_next _ _ (by exact hr)]
  simp [andThen, Atu.event, Atu.took]

/-- The chain ends where TDx declares no byte (R110). -/
theorem Atu.chainEnd_step (a : Atu) (hs : a.state = .expectInterfaceChain)
    (h : popcount4 (highNibble a.tdx) = 0) : a.step p = .next { a with state := .expectHistorical } := by
  simp only [Atu.step, hs, Atu.interfaceChain, Atu.groupLen, h, if_true]

/-- The historical bytes, if there are any (R113, R114). -/
theorem Atu.historical_took (a : Atu) (hist : Bytes) (rest : List AAnswer) (hs : a.state = .expectHistorical)
    (hk : hist.length = a.k.toNat) (hr : a.consumed + hist.length ≤ p.atrMax)
    (ha : a.answers = (partReceives hist).map .bytes ++ rest) :
    a.step p = .next { a.took (partReceives hist) rest with state := .expectCheckByte } := by
  rw [partReceives_map] at ha
  rw [Atu.historical_step a hist rest hs hk hr ha]
  simp only [Atu.took, partReceives_flatten, partReceives_map]

/-- The check byte, if one is declared, and the end: all bytes consumed are returned (R115, R116). -/
theorem Atu.checkByte_took (a : Atu) (check atr : Bytes) (rest : List AAnswer) (hs : a.state = .expectCheckByte)
    (hk : check.length = if a.needsCheck then 1 else 0) (hr : a.consumed + check.length ≤ p.atrMax)
    (ha : a.answers = (partReceives check).map .bytes ++ rest)
    (hd : (a.took (partReceives check) rest).buf.readN 0 (a.took (partReceives check) rest).consumed = some atr) :
    a.step p = .next { a.took (partReceives check) rest with
      state := .idle, results := a.results ++ [.ok (.bytes atr)] } := by
  rw [partReceives_map] at ha
  simp only [Atu.took, partReceives_flatten] at hd
  rw [Atu.checkByte_step a check atr rest hs hk hr ha hd]
  simp only [Atu.took, partReceives_flatten, partReceives_map]

/-! ### A whole ATR -/

/-- TS, T0 and the interface groups, up to the end of the chain (R109 to R112). -/
theorem Atu.run_head (a : Atu) (t0 : Byte) (gs : List Bytes) (rest : List AAnswer) (hs : a.state = .expectInitial)
    (hg : groupsFrom t0 gs) (hl : a.consumed + 2 + gs.flatten.length ≤ p.atrMax)
    (ha : a.answers = .bytes [p.atrTs, t0] :: (gs.map .bytes ++ rest)) :
    Atu.run p (gs.length + 1 + 1) a = .next { a.took ([[p.atrTs, t0]] ++ gs) rest with
      state := .expectHistorical, k := lowNibble t0, tdx := lastTdx t0 gs
      needsCheck := a.needsCheck || checkDeclared t0 gs } := by
  rw [Atu.run, Atu.initial_took a t0 _ hs (by omega) ha]
  simp only [andThen]
  rw [Atu.run_add, Atu.groups_run (rest := rest)]
  · simp only [andThen]
    rw [Atu.run, Atu.chainEnd_step]
    · simp only [andThen, Atu.run, ← Atu.took_took _ gs (gs.map .bytes ++ rest)]
      rfl
    · rfl
    · exact lastTdx_popcount t0 gs hg
  · rfl
  · exact hg
  · exact hl
  · rfl

/-- The historical bytes, the check byte and the end (R113 to R116). -/
theorem Atu.run_tail (a : Atu) (hist check atr : Bytes) (rest : List AAnswer) (hs : a.state = .expectHistorical)
    (hk : hist.length = a.k.toNat) (hd : check.length = if a.needsCheck then 1 else 0)
    (hl : a.consumed + hist.length + check.length ≤ p.atrMax)
    (ha : a.answers = (partReceives hist).map .bytes ++ ((partReceives check).map .bytes ++ rest))
    (hr : (a.took (partReceives hist ++ partReceives check) rest).buf.readN 0
      (a.took (partReceives hist ++ partReceives check) rest).consumed = some atr) :
    Atu.run p 2 a = .next { a.took (partReceives hist ++ partReceives check) rest with
      state := .idle, results := a.results ++ [.ok (.bytes atr)] } := by
  rw [← Atu.took_took _ _ ((partReceives check).map .bytes ++ rest)] at hr ⊢
  rw [Atu.run, Atu.historical_took a hist _ hs hk (by omega) ha]
  simp only [andThen]
  rw [Atu.run, Atu.checkByte_took (check := check) (atr := atr) (rest := rest)]
  · rfl
  · rfl
  · exact hd
  · simpa only [Atu.took, partReceives_flatten] using hl
  · rfl
  · exact hr

/-- An ATR of any layout, from the start of ATR_RECEIVE to its result (R107, R119). -/
theorem Atu.run_atr (a : Atu) (t0 : Byte) (gs : List Bytes) (hist check atr : Bytes) (rest : List AAnswer)
    (hs : a.state = .expectInitial) (hc : a.consumed = 0) (hn : a.needsCheck = false) (hg : groupsFrom t0 gs)
    (hk : hist.length = (lowNibble t0).toNat) (hd : check.length = if checkDeclared t0 gs then 1 else 0)
    (hatr : atr = (atrReceives p t0 gs hist check).flatten) (hl : atr.length ≤ p.atrMax)
    (ha : a.answers = (atrReceives p t0 gs hist check).map .bytes ++ rest) :
    Atu.run p (gs.length + 1 + 1 + 2) a = .next { a.took (atrReceives p t0 gs hist check) rest with
      state := .idle, k := lowNibble t0, tdx := lastTdx t0 gs, needsCheck := checkDeclared t0 gs
      results := a.results ++ [.ok (.bytes atr)] } := by
  have hr : (a.took (atrReceives p t0 gs hist check) rest).buf.readN 0
      (a.took (atrReceives p t0 gs hist check) rest).consumed = some atr := by
    simp only [Atu.took, hc, Nat.zero_add, ← hatr, Memory.readN_writeN_same]
  rw [atrReceives_flatten] at hatr
  simp only [hatr, List.length_append, List.length_cons, List.length_nil] at hl
  rw [atrReceives_eq, List.append_assoc] at hr ha ⊢
  rw [← Atu.took_took _ _ ((partReceives hist).map .bytes ++ ((partReceives check).map .bytes ++ rest))] at hr ⊢
  rw [Atu.run_add, Atu.run_head a t0 gs _ hs hg (by omega) (by simpa using ha)]
  simp only [andThen]
  rw [Atu.run_tail (hist := hist) (check := check) (atr := atr) (rest := rest)]
  · simp only [hn, Bool.false_or]; rfl
  · rfl
  · exact hk
  · simpa only [hn, Bool.false_or] using hd
  · simp only [Atu.took, hc, List.flatten_append, List.flatten_singleton, List.length_append, List.length_cons,
      List.length_nil]
    omega
  · rfl
  · exact hr

/-- The turns that `run_atr` needs are within the fuel of `Atu.advance`: three of them make no receive. -/
theorem atrReceives_length (p : Params) (t0 : Byte) (gs : List Bytes) (hist check : Bytes) :
    gs.length + 1 ≤ (atrReceives p t0 gs hist check).length := by
  simp [atrReceives]

/-- Settles O38: `Atu.run_atr`, within the fuel of the command. -/
theorem atrOfAnyLayoutIsReturned : Obligations.AtrOfAnyLayoutIsReturned := by
  intro s t0 gs hist check rest hp hs hg hk hd atr hl ha
  have hatr : atr = (atrReceives s.params t0 gs hist check).flatten := by rw [atrReceives_flatten, hp.atrTs]
  have hrun := Atu.run_atr (p := s.params) s.atu.start t0 gs hist check atr rest rfl rfl rfl hg hk hd hatr
    (by rw [hp.atrMax]; exact hl) ha
  have hfuel : gs.length + 1 + 1 + 2 ≤ s.atu.start.answers.length + 3 := by
    have := atrReceives_length s.params t0 gs hist check
    simp only [Atu.start_answers, ha, List.length_append, List.length_map]
    omega
  simp only [exec, execAtrReceive, hs, Atu.advance, Atu.run_ge s.params hfuel hrun rfl, State.onAtu, andThen, Atu.took,
    ← hatr, Atu.start_consumed, Nat.zero_add]
  rfl

end Sys2Proof.Machine
end

section
/-! The control commands of an upload (43_bitstream.md): what each outcome of their one request makes of BSU (R72, R127
to R132, R135). -/

namespace Sys2Proof.Machine

variable {p : Params} {b : Bsu} {rest : List CAnswer}

/-! ### A control request, by its outcome -/

/-- BSU after a control request had its outcome (R16, R19). -/
def Bsu.answered (e : CEvent) (rest : List CAnswer) (b : Bsu) : Bsu :=
  { b with answers := rest, trace := b.trace ++ [e] }

/-- BSU after a control request had its outcome, and the command its result (R133, R142). -/
def Bsu.ended (e : CEvent) (ok : Bool) (rest : List CAnswer) (v : Result) (b : Bsu) : Bsu :=
  { b with state := .idle, ctrlOk := ok, answers := rest, trace := b.trace ++ [e], results := b.results ++ [v] }

section CWrite

variable (op : Byte) (data : Bytes) (k : Nat → Bsu → Bsu)

theorem Bsu.ctrlWrite_waits (h : b.answers = []) : b.ctrlWrite op data k = b := by
  simp only [Bsu.ctrlWrite, h]

theorem Bsu.ctrlWrite_transferred {m : Nat} (h : b.answers = .write (.transferred m) :: rest) :
    b.ctrlWrite op data k = k m (b.answered (cwrite op data b.timeout (.transferred m)) rest) := by
  simp only [Bsu.ctrlWrite, h]; rfl

theorem Bsu.ctrlWrite_timeout (h : b.answers = .write .timeout :: rest) :
    b.ctrlWrite op data k = b.ended (cwrite op data b.timeout .timeout) false rest (.err .toCtrl) := by
  simp only [Bsu.ctrlWrite, h]; rfl

theorem Bsu.ctrlWrite_transferError (h : b.answers = .write .transferError :: rest) :
    b.ctrlWrite op data k = b.ended (cwrite op data b.timeout .transferError) b.ctrlOk rest (.err .teCtrl) := by
  simp only [Bsu.ctrlWrite, h]; rfl

end CWrite

section CRead

variable (op : Byte) (n : Nat) (k : Bytes → Bsu → Bsu)

theorem Bsu.ctrlRead_waits (h : b.answers = []) : b.ctrlRead op n k = b := by
  simp only [Bsu.ctrlRead, h]

theorem Bsu.ctrlRead_bytes {st : Bytes} (hn : st.length ≤ n) (h : b.answers = .read (.bytes st) :: rest) :
    b.ctrlRead op n k = k st (b.answered (cread op n b.timeout (.bytes st)) rest) := by
  simp only [Bsu.ctrlRead, h, ReadOutcome.allowed, decide_eq_true hn, if_true]; rfl

theorem Bsu.ctrlRead_timeout (h : b.answers = .read .timeout :: rest) :
    b.ctrlRead op n k = b.ended (cread op n b.timeout .timeout) false rest (.err .toCtrl) := by
  simp only [Bsu.ctrlRead, h, ReadOutcome.allowed, if_true]; rfl

theorem Bsu.ctrlRead_transferError (h : b.answers = .read .transferError :: rest) :
    b.ctrlRead op n k = b.ended (cread op n b.timeout .transferError) b.ctrlOk rest (.err .teCtrl) := by
  simp only [Bsu.ctrlRead, h, ReadOutcome.allowed, if_true]; rfl

end CRead

/-! ### The three commands -/

/-- The control command that BSU_STATE and its opcode parameter select is one step of BSU (R121, log 15). -/
theorem exec_control_selected {k : ControlKind} {v : OpVariant} {s : State} {b b' : Bsu}
    (hk : s.bsu.selected = some k) (hv : variantOf s.params k = v) (hstep : s.bsu.step s.params = .next b)
    (h : b = b') : exec (controlInstr k v) s = .next { s with bsu := b' } := by
  rw [exec_control, Bsu.control_eq_step _ _ _ _ hk hv, hstep, h]; rfl

/-- Settles O44: `ResetCmd` makes one CWrite with no payload, by its outcome. -/
theorem controlResetFollowsItsRule : Obligations.ControlResetFollowsItsRule := by
  intro v s rest hs hv ev
  have hk : s.bsu.selected = some .reset := by simp only [Bsu.selected, hs]
  have hstep : s.bsu.step s.params = .next (s.bsu.resetCommand (if v = .main then 0x31 else 0x60)) := by
    simp only [Bsu.step, hs, hv, controlByte_reset]
  exact ⟨fun ha => exec_control_selected hk hv hstep (Bsu.ctrlWrite_waits _ _ _ ha),
    fun _ ha => exec_control_selected hk hv hstep (Bsu.ctrlWrite_transferred _ _ _ ha),
    fun ha => exec_control_selected hk hv hstep (Bsu.ctrlWrite_timeout _ _ _ ha),
    fun ha => exec_control_selected hk hv hstep (Bsu.ctrlWrite_transferError _ _ _ ha)⟩

/-- What follows the acknowledged length `m` of the chunk `c` (R129). -/
def Bsu.afterChunk (p : Params) (c : Bytes) (m : Nat) (b : Bsu) : Bsu :=
  if m = c.length then Bsu.nextChunk p { b with chunkIdx := b.chunkIdx + 1 } else b.raise .peChunkLen

/-- A chunk that is left is sent by one CWrite (R129). -/
theorem Bsu.sendChunk_eq_ctrlWrite (op : Byte) {c : Bytes} (hlt : b.chunkIdx < chunkCount p b.len)
    (hc : b.buf.readN (b.chunkIdx * p.chunk) (chunkLen p b.len b.chunkIdx) = some c) :
    b.sendChunk p op = .next (b.ctrlWrite op c (Bsu.afterChunk p c)) := by
  simp only [Bsu.sendChunk, if_pos hlt, memRead_def, hc, andThen]; rfl

/-- The chunk's own length acknowledged advances BSU_CHUNK_IDX; the status read follows the last one (R121, R129). -/
theorem Bsu.afterChunk_acknowledged (p : Params) (c : Bytes) (b : Bsu) :
    Bsu.afterChunk p c c.length b =
      { b with state := if b.chunkIdx + 1 < chunkCount p b.len then b.state else .status
               chunkIdx := b.chunkIdx + 1 } := by
  simp only [Bsu.afterChunk, if_true, Bsu.nextChunk]; split <;> rfl

/-- Settles O45: `SendChunk` makes one CWrite with the chunk, by its outcome. -/
theorem controlSendChunkFollowsItsRule : Obligations.ControlSendChunkFollowsItsRule := by
  intro v s rest c hs hv hlt hc ev
  have hk : s.bsu.selected = some .sendChunk := by simp only [Bsu.selected, hs]
  have hstep : s.bsu.step s.params = .next
      (s.bsu.ctrlWrite (if v = .main then 0x32 else 0x34) c (Bsu.afterChunk s.params c)) := by
    simp only [Bsu.step, hs, hv, controlByte_chunk, Bsu.sendChunk_eq_ctrlWrite _ hlt hc]
  refine ⟨fun ha => exec_control_selected hk hv hstep (Bsu.ctrlWrite_waits _ _ _ ha),
    fun ha => exec_control_selected hk hv hstep ?_, fun m hm ha => exec_control_selected hk hv hstep ?_,
    fun ha => exec_control_selected hk hv hstep (Bsu.ctrlWrite_timeout _ _ _ ha),
    fun ha => exec_control_selected hk hv hstep (Bsu.ctrlWrite_transferError _ _ _ ha)⟩
  · rw [Bsu.ctrlWrite_transferred _ _ _ ha, Bsu.afterChunk_acknowledged]
    simp only [Bsu.answered, hs, ev]
  · rw [Bsu.ctrlWrite_transferred _ _ _ ha, Bsu.afterChunk, if_neg hm]
    rfl

/-- Settles O46: `Status` makes one CRead, by its outcome; of a reply byte 0 decides, if there is one. -/
theorem controlStatusFollowsItsRule : Obligations.ControlStatusFollowsItsRule := by
  intro v s rest hs hv ev ends
  have hk : s.bsu.selected = some .status := by simp only [Bsu.selected, hs]
  have hstep : s.bsu.step s.params = .next (s.bsu.statusRead s.params (if v = .main then 0x30 else 0x33)) := by
    simp only [Bsu.step, hs, hv, controlByte_status]
  refine ⟨fun ha => exec_control_selected hk hv hstep (Bsu.ctrlRead_waits _ _ _ ha),
    fun ha => exec_control_selected hk hv hstep (Bsu.ctrlRead_bytes _ _ _ (Nat.zero_le _) ha),
    fun c more hl ha => exec_control_selected hk hv hstep ((Bsu.ctrlRead_bytes _ _ _ hl ha).trans ?_),
    fun ha => exec_control_selected hk hv hstep (Bsu.ctrlRead_timeout _ _ _ ha),
    fun ha => exec_control_selected hk hv hstep (Bsu.ctrlRead_transferError _ _ _ ha)⟩
  by_cases hc : c = 0x00
  · simp only [if_pos hc]; rfl
  · simp only [if_neg hc]; rfl

end Sys2Proof.Machine
end

section
/-! The encoders of the Frame Codec Unit (40_frame_codec.md): what each frame holds byte by byte, and when an encoder
gives it (R81 to R87). -/

namespace Sys2Proof

open Sys2Proof.Machine

variable {p : Params}

/-! ### The layouts -/

/-- The bytes of a word as quotients of its value (R61). -/
theorem le32_eq_quotients (x : Word) :
    le32 x = [BitVec.ofNat 8 x.toNat, BitVec.ofNat 8 (x.toNat / 2 ^ 8), BitVec.ofNat 8 (x.toNat / 2 ^ 16),
      BitVec.ofNat 8 (x.toNat / 2 ^ 24)] := by
  simp only [le32, extractLsb_byte, pow_zero, Nat.div_one]

theorem frameRead_layout [p.Documented] (seq : Byte) (addr : Nat) :
    frameRead p seq addr = [seq, 0x02, BitVec.ofNat 8 addr, BitVec.ofNat 8 (addr / 256)] := by
  rw [frameRead, Params.opRead_doc]; rfl

theorem frameWrite_layout [p.Documented] (seq : Byte) (addr : Nat) (value : Word) :
    frameWrite p seq addr value =
      [seq, 0x01, BitVec.ofNat 8 addr, BitVec.ofNat 8 (addr / 256), BitVec.ofNat 8 value.toNat,
        BitVec.ofNat 8 (value.toNat / 2 ^ 8), BitVec.ofNat 8 (value.toNat / 2 ^ 16),
        BitVec.ofNat 8 (value.toNat / 2 ^ 24)] := by
  rw [frameWrite, Params.opWrite_doc, le32_eq_quotients]; rfl

theorem frameStreamWrite_layout [p.Documented] (seq : Byte) (addr : Nat) (data : Bytes) :
    frameStreamWrite p seq addr data =
      [seq, 0x03, BitVec.ofNat 8 addr, BitVec.ofNat 8 (addr / 256), BitVec.ofNat 8 data.length,
        BitVec.ofNat 8 (data.length / 256)] ++ data := by
  rw [frameStreamWrite, Params.opStreamWrite_doc]; rfl

theorem frameStreamRead_layout [p.Documented] (seq : Byte) (addr length : Nat) :
    frameStreamRead p seq addr length =
      [seq, 0x04, BitVec.ofNat 8 addr, BitVec.ofNat 8 (addr / 256), BitVec.ofNat 8 length,
        BitVec.ofNat 8 (length / 256)] := by
  rw [frameStreamRead, Params.opStreamRead_doc]; rfl

theorem frameFlush_layout [p.Documented] (seq : Byte) : frameFlush p seq = [seq, 0xFF] := by
  rw [frameFlush, Params.opFlush_doc]

/-! ### The checks -/

/-- Settles O7: the encoders' tests by `validAddr_iff` and `validLen_iff`, the frames by their layouts. -/
theorem encodersCheckThenLayOut : Obligations.EncodersCheckThenLayOut := by
  intro p seq addr length value data _
  refine ⟨?_, ?_, ?_, ?_, frameFlush_layout seq⟩
  · simp only [encRead, validAddr_iff, frameRead_layout]
  · simp only [encWrite, validAddr_iff, frameWrite_layout]
  · simp only [encStreamWrite, validAddr_iff, validLen_iff, frameStreamWrite_layout]
  · simp only [encStreamRead, validAddr_iff, validLen_iff, frameStreamRead_layout]

/-- `ENC_WRITE` gives no other bytes than the frame's, for every choice of the parameters (R82). -/
theorem encWrite_eq_ok {seq : Byte} {addr : Nat} {value : Word} {frame : Bytes}
    (h : encWrite p seq addr value = .ok frame) : frame = frameWrite p seq addr value := by
  unfold encWrite at h
  split at h <;> cases h
  rfl

/-- The value stands after the seq byte, the opcode and the two address bytes (R63). -/
theorem frameWrite_drop_four (p : Params) (seq : Byte) (addr : Nat) (value : Word) :
    (frameWrite p seq addr value).drop 4 = le32 value := rfl

/-- The read decoder undoes `le32` (R61, R88). -/
theorem decReadResponse_le32 (x : Word) : decReadResponse (le32 x) = .ok x :=
  congrArg Except.ok (fromLe32_le32 x)

/-- Settles O9: the last four bytes of the frame are `le32` of the value, which the decoder undoes. -/
theorem writtenValueReadsBack : Obligations.WrittenValueReadsBack := by
  intro p seq addr value frame h
  rw [encWrite_eq_ok h, frameWrite_drop_four, decReadResponse_le32]

end Sys2Proof
end

section
/-! The register bus (41_register_bus.md): each command against its pseudocode (R93 to R101), SEQ and LINK_OK over the
commands and steps (R91, R102), and how an RB_POLL ends (R100, R168). -/

namespace Sys2Proof.Machine

variable {p : Params}

/-! ### How each command starts -/

section Starts

variable [p.Documented]

theorem Rbu.startStreamRead_addr {addr : Nat} (length : Nat) (t : Timeout) (r : Rbu) (ha : 0xFFFF ≤ addr) :
    r.startStreamRead p addr length t = r.raise .ipAddr := by
  simp [Rbu.startStreamRead, encStreamRead, validAddr_false ha]

theorem Rbu.startStreamRead_len {addr length : Nat} (t : Timeout) (r : Rbu) (ha : addr < 0xFFFF)
    (hl : 0xFFFF < length) : r.startStreamRead p addr length t = r.raise .ipLen := by
  simp [Rbu.startStreamRead, encStreamRead, validAddr_true ha, validLen_false hl]

theorem Rbu.startStreamRead_ok {addr length : Nat} (t : Timeout) (r : Rbu) (ha : addr < 0xFFFF)
    (hl : length ≤ 0xFFFF) :
    r.startStreamRead p addr length t =
      Rbu.await (.send ⟨frameStreamRead p r.seq addr length, length + 2, t, .payload length⟩)
        { r with seq := r.seq + 1 } := by
  simp [Rbu.startStreamRead, encStreamRead, validAddr_true ha, validLen_true hl, Rbu.bumpSeq_doc]

theorem Rbu.startStreamWrite_addr {addr : Nat} (data : Bytes) (t : Timeout) (r : Rbu) (ha : 0xFFFF ≤ addr) :
    r.startStreamWrite p addr data t = r.raise .ipAddr := by
  simp [Rbu.startStreamWrite, encStreamWrite, validAddr_false ha]

theorem Rbu.startStreamWrite_len {addr : Nat} {data : Bytes} (t : Timeout) (r : Rbu) (ha : addr < 0xFFFF)
    (hl : 0xFFFF < data.length) : r.startStreamWrite p addr data t = r.raise .ipLen := by
  simp [Rbu.startStreamWrite, encStreamWrite, validAddr_true ha, validLen_false hl]

theorem Rbu.startStreamWrite_ok {addr : Nat} {data : Bytes} (t : Timeout) (r : Rbu) (ha : addr < 0xFFFF)
    (hl : data.length ≤ 0xFFFF) :
    r.startStreamWrite p addr data t =
      Rbu.await (.send ⟨frameStreamWrite p r.seq addr data, 2, t, .ack⟩) { r with seq := r.seq + 1 } := by
  simp [Rbu.startStreamWrite, encStreamWrite, validAddr_true ha, validLen_true hl, Rbu.bumpSeq_doc]

theorem Rbu.startFlush_eq (t : Timeout) (r : Rbu) :
    r.startFlush p t =
      Rbu.await (.send ⟨[r.seq, 0xFF], p.flushRespLen, t, .ignore⟩) { r with seq := r.seq + 1 } := by
  rw [Rbu.startFlush, Rbu.bumpSeq_doc, encFlush, frameFlush_layout]

theorem Rbu.startBatch_addr {pairs : List (Nat × Word)} (t : Timeout) (r : Rbu) (h : ∃ q ∈ pairs, 0xFFFF ≤ q.1) :
    r.startBatch p pairs t = r.raise .ipAddr := by
  obtain ⟨q, hq, ha⟩ := h
  exact if_neg fun hall => by simpa [validAddr_false ha] using List.all_eq_true.mp hall q hq

theorem Rbu.startBatch_ok {pairs : List (Nat × Word)} (t : Timeout) (r : Rbu) (h : ∀ q ∈ pairs, q.1 < 0xFFFF)
    (hne : pairs ≠ []) :
    r.startBatch p pairs t =
      Rbu.await (.send ⟨batchRequest p r.seq pairs, 2 * pairs.length, t, .acks⟩)
        { r with seq := r.seq + BitVec.ofNat 8 pairs.length } := by
  have hall : (pairs.all fun q => validAddr p q.1) = true := List.all_eq_true.mpr fun q hq => validAddr_true (h q hq)
  obtain _ | ⟨q, qs⟩ := pairs
  · exact absurd rfl hne
  · rw [Rbu.startBatch, if_pos hall]
    simp only [batchFrames_eq, Params.ackLen_doc, seqAfter_doc]

theorem Rbu.startPoll_addr {addr : Nat} (mask expected : Word) (t : Timeout) (r : Rbu) (ha : 0xFFFF ≤ addr) :
    r.startPoll p addr mask expected t = r.raise .ipAddr := by
  simp [Rbu.startPoll, validAddr_false ha]

theorem Rbu.startPoll_ok {addr : Nat} (mask expected : Word) (t : Timeout) (r : Rbu) (ha : addr < 0xFFFF) :
    r.startPoll p addr mask expected t = r.await (.tick addr mask expected t) := by
  simp [Rbu.startPoll, validAddr_true ha]

end Starts

/-! ### Commands of one transfer -/

theorem Rbu.advance_idle {r : Rbu} (h : r.state = .idle) : r.advance p = r := Rbu.run_idle p _ r h

/-- An accepted command that ends before it makes any event (R86, R87, R95). -/
theorem busEnds_deliver (s : State) (start : Rbu → Rbu) (v : Result) (hr : s.rbuReady)
    (h : start s.rbu = s.rbu.deliver v) :
    s.onRbu (s.rbu.accept s.params start) = .next (s.busEnds ⟨[], v, false, s.rbu.seq, s.rbu.answers⟩) := by
  apply busEnds_of s start _ hr
  rw [h, Rbu.advance_idle rfl]
  simp [Rbu.deliver, Rbu.endsAs]

/-- An accepted command that is one transfer, whose reply is only delivered (R92). -/
theorem busEnds_send (s : State) (start : Rbu → Rbu) (x : Xfer) {sq : Byte} {finish : Bytes → Result} {e : BusEnd}
    (hr : s.rbuReady) (hstart : start s.rbu = Rbu.await (.send x) { s.rbu with seq := sq })
    (hfin : ∀ (b : Bytes) (r : Rbu), b.length = x.n → r.onReply s.params x b = r.deliver (finish b))
    (h : xferSpec x.req x.n x.t sq finish s.rbu.answers = some e) :
    s.onRbu (s.rbu.accept s.params start) = .next (s.busEnds e) := by
  apply busEnds_of s start e hr
  rw [hstart]
  exact Rbu.send_endsAs _ _ x sq finish e hfin h

/-- Settles O15: the address check, or one transfer whose reply `readResult` decodes. -/
theorem readFollowsItsRule : Obligations.ReadFollowsItsRule := fun s _ _ _ hr =>
  ⟨fun ha => busEnds_err s _ _ hr (Rbu.startRead_err _ _ _ _ _ ha),
   fun ha _ h => busEnds_send s _ _ hr (Rbu.startRead_ok _ _ _ _ _ ha)
    (fun b r hb => Rbu.onReply_value s.params _ _ _ b r hb) h⟩

/-- Settles O16: the address check, or one transfer whose ack has its length by R17. -/
theorem writeFollowsItsRule : Obligations.WriteFollowsItsRule := fun s _ _ _ _ hr =>
  ⟨fun ha => busEnds_err s _ _ hr (Rbu.startWrite_err _ _ _ _ _ ha),
   fun ha _ h => busEnds_send s _ _ hr (Rbu.startWrite_ok _ _ _ _ _ ha)
    (fun b r hb => Rbu.onReply_ack s.params _ _ _ b r hb) h⟩

/-- Settles O17: the address check of every pair, no event for no pair, or one transfer whose acks are ignored. -/
theorem batchFollowsItsRule : Obligations.BatchFollowsItsRule := fun s _ _ hr =>
  ⟨fun ha => busEnds_err s _ _ hr (Rbu.startBatch_addr _ _ ha),
   busEnds_deliver s (Rbu.startBatch s.params [] s.cmdTimeout) _ hr rfl,
   fun ha hne _ h => busEnds_send s _ _ hr (Rbu.startBatch_ok _ _ ha hne) (fun _ _ _ => rfl) h⟩

/-- Settles O18: the address check, the length check, or one transfer whose reply `payloadResult` splits. -/
theorem streamReadFollowsItsRule : Obligations.StreamReadFollowsItsRule := fun s _ _ _ _ hr =>
  ⟨fun ha => busEnds_err s _ _ hr (Rbu.startStreamRead_addr _ _ _ ha),
   fun ha hl => busEnds_err s _ _ hr (Rbu.startStreamRead_len _ _ ha hl),
   fun ha hl _ h => busEnds_send s _ _ hr (Rbu.startStreamRead_ok _ _ ha hl)
    (fun b r hb => Rbu.onReply_payload s.params _ _ _ _ b r hb) h⟩

/-- Settles O19: the address check, the length check, or one transfer whose ack has its length by R17. -/
theorem streamWriteFollowsItsRule : Obligations.StreamWriteFollowsItsRule := fun s _ _ _ _ hr =>
  ⟨fun ha => busEnds_err s _ _ hr (Rbu.startStreamWrite_addr _ _ _ ha),
   fun ha hl => busEnds_err s _ _ hr (Rbu.startStreamWrite_len _ _ ha hl),
   fun ha hl _ h => busEnds_send s _ _ hr (Rbu.startStreamWrite_ok _ _ ha hl)
    (fun b r hb => Rbu.onReply_ack s.params _ _ _ b r hb) h⟩

/-- Settles O20: one transfer whose reply is ignored; `busEnds_send` holds for a reply of no bytes too. -/
theorem flushFollowsItsRule : Obligations.FlushFollowsItsRule := fun s _ _ hr _ h =>
  busEnds_send s _ _ hr (Rbu.startFlush_eq _ _) (fun _ _ _ => rfl) h

/-! ### RB_RMW -/

/-- A transfer in which an outcome was a Timeout ends with an error (R92, R102). -/
theorem xferSpec_late {req : Bytes} {n : Nat} {t : Timeout} {seq : Byte} {finish : Bytes → Result} {l : List TAnswer}
    {e : BusEnd} {w : Payload} (h : xferSpec req n t seq finish l = some e) (hw : e.result = .ok w) :
    e.late = false := by
  unfold xferSpec at h
  split at h
  · cases h; cases hw
  · cases h; rfl
  · split at h
    · cases h; rfl
    · split at h
      · split at h <;> cases h
        rfl
      · split at h <;> cases h
        rfl
      · cases h; cases hw
      · cases h; rfl
      · cases h
  · cases h

/-- RBU goes on after a transfer with what follows it and the answers left (R92). -/
theorem Rbu.advance_xfer {r : Rbu} {x : Xfer} {finish : Bytes → Result} {cont : Result → Rbu → Rbu} {e : BusEnd}
    (hs : r.state = .busy (.send x)) (hst : ∀ v r st, cont v { r with state := st } = cont v r)
    (herr : ∀ c r, cont (.err c) r = r.raise c) (hans : ∀ v r, (cont v r).answers = r.answers)
    (hfin : ∀ (b : Bytes) (r' : Rbu), b.length = x.n → r'.onReply p x b = cont (finish b) r')
    (h : xferSpec x.req x.n x.t r.seq finish r.answers = some e) :
    r.advance p = (cont e.result (r.reached e)).advance p := by
  obtain ⟨k, hk, hrun⟩ := Rbu.xfer_continues p r x finish cont e hs hst herr hfin h
  rw [Rbu.advance, ← hk, Rbu.run_add, hrun, Rbu.advance, hans]
  rfl

/-- The read half of an RB_RMW that fails ends the command (R99). -/
theorem rmwCont_other {addr : Nat} {mask value : Word} {t : Timeout} {v : Result} (r : Rbu)
    (hv : ∀ old, v ≠ .ok (.word old)) : rmwCont p addr mask value t v r = r.deliver v := by
  unfold rmwCont
  split
  · exact absurd rfl (hv _)
  · rfl

theorem rmwCont_state (addr : Nat) (mask value : Word) (t : Timeout) (v : Result) (r : Rbu) (st : RbuState) :
    rmwCont p addr mask value t v { r with state := st } = rmwCont p addr mask value t v r := by
  unfold rmwCont
  split
  · dsimp only [Rbu.startWrite]
    split <;> rfl
  · rfl

theorem rmwCont_answers (addr : Nat) (mask value : Word) (t : Timeout) (v : Result) (r : Rbu) :
    (rmwCont p addr mask value t v r).answers = r.answers := by
  unfold rmwCont Rbu.startWrite
  split
  · split <;> rfl
  · rfl

/-- RB_RMW runs to the end that `rmwSpec` gives: the read, and, unless it failed, the write (R99). -/
theorem Rbu.rmw_endsAs [p.Documented] {r : Rbu} {addr : Nat} {mask value : Word} {t : Timeout} {e : BusEnd}
    (ha : addr < 0xFFFF) (h : rmwSpec p addr mask value t r.seq r.answers = some e) :
    (r.startRead p addr t (.rmw addr mask value)).advance p = r.endsAs e := by
  unfold rmwSpec at h
  split at h
  · cases h
  rename_i e1 h1
  rw [Rbu.startRead_ok p r addr t _ ha]
  refine Eq.trans (Rbu.advance_xfer rfl (rmwCont_state addr mask value t) (fun _ _ => rfl)
    (rmwCont_answers addr mask value t) (fun b r' hb => Rbu.onReply_rmw p _ _ _ _ _ _ b r' hb) h1) ?_
  split at h
  · rename_i old hold
    split at h
    · cases h
    rename_i f hf
    cases h
    rw [hold, rmwCont, Rbu.startWrite_ok p _ addr _ t ha, Rbu.send_endsAs p _ _ _ _ f
      (fun b r' hb => Rbu.onReply_ack p _ _ _ b r' hb) hf]
    simp [Rbu.endsAs, Rbu.reached, Rbu.await, xferSpec_late h1 hold]
  · rename_i hother
    cases h
    rw [rmwCont_other _ hother, Rbu.advance_idle rfl]
    rfl

/-- Settles O21: the address check, or the read and what `rmwCont` makes of it. -/
theorem readModifyWriteFollowsItsRule : Obligations.ReadModifyWriteFollowsItsRule := fun s _ _ _ _ hr =>
  ⟨fun ha => busEnds_err s _ _ hr (Rbu.startRead_err _ _ _ _ _ ha),
   fun ha _ h => busEnds_of s _ _ hr (Rbu.rmw_endsAs ha h)⟩

/-! ### RB_POLL: the loop -/

/-- RB_POLL runs to the end that `pollSpec` gives, whatever the number of turns (R100). -/
theorem Rbu.poll_endsAs [p.Documented] {r : Rbu} {addr : Nat} {mask expected : Word} {t : Timeout} {rounds : Nat}
    {e : BusEnd} (ha : addr < 0xFFFF) (h : pollSpec p addr mask expected t rounds r.seq r.answers = some e) :
    (r.startPoll p addr mask expected t).advance p = r.endsAs e := by
  rw [Rbu.startPoll_ok _ _ _ _ ha]
  exact Rbu.advance_endsAs (Rbu.poll_run p addr mask expected t ha rounds (r.await _) e rfl h)

/-! ### RB_POLL: it ends in every execution -/

/-- A poll that is still in progress a moment later was not answered Expired, and has delivered nothing. -/
theorem Environment.drives_polling {env : Environment} {run : Nat → State} (h : env.drives run) {n : Nat}
    (hn : (run n).rbu.state.polling = true) (hn' : (run (n + 1)).rbu.state.polling = true) :
    ¬ tickAnswered .expired run n ∧ (run (n + 1)).rbu.results = (run n).rbu.results := by
  rcases env.drives_poll h n hn with ⟨-, hr⟩ | ⟨es, ht, ⟨-, he, hr⟩ | ⟨hid, -⟩⟩
  · rw [hr] at hn'; cases hn'
  · refine ⟨fun ⟨es', ht', he'⟩ => ?_, hr⟩
    rw [List.append_cancel_left (ht'.symm.trans ht), he] at he'
    cases he'
  · rw [hid] at hn'; cases hn'

/-- A poll that was in progress from one moment to another has delivered nothing between them. -/
theorem Environment.drives_polling_results {env : Environment} {run : Nat → State} (h : env.drives run) {n m : Nat}
    (hnm : n ≤ m) (hp : ∀ k, n ≤ k → k ≤ m → (run k).rbu.state.polling = true) :
    (run m).rbu.results = (run n).rbu.results := by
  induction m, hnm using Nat.le_induction with
  | base => rfl
  | succ m hnm ih =>
    rw [← ih fun k h1 h2 => hp k h1 (by omega)]
    exact (env.drives_polling h (hp m hnm (by omega)) (hp (m + 1) (by omega) le_rfl)).2

/-- R168: in an execution a poll in progress has a last moment. -/
theorem Execution.poll_has_last {env : Environment} {run : Nat → State} (h : Execution env run) {n : Nat}
    (hn : (run n).rbu.state.polling = true) :
    ∃ m, n ≤ m ∧ (∀ k, n ≤ k → k ≤ m → (run k).rbu.state.polling = true) ∧
      (run (m + 1)).rbu.state.polling = false := by
  by_contra hno
  have hall : ∀ m, n ≤ m → ∀ k, n ≤ k → k ≤ m → (run k).rbu.state.polling = true := by
    intro m hm
    induction m, hm using Nat.le_induction with
    | base => intro k h1 h2; rwa [Nat.le_antisymm h2 h1]
    | succ m hm ih =>
      intro k h1 h2
      obtain h2 | rfl := Nat.le_succ_iff.mp h2
      · exact ih k h1 h2
      · by_contra hk; exact hno ⟨m, hm, ih, Bool.eq_false_iff.mpr hk⟩
  have hp : ∀ m, n ≤ m → (run m).rbu.state.polling = true := fun m hm => hall m hm m hm le_rfl
  obtain ⟨m, hm, hexp⟩ := h.fair n hp
  exact (Environment.drives_polling h.drives (hp m hm) (hp (m + 1) (by omega))).1 hexp

/-! ### RB_POLL: without fairness it need not end

The host issues a poll whose mask is 0 and whose expected value is not, so that no read matches it. The environment
answers each of its requests at once and with success, and each Tick with Continue. -/

/-- The answer of that environment to the request outstanding. -/
def tirelessAnswer : RbuState → TAnswer
  | .busy (.recv x) => .recv (.bytes (zeros x.n))
  | .busy (.tick _ _ _ _) => .tick .continue
  | _ => .send .sent

/-- RBU once that environment has answered its request. -/
def Rbu.tirelessNext (r : Rbu) : Rbu := r.receiveAnswer State.reset.params (tirelessAnswer r.state)

/-- RBU `n` answers after the poll was accepted. -/
def tirelessRbu : Nat → Rbu
  | 0 => State.reset.rbu.await (.tick 0 0 1 0)
  | n + 1 => (tirelessRbu n).tirelessNext

/-- The host's poll, and then that environment's answers. -/
def tirelessEnv : Environment
  | 0 => .command (.host (.rbPoll 0 0 1)) 0
  | n + 1 => .answerT (tirelessAnswer (tirelessRbu n).state)

/-- What the block does then. -/
def tirelessRun : Nat → State
  | 0 => State.reset
  | n + 1 => { State.reset with rbu := tirelessRbu n }

theorem tirelessEnv_drives : tirelessEnv.drives tirelessRun := by
  intro n
  cases n with
  | zero => rfl
  | succ n => rfl

/-- RBU waits on a request, and no outcome is ready. -/
def Rbu.waitsOn (w : RbuWait) (r : Rbu) : Prop := r.state = .busy w ∧ r.answers = []

/-- The read of that poll: a request of 4 bytes and a reply of 6 (R93, R100). -/
def tirelessRead (req : Bytes) : Xfer := { req, n := 6, t := 0, after := .poll 0 0 1 }

/-- With one answer and no other ready, RBU makes one step. -/
theorem Rbu.tirelessNext_eq {r : Rbu} {w : RbuWait} (h : r.waitsOn w) :
    r.tirelessNext =
      Rbu.step State.reset.params { r with state := .busy w, answers := [tirelessAnswer (.busy w)] } := by
  obtain ⟨seq, linkOk, state, answers, trace, results⟩ := r
  obtain ⟨rfl, rfl⟩ := h
  rfl

/-- Tick is answered: the read is sent next. -/
theorem Rbu.tirelessNext_tick {r : Rbu} (h : r.waitsOn (.tick 0 0 1 0)) :
    (∃ req, r.tirelessNext.waitsOn (.send (tirelessRead req))) ∧
    r.tirelessNext.trace = r.trace ++ [.tick 0 .continue] := by
  rw [Rbu.tirelessNext_eq h]
  exact ⟨⟨frameRead Params.defaults r.seq 0, rfl, rfl⟩, rfl⟩

/-- The read is sent: its reply is awaited next. -/
theorem Rbu.tirelessNext_send {r : Rbu} {req : Bytes} (h : r.waitsOn (.send (tirelessRead req))) :
    r.tirelessNext.waitsOn (.recv (tirelessRead req)) := by
  rw [Rbu.tirelessNext_eq h]
  exact ⟨rfl, rfl⟩

/-- The reply comes and does not match: the next Tick is awaited. -/
theorem Rbu.tirelessNext_recv {r : Rbu} {req : Bytes} (h : r.waitsOn (.recv (tirelessRead req))) :
    r.tirelessNext.waitsOn (.tick 0 0 1 0) := by
  rw [Rbu.tirelessNext_eq h]
  exact ⟨rfl, rfl⟩

/-- The three requests of one turn of the loop. -/
def Rbu.inTirelessLoop (r : Rbu) : Prop :=
  r.waitsOn (.tick 0 0 1 0) ∨ ∃ req, r.waitsOn (.send (tirelessRead req)) ∨ r.waitsOn (.recv (tirelessRead req))

theorem tirelessRbu_inLoop (n : Nat) : (tirelessRbu n).inTirelessLoop := by
  induction n with
  | zero => exact .inl ⟨rfl, rfl⟩
  | succ n ih =>
    rcases ih with h | ⟨req, h | h⟩
    · obtain ⟨⟨req, h'⟩, -⟩ := Rbu.tirelessNext_tick h; exact .inr ⟨req, .inl h'⟩
    · exact .inr ⟨req, .inr (Rbu.tirelessNext_send h)⟩
    · exact .inl (Rbu.tirelessNext_recv h)

theorem Rbu.polling_of_inTirelessLoop {r : Rbu} (h : r.inTirelessLoop) : r.state.polling = true := by
  rcases h with ⟨hs, -⟩ | ⟨req, ⟨hs, -⟩ | ⟨hs, -⟩⟩ <;> rw [hs] <;> rfl

/-- At every moment a Tick is outstanding now or at most two answers later. -/
theorem tirelessRbu_ticks (n : Nat) : ∃ m, n ≤ m ∧ (tirelessRbu m).waitsOn (.tick 0 0 1 0) := by
  rcases tirelessRbu_inLoop n with h | ⟨req, h | h⟩
  · exact ⟨n, le_rfl, h⟩
  · exact ⟨n + 2, by omega, Rbu.tirelessNext_recv (Rbu.tirelessNext_send h)⟩
  · exact ⟨n + 1, by omega, Rbu.tirelessNext_recv h⟩

theorem tirelessRun_polling {n : Nat} (h : 1 ≤ n) : (tirelessRun n).rbu.state.polling = true := by
  obtain ⟨m, rfl⟩ := Nat.exists_eq_add_of_le' h
  exact Rbu.polling_of_inTirelessLoop (tirelessRbu_inLoop m)

/-- No Tick of this run is answered Expired: its poll stays in progress. -/
theorem tirelessRun_not_weaklyFair : ¬ weaklyFair tirelessRun := by
  intro hfair
  obtain ⟨m, hm, hexp⟩ := hfair 1 fun _ h => tirelessRun_polling h
  exact (Environment.drives_polling tirelessEnv_drives (tirelessRun_polling hm) (tirelessRun_polling (by omega))).1 hexp

theorem tirelessRun_ticks (n : Nat) : ∃ m, n ≤ m ∧ tickAnswered .continue tirelessRun m := by
  obtain ⟨m, hm, h⟩ := tirelessRbu_ticks n
  exact ⟨m + 1, by omega, [.tick 0 .continue], (Rbu.tirelessNext_tick h).2, rfl⟩

/-- Settles O22: the loop by `Rbu.poll_endsAs`, the ending by fairness at the last moment of the poll, and the run that
does not end by `tirelessEnv`. -/
theorem pollFollowsItsRule : Obligations.PollFollowsItsRule := by
  refine ⟨fun s addr mask expected _ hr => ⟨fun ha => ?_, fun ha rounds e h => ?_⟩, fun env run n hex hn => ?_, ?_⟩
  · exact busEnds_err s _ _ hr (Rbu.startPoll_addr _ _ _ _ ha)
  · exact busEnds_of s _ _ hr (Rbu.poll_endsAs ha h)
  · obtain ⟨m, hnm, hp, hlast⟩ := hex.poll_has_last hn
    have hres := env.drives_polling_results hex.drives hnm hp
    refine ⟨m, hnm, hp, ?_⟩
    rcases env.drives_poll hex.drives m (hp m hnm le_rfl) with ⟨hreset, hr⟩ | ⟨es, ht, ⟨hgo, -⟩ | ⟨hid, v, hv, hend⟩⟩
    · exact ⟨by rw [hr]; rfl, .inl ⟨hreset, by rw [hr]; exact hres⟩⟩
    · rw [hlast] at hgo; cases hgo
    · refine ⟨hid, .inr ⟨v, by rw [hv, hres], ?_⟩⟩
      unfold pollEnding at hend
      split at hend
      · rename_i hexp; exact .inl ⟨hend, es, ht, hexp⟩
      · exact .inr hend
  · exact ⟨tirelessEnv, tirelessRun, rfl, tirelessEnv_drives, tirelessRun_not_weaklyFair,
      fun _ => tirelessRun_polling, tirelessRun_ticks⟩

/-! ### LINK_OK and SEQ -/

/-- Settles O25: what happened since the acceptance, by `bus_next`; RB_REESTABLISH makes no event. -/
theorem linkFallsExactlyOnTimeout : Obligations.LinkFallsExactlyOnTimeout := by
  intro i s t _ hi hr h
  obtain ⟨-, -, ⟨-, ht⟩ | ⟨hl, -, hs⟩⟩ := bus_next i s t hi h
  · exact ⟨[], by rw [ht, List.append_nil], by rw [ht]; simp⟩
  · obtain ⟨es, hes, hlink⟩ := hs.events
    exact ⟨es, hes, by simp [hlink, hl]⟩

/-- Settles O23: RB_REESTABLISH of an idle RBU. -/
theorem reestablishSetsLinkOk : Obligations.ReestablishSetsLinkOk := by
  intro s h
  rw [exec_rbReestablish, Rbu.reestablish, h]
  simp only [State.onRbu, andThen, Rbu.relink, Rbu.deliver, h]

/-- Whatever a step does but the reset event, SEQ counts the frames built (R91). -/
theorem step_counts {s t : State} [s.params.Documented] (h : step s = .next t)
    (hr : ∀ rest, s.inputs ≠ .reset :: rest) : s.rbu.counts s.params t.rbu := by
  rcases step_inv s t h with ⟨-, rfl⟩ | ⟨x, rest, hi, ⟨c, tm, -, ⟨i, hx⟩ | ⟨w, rfl⟩⟩ | ⟨-, rfl | ⟨i, hx⟩⟩ |
    ⟨o, -, rfl⟩ | ⟨o, a, -, -, rfl⟩ | ⟨o, b, -, -, rfl⟩ | ⟨rfl, -⟩⟩
  · exact Rbu.counts_refl _
  · exact exec_counts i { s with inputs := rest, cmdTimeout := tm } t hx
  · exact Rbu.counts_refl _
  · exact Rbu.counts_refl _
  · exact exec_counts i { s with inputs := rest } t hx
  · exact Rbu.counts_run s.params _ { s.rbu with answers := s.rbu.answers ++ [o] }
  · exact Rbu.counts_refl _
  · exact Rbu.counts_refl _
  · exact absurd hi (hr rest)

/-- Settles O24: `step_counts`. -/
theorem seqCountsTheFramesBuilt : Obligations.SeqCountsTheFramesBuilt := fun _ _ _ h hr => step_counts h hr

end Sys2Proof.Machine
end

section
/-! The sequencing states of the ATR parser one by one (42_atr_parser.md, R108 to R119): what each asks for, and what it
makes of every outcome. -/

namespace Sys2Proof.Machine

variable {p : Params}

/-! ### A receive by its outcome -/

/-- A failed receive ends the command, whatever was to be done with the bytes (R117). -/
theorem Atu.receive_fail (n : Nat) (k : Bytes → Atu → Res Atu) {a : Atu} {rest : List AAnswer}
    (ha : a.answers = .fail :: rest) :
    a.receive n k = .next { a with state := .idle, answers := rest, trace := a.trace ++ [⟨n, .fail⟩]
                                   results := a.results ++ [.err .peAtrRecv] } := by
  rw [Atu.receive, ha]; rfl

/-- A receive whose bytes fit stores them before anything else is done with them (R118). -/
theorem Atu.receive_store (k : Bytes → Atu → Res Atu) {a : Atu} {b : Bytes} {rest : List AAnswer}
    (hr : a.consumed + b.length ≤ p.atrMax) (ha : a.answers = .bytes b :: rest) :
    a.receive b.length (fun b a => andThen (a.append p b) (k b)) = k b (a.took [b] rest) := by
  simp only [Atu.receive, ha, AAnswer.allowed, beq_self_eq_true, if_true]
  rw [Atu.append_next _ _ (by exact hr)]
  simp only [andThen, Atu.event, Atu.took, List.map_cons, List.map_nil, List.flatten_singleton]

/-! ### What a state asks for -/

/-- The number of bytes the present state asks for (R109, R110, R113, R115). -/
def Atu.asked (a : Atu) : Nat :=
  match a.state with
  | .expectInitial => 2
  | .expectInterfaceChain => a.groupLen
  | .expectHistorical => a.k.toNat
  | .expectCheckByte => if a.needsCheck then 1 else 0
  | _ => 0

/-- A state that asks for at least one byte and not more than the room left makes that one request; so a failed receive
ends the command there (R111, R113, R115, R117). -/
theorem Atu.step_fail {a : Atu} {rest : List AAnswer} (h1 : 1 ≤ a.asked) (hr : a.asked ≤ a.room p)
    (ha : a.answers = .fail :: rest) :
    a.step p = .next { a with state := .idle, answers := rest, trace := a.trace ++ [⟨a.asked, .fail⟩]
                              results := a.results ++ [.err .peAtrRecv] } := by
  cases hs : a.state <;> simp only [Atu.asked, hs] at h1 hr ⊢ <;> simp only [Atu.step, hs]
  case expectInitial => exact Atu.receive_fail _ _ ha
  case expectInterfaceChain =>
    rw [Atu.interfaceChain, if_neg (by omega), if_neg (by omega)]
    exact Atu.receive_fail _ _ ha
  case expectHistorical =>
    have hk : a.k ≠ 0 := by intro h; simp [h] at h1
    rw [Atu.historical, if_neg hk, if_neg (by omega)]
    exact Atu.receive_fail _ _ ha
  case expectCheckByte =>
    split at h1
    · rename_i hn
      rw [if_pos hn] at hr ⊢
      rw [Atu.checkByte, if_pos hn, if_neg (by omega)]
      exact Atu.receive_fail _ _ ha
    · omega
  all_goals omega

/-- After the first two bytes, a state that asks for more than the room left ends the command without a request (R111,
R113, R115). -/
theorem Atu.step_malformed {a : Atu} (hi : a.state ≠ .expectInitial) (hr : a.room p < a.asked) :
    a.step p = .next { a with state := .idle, results := a.results ++ [.err .peAtrMalformed] } := by
  cases hs : a.state <;> simp only [Atu.asked, hs] at hr <;> simp only [Atu.step, hs]
  case expectInitial => exact absurd hs hi
  case expectInterfaceChain => rw [Atu.interfaceChain, if_neg (by omega), if_pos hr]; rfl
  case expectHistorical =>
    have hk : a.k ≠ 0 := by intro h; simp [h] at hr
    rw [Atu.historical, if_neg hk, if_pos hr]; rfl
  case expectCheckByte =>
    split at hr
    · rename_i hn
      rw [Atu.checkByte, if_pos hn, if_pos hr]; rfl
    · omega
  all_goals omega

/-! ### The state's own case -/

/-- Both bytes are stored before a wrong TS ends the command (R109). -/
theorem Atu.initial_wrongTs {a : Atu} {ts t0 : Byte} {rest : List AAnswer} (hs : a.state = .expectInitial)
    (hr : a.consumed + 2 ≤ p.atrMax) (ha : a.answers = .bytes [ts, t0] :: rest) (hts : ts ≠ p.atrTs) :
    a.step p = .next { a.took [[ts, t0]] rest with state := .idle, results := a.results ++ [.err .peAtrTs] } := by
  rw [Atu.step, hs]
  refine (Atu.receive_store (b := [ts, t0]) _ hr ha).trans ?_
  rw [if_neg (by exact hts)]; rfl

/-- The last byte of a group is the next TDx if the previous one declared it, and then may set the check flag (R112). -/
theorem Atu.chain_append_last (a : Atu) (g : Bytes) (last : Byte) :
    a.chain (g ++ [last]) = { a with
      tdx := if a.tdx.getLsbD 7 = true then last else 0x00
      needsCheck := if a.tdx.getLsbD 7 = true ∧ lowNibble last ≠ 0 then true else a.needsCheck } := by
  rw [Atu.chain]
  cases a.tdx.getLsbD 7 with
  | false => simp
  | true => by_cases h : lowNibble last = 0#4 <;> simp [h]

/-- The historical bytes are skipped where K declares none (R113). -/
theorem Atu.historicalSkip_step {a : Atu} (hs : a.state = .expectHistorical) (hk : a.k = 0) :
    a.step p = .next { a with state := .expectCheckByte } := by
  simp only [Atu.step, hs, Atu.historical, hk, if_true]

/-! ### Waiting -/

/-- A state that waits goes on waiting, however many turns are taken. -/
theorem Atu.run_waits {a : Atu} (h : a.step p = .next a) (n : Nat) : Atu.run p n a = .next a := by
  induction n with
  | zero => rfl
  | succ n ih => rw [Atu.run, h]; exact ih

/-! ### The obligations -/

/-- Settles O34: a failed receive by `Atu.step_fail`; the two bytes by their first. -/
theorem atrInitialState : Obligations.AtrInitialState := by
  intro p a rest hp hs hc
  have hasked : a.asked = 2 := by rw [Atu.asked, hs]
  have hroom : a.room p = 32 := by rw [Atu.room, hp.atrMax, hc]
  have hfit : a.consumed + 2 ≤ p.atrMax := by rw [hp.atrMax]; omega
  refine ⟨fun ha => ?_, fun ts t0 ha => ⟨fun hts => ?_, fun hts => ?_⟩⟩
  · rw [Atu.step_fail (by omega) (by omega) ha, hasked]
  · rw [Atu.initial_wrongTs hs hfit ha (by rwa [hp.atrTs]), Atu.took, hc]; rfl
  · rw [hts, ← hp.atrTs] at ha ⊢
    rw [Atu.initial_took a t0 rest hs hfit ha, Atu.took, hc]; rfl

/-- Settles O35: `Atu.group_step` with the bytes taken apart by `Atu.chain_append_last`. -/
theorem atrInterfaceGroups : Obligations.AtrInterfaceGroups := by
  intro p a rest n hp hs _ hn
  have hasked : a.asked = n := by rw [Atu.asked, hs, hn]; rfl
  have hroom : a.room p = 32 - a.consumed := by rw [Atu.room, hp.atrMax]
  refine ⟨fun h0 => ?_, fun hfull => ?_, fun h1 hfit ha => ?_, fun g last hfit hl ha => ?_⟩
  · exact Atu.chainEnd_step a hs (hn.symm.trans h0)
  · exact Atu.step_malformed (by simp [hs]) (by omega)
  · rw [Atu.step_fail (by omega) (by omega) ha, hasked]
  · have h1 : 1 ≤ (g ++ [last]).length := by simp
    have hr : a.consumed + (g ++ [last]).length ≤ p.atrMax := by rw [hp.atrMax]; omega
    rw [Atu.group_step a (g ++ [last]) rest hs (hn.symm.trans hl.symm) h1 hr ha, Atu.chain_append_last, hl]
    rfl

/-- Settles O36: `Atu.historical_step`, for historical bytes that there are. -/
theorem atrHistoricalBytes : Obligations.AtrHistoricalBytes := by
  intro p a rest hp hs _
  have hasked : a.asked = a.k.toNat := by rw [Atu.asked, hs]
  have hroom : a.room p = 32 - a.consumed := by rw [Atu.room, hp.atrMax]
  have hpos (hk : a.k ≠ 0) : 1 ≤ a.k.toNat := by bv_omega
  refine ⟨fun hk => ?_, fun hfull => ?_, fun hk hfit ha => ?_, fun h hk hfit hl ha => ?_⟩
  · exact Atu.historicalSkip_step hs hk
  · exact Atu.step_malformed (by simp [hs]) (by omega)
  · have := hpos hk
    rw [Atu.step_fail (by omega) (by omega) ha, hasked]
  · have hne : h.isEmpty = false := by
      rw [List.isEmpty_eq_false_iff, ← List.length_pos_iff, hl]; exact hpos hk
    rw [Atu.historical_step a h rest hs hl (by rw [hp.atrMax]; omega) (by simpa [hne] using ha), hne, hl]
    rfl

/-- Settles O37: `Atu.checkByte_step`, with no check byte or with one behind the bytes consumed. -/
theorem atrCheckByteAndEnd : Obligations.AtrCheckByteAndEnd := by
  intro p a rest got hp hs hc hgot
  have hasked : a.asked = if a.needsCheck then 1 else 0 := by rw [Atu.asked, hs]
  have hroom : a.room p = 32 - a.consumed := by rw [Atu.room, hp.atrMax]
  refine ⟨fun hn => ?_, fun hn hfull => ?_, fun hn hfit ha => ?_, fun c hn hfit ha => ?_⟩
  · rw [Atu.checkByte_step a [] got a.answers hs (by simp [hn]) (by rw [hp.atrMax]; exact hc) rfl hgot]
    simp [Memory.writeN]
  · exact Atu.step_malformed (by simp [hs]) (by simp [hasked, hn, hroom, hfull])
  · rw [hn, if_pos rfl] at hasked
    rw [Atu.step_fail (by omega) (by omega) ha, hasked]
  · exact Atu.checkByte_step a [c] (got ++ [c]) rest hs (by simp [hn]) (by rw [hp.atrMax]; exact hfit) ha
      (Memory.readN_writeN_end a.buf a.consumed [c] got hgot)

/-- Settles O39: the events of a command in progress (`Atu.Since`), from an empty buffer on. -/
theorem atrNeverRequestsMoreThanTheBuffer : Obligations.AtrNeverRequestsMoreThanTheBuffer := by
  intro s t hp h
  obtain ⟨-, -, hs, -⟩ := atr_next s t h
  obtain ⟨es, hes, hlegal, hsum, -⟩ := hs.events
  refine ⟨es, hes, fun e he => (hlegal e he).1, ?_⟩
  rwa [Atu.start_consumed, Nat.zero_add, hp.atrMax] at hsum

/-- Settles O33: with no outcome ready the first request waits. -/
theorem atrAcceptance : Obligations.AtrAcceptance := by
  intro s hs ha
  have hwait : s.atu.start.step s.params = .next s.atu.start := by
    simp only [Atu.step, Atu.start_state, Atu.initial, Atu.receive, Atu.start_answers, ha]
  rw [exec_atrReceive, Atu.receiveAtr, hs]
  simp only [Atu.advance, Atu.run_waits hwait]
  rfl

end Sys2Proof.Machine
end

section
/-! The upload of the Bitstream Sequencer Unit (43_bitstream.md): the marker search, the bit order, the load and the
pad, the chunks, and BS_PROVISION as their composition (R121 to R136). -/

namespace Sys2Proof.Machine

variable {p : Params}

/-! ### The marker search (R123) -/

theorem findMarker_cons (m : Bytes) (b : Byte) (bs : Bytes) :
    findMarker m 0 (b :: bs) = if m.isPrefixOf (b :: bs) then some 0 else (findMarker m 0 bs).map (· + 1) := by
  rw [findMarker, findMarker_off m (0 + 1)]

theorem firstAt_cons_zero (m : Bytes) (b : Byte) (bs : Bytes) :
    firstAt m (b :: bs) 0 ↔ m.isPrefixOf (b :: bs) = true := by
  simp [firstAt]

/-- A marker that does not stand at the head first stands one offset further than in the tail. -/
theorem firstAt_cons_succ (m : Bytes) (b : Byte) (bs : Bytes) (i : Nat) :
    firstAt m (b :: bs) (i + 1) ↔ m.isPrefixOf (b :: bs) = false ∧ firstAt m bs i := by
  refine ⟨fun ⟨hi, hlow⟩ => ⟨hlow 0 (Nat.succ_pos i), hi, fun j hj => hlow (j + 1) (Nat.succ_lt_succ hj)⟩,
    fun ⟨h0, hi, hlow⟩ => ⟨hi, fun j hj => ?_⟩⟩
  cases j with
  | zero => exact h0
  | succ j => exact hlow j (Nat.lt_of_succ_lt_succ hj)

theorem findMarker_eq_some_iff {m : Bytes} (hm : m ≠ []) (bytes : Bytes) (i : Nat) :
    findMarker m 0 bytes = some i ↔ firstAt m bytes i := by
  induction bytes generalizing i with
  | nil => simp [findMarker, firstAt, hm]
  | cons b bs ih =>
    rw [findMarker_cons]
    cases i with
    | zero => rw [firstAt_cons_zero]; split <;> simp [*]
    | succ i => rw [firstAt_cons_succ, ← ih]; split <;> simp [*]

theorem findMarker_eq_none_iff {m : Bytes} (hm : m ≠ []) (bytes : Bytes) :
    findMarker m 0 bytes = none ↔ ∀ i, m.isPrefixOf (bytes.drop i) = false := by
  refine ⟨fun h i => ?_, fun h => ?_⟩
  · induction i using Nat.strong_induction_on with
    | _ i hlow =>
      by_contra hi
      have hfirst := (findMarker_eq_some_iff hm bytes i).mpr ⟨by simpa using hi, hlow⟩
      simp [h] at hfirst
  · refine Option.eq_none_iff_forall_ne_some.mpr fun i hi => ?_
    obtain ⟨hstands, -⟩ := (findMarker_eq_some_iff hm bytes i).mp hi
    simp [h i] at hstands

/-- Settles O41: both answers of the search, for the one marker. -/
theorem markerSearchFindsTheFirst : Obligations.MarkerSearchFindsTheFirst := fun _ bytes hm =>
  ⟨findMarker_eq_some_iff hm bytes, findMarker_eq_none_iff hm bytes⟩

/-! ### The bit order (R124, R125) -/

theorem reversedFirst_eq_true_iff {n r : Option Nat} :
    reversedFirst n r = true ↔ ∃ j, r = some j ∧ (n = none ∨ ∃ i, n = some i ∧ j ≤ i) := by
  cases r with
  | none => simp [reversedFirst]
  | some j => cases n <;> simp [reversedFirst]

theorem reversedFirst_some_eq_false_iff {i : Nat} {r : Option Nat} :
    reversedFirst (some i) r = false ↔ r = none ∨ ∃ j, r = some j ∧ i < j := by
  cases r <;> simp [reversedFirst]

section Detect

variable {b : Bsu} {bytes : Bytes}

theorem Bsu.detect_missing (h : b.buf.readN 0 b.len = some bytes) (hN : findMarker p.syncN 0 bytes = none)
    (hR : findMarker p.syncR 0 bytes = none) : b.detect p = .next (b.raise .peSync) := by
  simp [Bsu.detect, memRead_eq_next.mpr h, andThen, hN, hR]

theorem Bsu.detect_reversed (h : b.buf.readN 0 b.len = some bytes) (hcap : b.len ≤ bsuCapacity p)
    (hr : reversedFirst (findMarker p.syncN 0 bytes) (findMarker p.syncR 0 bytes) = true) :
    b.detect p =
      .next { b with buf := b.buf.writeN 0 (bytes.map bitrev8), reversed := true, state := .pad } := by
  obtain ⟨r, hR, -⟩ := reversedFirst_eq_true_iff.mp hr
  have hw : memWrite (bsuCapacity p) b.buf 0 (bytes.map bitrev8) = .next (b.buf.writeN 0 (bytes.map bitrev8)) :=
    memWrite_eq_next.mpr ⟨by rw [List.length_map, Memory.readN_length h]; omega, rfl⟩
  rw [hR] at hr
  simp [Bsu.detect, memRead_eq_next.mpr h, andThen, hw, hR, hr]

theorem Bsu.detect_normal {n : Nat} (h : b.buf.readN 0 b.len = some bytes) (hN : findMarker p.syncN 0 bytes = some n)
    (hr : reversedFirst (some n) (findMarker p.syncR 0 bytes) = false) :
    b.detect p = .next { b with state := .pad } := by
  simp [Bsu.detect, memRead_eq_next.mpr h, andThen, hN, hr]

end Detect

/-- Settles O42: the three ways that the two offsets can stand to each other. -/
theorem detectDecidesTheBitOrder : Obligations.DetectDecidesTheBitOrder := by
  intro p b bytes hp h hcap pN pR
  have hbl := Memory.readN_length h
  have eN : findMarker p.syncN 0 bytes = pN := by rw [hp.syncN]
  have eR : findMarker p.syncR 0 bytes = pR := by rw [hp.syncR]
  refine ⟨fun hN hR => ?_, fun r hR hle => ?_, fun n hN hlt => ?_⟩
  · exact Bsu.detect_missing h (eN.trans hN) (eR.trans hR)
  · have hrev := reversedFirst_eq_true_iff.mpr ⟨r, hR, hle⟩
    refine ⟨_, Bsu.detect_reversed h hcap (by rw [eN, eR]; exact hrev), ?_⟩
    rw [← hbl, ← List.length_map (as := bytes) bitrev8]
    exact Memory.readN_writeN_same _ _ _
  · refine Bsu.detect_normal h (eN.trans hN) ?_
    rw [eR]
    exact reversedFirst_some_eq_false_iff.mpr hlt

/-! ### Load and pad (R122, R126) -/

theorem Bsu.load_tooLong {image : Bytes} (t : Timeout) (b : Bsu) (h : p.maxImage < image.length) :
    b.load p image t = b.raise .ipLen := if_pos h

/-- Settles O40: either branch of the load. -/
theorem loadCopiesTheImage : Obligations.LoadCopiesTheImage := by
  intro p image t b hp
  refine ⟨Bsu.load_tooLong t b, fun h => ?_⟩
  rw [Bsu.load_eq p image t b h]
  refine ⟨?_, rfl, rfl, rfl, rfl, rfl⟩
  rw [Memory.readN_ofBytes_all _ _ (framedImage_length image), framedImage, hp.prefixLen]

/-- Settles O43: either branch of the pad, whose byte is within the capacity. -/
theorem padAppendsOneZeroByte : Obligations.PadAppendsOneZeroByte := by
  intro p b hp hcap
  refine ⟨fun h => ?_, fun h => ?_⟩
  · have hw : memWrite (bsuCapacity p) b.buf b.len [0x00] = .next (Memory.write b.buf b.len 0x00) :=
      memWrite_eq_next.mpr ⟨hcap, rfl⟩
    rw [Bsu.padStep, if_pos ((needsPad_iff _).mpr h), hw]
    rfl
  · rw [Bsu.padStep, if_neg (mt (needsPad_iff _).mp h)]

/-! ### The chunks (R128, R136) -/

section Chunks

variable [p.Documented] {bytes : Bytes}

theorem chunksOf_flatten (bytes : Bytes) : (chunksOf p bytes).flatten = bytes :=
  (chunks_flatten bytes _).trans (List.take_of_length_le (chunkCount_mul bytes.length))

/-- Every chunk but the last is a full one. -/
theorem length_of_mem_chunksOf_dropLast {c : Bytes} (h : c ∈ (chunksOf p bytes).dropLast) : c.length = 2048 := by
  obtain ⟨j, hj, rfl⟩ := List.mem_iff_getElem.mp h
  rw [List.length_dropLast, chunksOf_length] at hj
  have hnext : j + 1 < chunkCount p bytes.length := by omega
  rw [chunkCount_lt] at hnext
  simp only [List.getElem_dropLast, chunksOf, List.getElem_map, List.getElem_range, Params.chunk_doc, chunk_length]
  omega

/-- The last chunk is what is left behind the full ones. -/
theorem chunksOf_getLast? (h : bytes ≠ []) :
    (chunksOf p bytes).getLast? = some (bytes.drop ((chunkCount p bytes.length - 1) * 2048)) := by
  have hpos : 0 < bytes.length := List.length_pos_iff.mpr h
  have hn : 0 < chunkCount p bytes.length := chunkCount_lt.mpr (by omega)
  have hall := chunkCount_mul (p := p) bytes.length
  rw [List.getLast?_eq_getElem?, chunksOf_length, chunksOf_get _ _ (by omega),
    List.take_of_length_le (by rw [List.length_drop]; omega)]

end Chunks

/-- Settles O48: the chunks joined, the full ones, the last one, and the slice that send-chunk reads. -/
theorem chunksPartitionTheBuffer : Obligations.ChunksPartitionTheBuffer := by
  intro p bytes hp hne
  refine ⟨chunksOf_flatten bytes, fun c => length_of_mem_chunksOf_dropLast, fun c hc => ?_, fun j hj => ?_⟩
  · have hpos : 0 < bytes.length := List.length_pos_iff.mpr hne
    have hn := chunkCount_le (p := p) bytes.length
    have hall := chunkCount_mul (p := p) bytes.length
    rw [chunksOf_getLast? hne, Option.mem_some_iff] at hc
    rw [← hc, List.length_drop]
    omega
  · rw [chunk_readN bytes j hj, chunksOf_get bytes j hj]

/-- Settles O49: the full chunks take a multiple of 64 bytes away, and the whole length is none. -/
theorem lastChunkIsNoMultipleOfThePacketSize : Obligations.LastChunkIsNoMultipleOfThePacketSize := by
  intro p image hp
  obtain ⟨hlen, hmod⟩ := uploadBytes_length (p := p) image
  have hne : uploadBytes p image ≠ [] := List.ne_nil_of_length_pos (by omega)
  have hn := chunkCount_le (p := p) (uploadBytes p image).length
  refine ⟨_, chunksOf_getLast? hne, ?_⟩
  rw [List.length_drop]
  omega

/-! ### The whole upload, and the channel taken up again (R121 to R134) -/

theorem Bsu.provision_ready (image : Bytes) (p : Params) (t : Timeout) {b : Bsu} (h : b.state = .idle)
    (hc : b.ctrlOk = true) : b.provision image p t = (b.load p image t).advance p := by
  simp only [Bsu.provision, h, hc, if_true]

theorem Bsu.run_succ {b b' : Bsu} {n : Nat} (h : b.step p = .next b') : Bsu.run p (n + 1) b = Bsu.run p n b' := by
  rw [Bsu.run, h]; rfl

theorem Bsu.step_detect {b : Bsu} (h : b.state = .detect) : b.step p = b.detect p := by
  simp only [Bsu.step, h]

theorem Bsu.step_pad {b : Bsu} (h : b.state = .pad) : b.step p = b.padStep p := by
  simp only [Bsu.step, h]

/-- BSU with an image loaded, oriented and padded, before its first request (R122 to R126). -/
def Bsu.prepared (p : Params) (image : Bytes) (t : Timeout) (b : Bsu) : Bsu :=
  { b with state := .resetCmd, buf := Memory.ofBytes 0 (uploadBytes p image), len := (uploadBytes p image).length
           reversed := imageReversed p image, padded := needsPad p (framedImage p image).length, chunkIdx := 0
           timeout := t }

section Upload

variable [p.Documented] {image : Bytes} (t : Timeout) (b : Bsu)

/-- Detect and pad are the two steps between the load and the first request. -/
theorem Bsu.run_load_prepared (hl : image.length ≤ p.maxImage) (hm : syncMissing p image = false) :
    Bsu.run p 2 (b.load p image t) = .next (b.prepared p image t) := by
  have hload := Bsu.load_eq p image t b hl
  have hd := Bsu.detect_loaded p image (b.load p image t) (by rw [hload]) (by rw [hload]) (by rw [hload]) hl hm
  rw [hload] at hd ⊢
  rw [Bsu.run_succ ((Bsu.step_detect rfl).trans hd),
    Bsu.run_succ ((Bsu.step_pad rfl).trans (Bsu.padStep_loaded p image _ _ rfl rfl rfl rfl hl))]
  rfl

theorem Bsu.advance_load_uploads {e : UploadEnd} (hl : image.length ≤ p.maxImage) (hm : syncMissing p image = false)
    (h : uploadSpec p t (chunksOf p (uploadBytes p image)) b.answers = some e) :
    (b.load p image t).advance p = .next ((b.prepared p image t).endsAs e) := by
  obtain ⟨hlong, -⟩ := uploadBytes_length (p := p) image
  obtain ⟨k, hk, hrun⟩ := Bsu.upload_run p _ (by omega) (b.prepared p image t) e rfl rfl rfl rfl h
  have hwhole : Bsu.run p (2 + k) (b.load p image t) = .next ((b.prepared p image t).endsAs e) := by
    rw [Bsu.run_add, Bsu.run_load_prepared t b hl hm]; exact hrun
  have hans : (b.load p image t).answers = b.answers := by rw [Bsu.load_eq p image t b hl]
  have hfuel : 2 + k ≤ b.answers.length + 3 := by have : k ≤ b.answers.length := hk; omega
  exact Bsu.run_ge p (hans ▸ hfuel) hwhole rfl

theorem Bsu.advance_load_missing (hl : image.length ≤ p.maxImage) (hm : syncMissing p image = true) :
    (b.load p image t).advance p = .next ((b.load p image t).raise .peSync) := by
  have hrun : Bsu.run p 1 (b.load p image t) = .next ((b.load p image t).raise .peSync) := by
    simp only [syncMissing, Bool.and_eq_true, Option.isNone_iff_eq_none] at hm
    obtain ⟨hN, hR⟩ := hm
    have hread := Memory.readN_ofBytes_all (framedImage p image) _ (framedImage_length image)
    rw [Bsu.load_eq p image t b hl]
    exact Bsu.run_succ ((Bsu.step_detect rfl).trans (Bsu.detect_missing hread hN hR))
  exact Bsu.run_ge p (by omega) hrun rfl

end Upload

/-- Settles O50: load, detect and pad prepare BSU, and from there the control commands run as `uploadSpec` says. -/
theorem provisionUploadsTheImage : Obligations.ProvisionUploadsTheImage := by
  intro s image e hp hr hl hm h
  obtain ⟨hs, hc⟩ := hr
  rw [exec_bsProvision, Bsu.provision_ready image _ _ hs hc, Bsu.advance_load_uploads _ _ hl hm h]
  simp only [State.onBsu, andThen, Bsu.endsAs, Bsu.prepared, hs, hc, Bool.true_and]

/-- Settles O51: the load ends an image that is too long, and detect one without a marker. -/
theorem provisionRejectsTheImage : Obligations.ProvisionRejectsTheImage := by
  intro s image hp ⟨hs, hc⟩
  rw [exec_bsProvision, Bsu.provision_ready image _ _ hs hc]
  refine ⟨fun hl => ?_, fun hl hm => ?_⟩
  · rw [Bsu.load_tooLong _ _ hl, Bsu.advance, Bsu.run_idle _ _ _ rfl]
    simp only [State.onBsu, andThen, Bsu.raise, Bsu.complete, Bsu.deliver, hs]
  · rw [Bsu.advance_load_missing _ _ hl hm, Bsu.load_eq _ _ _ _ hl]
    simp only [State.onBsu, andThen, Bsu.raise, Bsu.complete, Bsu.deliver, hs]

/-- Settles O52: an idle BSU has its flag set and Ok delivered, whatever the flag held. -/
theorem bsReestablishSetsCtrlOk : Obligations.BsReestablishSetsCtrlOk := by
  intro s h
  simp only [exec_bsReestablish, Bsu.reestablish, h, Bsu.relink, Bsu.deliver, State.onBsu, andThen]

end Sys2Proof.Machine
end

section
/-! The errors a command can end with (60_exceptions.md section 1, R140): what each unit appends to its results, and that
an error among it stands in the command's row of the table. -/

namespace Sys2Proof.Machine

/-! ### The results of the instruction's unit -/

theorem resultsOf_bus {i : Instr} (s : State) (h : isBusCommand i = true) : resultsOf i s = s.rbu.results := if_pos h

theorem resultsOf_upload {i : Instr} (s : State) (h : isUploadCommand i = true) : resultsOf i s = s.bsu.results := by
  rcases isUploadCommand_cases h with ⟨k, v, rfl⟩ | ⟨image, rfl⟩ | rfl
  · cases k <;> cases v <;> rfl
  · rfl
  · rfl

/-! ### One more result, an error -/

/-- If `l'` is `l` with one more result, an error, then its subcause is one of `C`. -/
def errorsWithin (C : List Subcause) (l l' : List Result) : Prop := ∀ e, l' = l ++ [.err e] → e ∈ C

theorem errorsWithin_append {C : List Subcause} {l l' vs : List Result} (h : l' = l ++ vs)
    (hC : ∀ e, vs = [.err e] → e ∈ C) : errorsWithin C l l' :=
  fun e he => hC e (List.append_cancel_left (h.symm.trans he))

theorem errorsWithin_same (C : List Subcause) (l : List Result) : errorsWithin C l l :=
  errorsWithin_append (List.append_nil l).symm nofun

theorem errorsWithin_deliver {C : List Subcause} {l l' : List Result} {v : Result} (h : l' = l ++ [v])
    (hC : ∀ e, v = .err e → e ∈ C) : errorsWithin C l l' :=
  errorsWithin_append h fun e he => hC e (List.singleton_inj.mp he)

/-! ### The commands of each unit -/

theorem bus_errorsWithin {i : Instr} {s t : State} [s.params.Documented] (hi : isBusCommand i = true)
    (h : exec i s = .next t) : errorsWithin (causes i) s.rbu.results t.rbu.results := by
  obtain ⟨-, -, ⟨-, hr⟩ | ⟨-, -, hs⟩⟩ := bus_next i s t hi h
  · exact errorsWithin_deliver (v := .ok .none) (by rw [hr]) nofun
  · rcases hs.results with ⟨-, v, hv, hC⟩ | ⟨-, hv⟩
    · exact errorsWithin_deliver hv hC
    · rw [hv]; exact errorsWithin_same _ _

theorem atr_errorsWithin {s t : State} [s.params.Documented] (h : exec .atrReceive s = .next t) :
    errorsWithin (causes .atrReceive) s.atu.results t.atu.results := by
  obtain ⟨-, -, hs, -⟩ := atr_next s t h
  rcases hs.results with ⟨-, hv⟩ | ⟨-, v, hv, hC⟩
  · rw [hv]; exact errorsWithin_same _ _
  · exact errorsWithin_deliver hv hC

theorem control_errorsWithin {i : Instr} {s t : State} (hi : isControl i = true) (h : exec i s = .next t) :
    errorsWithin (causes i) s.bsu.results t.bsu.results := by
  obtain ⟨k, v, rfl, -, hk, -, hstep⟩ := control_next i s t hi h
  obtain ⟨-, -, -, -, -, -, vs, hvs, hC⟩ := Bsu.control_step_inv _ _ _ k hk hstep
  refine errorsWithin_append hvs fun e he => ?_
  obtain ⟨hmain, halt⟩ := hC e he
  cases v
  · exact hmain
  · exact halt

/-- The load raises IP_LEN before the upload begins; what comes after it is in `Bsu.Since`. -/
theorem provision_errorsWithin {image : Bytes} {s t : State} [s.params.Documented]
    (h : exec (.bsProvision image) s = .next t) :
    errorsWithin (causes (.bsProvision image)) s.bsu.results t.bsu.results := by
  obtain ⟨hready, -⟩ := provision_inv image s t h
  obtain ⟨t', h', -, hb⟩ := provision_next image s hready
  cases h.symm.trans h'
  rcases hb with ⟨-, hb⟩ | ⟨hl, hs, -⟩
  · refine errorsWithin_deliver (v := .err .ipLen) (by rw [hb]) fun e he => ?_
    cases he
    simp [causes]
  · have hr := hs.results
    rw [Bsu.load_eq _ _ _ _ hl] at hr
    rcases hr with ⟨-, hv⟩ | ⟨-, v, hv, hC⟩
    · rw [hv]; exact errorsWithin_same _ _
    · exact errorsWithin_deliver hv hC

theorem bsReestablish_errorsWithin {s t : State} (h : exec .bsReestablish s = .next t) :
    errorsWithin (causes .bsReestablish) s.bsu.results t.bsu.results := by
  obtain ⟨-, rfl⟩ := bsReestablish_inv s t h
  exact errorsWithin_deliver (v := .ok .none) rfl nofun

theorem upload_errorsWithin {i : Instr} {s t : State} [s.params.Documented] (hi : isUploadCommand i = true)
    (h : exec i s = .next t) : errorsWithin (causes i) s.bsu.results t.bsu.results := by
  rcases isUploadCommand_cases hi with ⟨k, v, rfl⟩ | ⟨image, rfl⟩ | rfl
  · exact control_errorsWithin (by cases k <;> cases v <;> rfl) h
  · exact provision_errorsWithin h
  · exact bsReestablish_errorsWithin h

/-- Settles O32, by the unit whose command it is. -/
theorem causesPerCommand : Obligations.CausesPerCommand := by
  intro i s t e _ h he
  rcases instr_unit_cases i with hi | rfl | hi
  · rw [resultsOf_bus _ hi, resultsOf_bus _ hi] at he
    exact bus_errorsWithin hi h e he
  · exact atr_errorsWithin h e he
  · rw [resultsOf_upload _ hi, resultsOf_upload _ hi] at he
    exact upload_errorsWithin hi h e he

end Sys2Proof.Machine
end

section
/-! The reset event (70_reset_and_hazards.md section 1, R155 to R159): a step on it resets the three units together,
whatever they were doing. -/

namespace Sys2Proof.Machine

/-- The event is taken from the inputs, and every unit is reset with it (R155, R156). -/
theorem step_reset {s : State} {rest : List Input} (h : s.inputs = .reset :: rest) :
    step s = .next (State.resetRegs { s with inputs := rest }) := by
  simp only [step, h, State.take]

/-- Settles O14: `step_reset`, and what `resetRegs` of each unit writes and leaves (R157, R159). -/
theorem resetEventAbandonsTheCommands : Obligations.ResetEventAbandonsTheCommands := by
  intro s rest h
  refine ⟨_, step_reset h, ?rbu, ?atu, ?bsu, Rbu.resetRegs_results _ _, Atu.resetRegs_results _,
    Bsu.resetRegs_results _, State.resetRegs_params _, State.resetRegs_inputs _⟩
  case rbu => simp only [State.resetRegs_rbu, Rbu.resetRegs_seq, Rbu.resetRegs_linkOk, Rbu.resetRegs_state]
  case atu => simp only [State.resetRegs_atu, Atu.resetRegs_state, Atu.resetRegs_consumed, Atu.resetRegs_needsCheck,
    Atu.resetRegs_buf]
  case bsu => simp only [State.resetRegs_bsu, Bsu.resetRegs_state, Bsu.resetRegs_len, Bsu.resetRegs_reversed,
    Bsu.resetRegs_padded, Bsu.resetRegs_chunkIdx, Bsu.resetRegs_ctrlOk, Bsu.resetRegs_buf]

end Sys2Proof.Machine
end

section
/-! How a control command reaches its meaning (R121, log 15), and how a step reaches the instruction of its input (log
14, log 16); the codes of the results (R138). -/

namespace Sys2Proof.Machine

/-! ### When a control command is refused -/

/-- Putting BSU's outcome back into the state refuses what BSU refuses. -/
theorem State.onBsu_eq_refused_iff (s : State) (o : Res Bsu) (r : Refusal) :
    s.onBsu o = .refused r ↔ o = .refused r := by
  cases o <;> simp [State.onBsu, andThen]

/-- BSU's own step refuses nothing, so a control command is refused by the selection alone. -/
theorem Bsu.control_eq_refused_iff (p : Params) (k : ControlKind) (v : OpVariant) (b : Bsu) :
    b.control p k v = .refused .controlNotSelected ↔ ¬ (b.selected = some k ∧ variantOf p k = v) := by
  by_cases h : b.selected = some k ∧ variantOf p k = v
  · rw [Bsu.control_eq_step p k v b h.1 h.2]
    exact iff_of_false (Bsu.step_ne_refused p b _) (not_not_intro h)
  · exact iff_of_true (if_neg h) h

/-- Settles O47: `Bsu.control_eq_refused_iff`, put back into the state. -/
theorem controlCommandsRunOnlyInTurn : Obligations.ControlCommandsRunOnlyInTurn := by
  intro k v s
  rw [exec_control, State.onBsu_eq_refused_iff, Bsu.control_eq_refused_iff]

/-! ### The instruction of an input -/

/-- The host commands are all but the control commands (R21, R72). -/
theorem isHostCommand_eq_not_isControl (i : Instr) : isHostCommand i = !isControl i := by cases i <;> rfl

theorem Command.instr_code {p : Params} {b : Bytes} {i : Instr} (h : decode p (.frame b) = .ok i) :
    (Command.code b).instr p = .next i := by
  simp only [Command.instr, h]

theorem Command.instr_host (p : Params) {i : Instr} (h : isControl i = false) : (Command.host i).instr p = .next i :=
  if_pos (by simp only [isHostCommand_eq_not_isControl, h, Bool.not_false])

/-- Settles O58: `step_command`, for either way to give the instruction. -/
theorem stepRunsTheCommand : Obligations.StepRunsTheCommand := fun _ _ _ _ =>
  ⟨fun _ hin hd => step_command hin (Command.instr_code hd), fun hin hc => step_command hin (Command.instr_host _ hc)⟩

theorem State.takeControl_selected {s : State} {k : ControlKind} (h : s.bsu.selected = some k) :
    s.takeControl = exec (controlInstr k (variantOf s.params k)) s := by
  simp only [State.takeControl, Bsu.controlCode, h, decode_controlByte]

theorem State.takeControl_none {s : State} (h : s.bsu.selected = none) : s.takeControl = .next s := by
  simp only [State.takeControl, Bsu.controlCode, h]

theorem step_control {s : State} {rest : List Input} (h : s.inputs = .control :: rest) :
    step s = State.takeControl { s with inputs := rest } := by
  simp only [step, h, State.take]

/-- Settles O59: the step is `State.takeControl`, and the opcode byte decodes by the table of R72. -/
theorem stepRunsTheControlCommand : Obligations.StepRunsTheControlCommand := by
  intro s rest hin
  rw [step_control hin]
  exact ⟨fun k hk => ⟨State.takeControl_selected (s := { s with inputs := rest }) hk, decode_controlByte k _⟩,
    fun hn => State.takeControl_none (s := { s with inputs := rest }) hn⟩

/-! ### The codes of the results -/

/-- Settles O11: each row of the table stands in the definitions of the codes. -/
theorem errorCodesAreTheTable : Obligations.ErrorCodesAreTheTable :=
  ⟨fun _ => ⟨rfl, rfl⟩, rfl, rfl, rfl, rfl⟩

end Sys2Proof.Machine
end
